-- ==== Sys2Proof/Word.lean ====
section
/-! DEFINITION. The two word types of the machine: the 64-bit word of every register and of the hash
(00_scope R8, parameter WORD) and the byte of the buffer memory (20_memory R82). -/

namespace Sys2Proof

/-- A `u64` (00_scope R11): register contents, hash values, descriptor fields. -/
abbrev Word := BitVec 64

/-- One byte of the buffer memory (10_state R56). -/
abbrev Byte := BitVec 8

end Sys2Proof
end

