-- ==== Sys2Proof/Syntax.lean ====
section
/-! DEFINITION. The commands of RHE-CMD version 1: one constructor of `Instr` per row of the opcode
map (30_encoding R113), the raw fields of a command word (R111) and the reasons why a word is no
command (R117). -/

namespace Sys2Proof

/-- A register index, R0 to R7 (30_encoding R118: all eight are legal in every field). -/
abbrev Reg := Fin 8

/-- The command set (30_encoding R113). Operands stand in the order of the rule's column. -/
inductive Instr where
  | nop
  | init
  | tclr
  | scan
  | step
  | gear (rd rs1 : Reg)
  | hadv (rd rs1 rs2 : Reg)
  | btest (rd rs1 : Reg)
  | tins (rs1 rs2 : Reg)
  | tlkp (rd rs1 : Reg)
  | vfwd (rd rs1 rs2 : Reg)
  | xbwd (rd rs1 rs2 rs3 : Reg)
  | matchEmit (rd rs1 rs2 : Reg)
  deriving DecidableEq, Repr

/-- The thirteen opcodes of R113, without their operands. -/
inductive Opcode where
  | nop | init | tclr | scan | step
  | gear | hadv | btest | tins | tlkp | vfwd | xbwd | matchEmit
  deriving DecidableEq, Repr

/-- The five formats of R112. -/
inductive Format where
  | f0 | fr | frr | fs | frrr
  deriving DecidableEq, Repr

/-- The raw fields of a 32-bit command word (30_encoding R111), before any check. -/
structure Fields where
  op  : BitVec 8
  rd  : BitVec 3
  rs1 : BitVec 3
  rs2 : BitVec 3
  rs3 : BitVec 3
  res : BitVec 12
  deriving DecidableEq, Repr

/-- Why a CMD value is illegal: the first three checks of 30_encoding R117, in its order. Each of
them raises ILLEGAL_CMD. -/
inductive IllegalReason where
  /-- bits [63:32] of the value are not zero -/
  | upperBits
  /-- the OP field names no command -/
  | unassignedOp
  /-- a bit that the format fixes to 0 is set -/
  | mustBeZero
  deriving DecidableEq, Repr

end Sys2Proof
end

