-- ==== Sys2Proof/WellFormed.lean ====
section
/-! DEFINITION. When raw fields are a command: the unused-field rule (30_encoding R114) and the
opcode map (R113), written from those two rules alone. The decoder does not use this file: it works
by the masks of R112, so that "the decoder accepts exactly the well-formed words" says something. -/

namespace Sys2Proof

/-- The opcodes in use, each with its format (30_encoding R113). -/
def opcodeMap : List (BitVec 8 × Format) :=
  [(0x00, .f0), (0x01, .f0), (0x02, .f0), (0x03, .f0), (0x04, .f0),
   (0x10, .fr), (0x11, .frr), (0x12, .fr), (0x13, .fs), (0x14, .fr),
   (0x15, .frr), (0x16, .frrr), (0x17, .frr)]

/-- Which operand fields a format uses, in the order RD, RS1, RS2, RS3 (30_encoding R112: a `-` in
the table is `false` here). -/
def Format.uses : Format → Bool × Bool × Bool × Bool
  | .f0   => (false, false, false, false)
  | .fr   => (true,  true,  false, false)
  | .frr  => (true,  true,  true,  false)
  | .fs   => (false, true,  true,  false)
  | .frrr => (true,  true,  true,  true)

/-- A field that the format does not use must be 0 (30_encoding R114). -/
def Fields.unusedAreZero (f : Fields) (fmt : Format) : Bool :=
  match fmt.uses with
  | (rd, rs1, rs2, rs3) =>
    (rd || f.rd == 0) && (rs1 || f.rs1 == 0) && (rs2 || f.rs2 == 0) && (rs3 || f.rs3 == 0)

/-- A command word's fields are well formed: OP is assigned (R113), the fields that its format does
not use are 0 and RES is 0 (R114). -/
def Fields.wellFormed (f : Fields) : Bool :=
  match opcodeMap.lookup f.op with
  | none => false
  | some fmt => f.unusedAreZero fmt && f.res == 0

end Sys2Proof
end

