-- ==== Sys2Proof/Decode.lean ====
section
/-! DEFINITION. From the bits of a CMD write to a command and back: the fields of a word (30_encoding
R111), the decoder by mask and match (R112, R113, R117), and after it the encoder (R124). -/

namespace Sys2Proof

/-- The fields of a command word (30_encoding R111). -/
def Fields.ofWord (w : BitVec 32) : Fields where
  op  := w.extractLsb' 0 8
  rd  := w.extractLsb' 8 3
  rs1 := w.extractLsb' 11 3
  rs2 := w.extractLsb' 14 3
  rs3 := w.extractLsb' 17 3
  res := w.extractLsb' 20 12

/-- The command word with the given fields (30_encoding R111, R124), the highest field first. -/
def Fields.toWord (f : Fields) : BitVec 32 :=
  f.res ++ f.rs3 ++ f.rs2 ++ f.rs1 ++ f.rd ++ f.op

/-- The opcode map (30_encoding R113). Every other OP value is unassigned. -/
def opcodeOf (op : BitVec 8) : Option Opcode :=
  match op.toNat with
  | 0x00 => some .nop
  | 0x01 => some .init
  | 0x02 => some .tclr
  | 0x03 => some .scan
  | 0x04 => some .step
  | 0x10 => some .gear
  | 0x11 => some .hadv
  | 0x12 => some .btest
  | 0x13 => some .tins
  | 0x14 => some .tlkp
  | 0x15 => some .vfwd
  | 0x16 => some .xbwd
  | 0x17 => some .matchEmit
  | _ => none

/-- The format of each opcode (30_encoding R113). -/
def Opcode.format : Opcode → Format
  | .nop => .f0
  | .init => .f0
  | .tclr => .f0
  | .scan => .f0
  | .step => .f0
  | .gear => .fr
  | .hadv => .frr
  | .btest => .fr
  | .tins => .fs
  | .tlkp => .fr
  | .vfwd => .frr
  | .xbwd => .frrr
  | .matchEmit => .frr

/-- The mask of each format: a 1 at every bit whose value the format fixes (30_encoding R112). -/
def Format.mask : Format → BitVec 32
  | .f0   => 0xFFFFFFFF
  | .fr   => 0xFFFFC0FF
  | .frr  => 0xFFFE00FF
  | .fs   => 0xFFFE07FF
  | .frrr => 0xFFF000FF

/-- The command with opcode `o` and the operands that the fields name (30_encoding R118). -/
def Opcode.withOperands (o : Opcode) (f : Fields) : Instr :=
  match o with
  | .nop => .nop
  | .init => .init
  | .tclr => .tclr
  | .scan => .scan
  | .step => .step
  | .gear => .gear f.rd.toFin f.rs1.toFin
  | .hadv => .hadv f.rd.toFin f.rs1.toFin f.rs2.toFin
  | .btest => .btest f.rd.toFin f.rs1.toFin
  | .tins => .tins f.rs1.toFin f.rs2.toFin
  | .tlkp => .tlkp f.rd.toFin f.rs1.toFin
  | .vfwd => .vfwd f.rd.toFin f.rs1.toFin f.rs2.toFin
  | .xbwd => .xbwd f.rd.toFin f.rs1.toFin f.rs2.toFin f.rs3.toFin
  | .matchEmit => .matchEmit f.rd.toFin f.rs1.toFin f.rs2.toFin

/-- Checks 2 and 3 of 30_encoding R117 on a command word: OP is assigned, and `w & mask = OP`. -/
def decodeWord (w : BitVec 32) : Except IllegalReason Instr :=
  match opcodeOf (Fields.ofWord w).op with
  | none => .error .unassignedOp
  | some o =>
    if w &&& o.format.mask = (Fields.ofWord w).op.setWidth 32 then
      .ok (o.withOperands (Fields.ofWord w))
    else .error .mustBeZero

/-- Decoding of an accepted CMD value (30_encoding R117, checks 1 to 3 in order). -/
def decodeCmd (v : Word) : Except IllegalReason Instr :=
  if v.extractLsb' 32 32 = 0 then decodeWord (v.extractLsb' 0 32) else .error .upperBits

/-- The command that the decoder reads from a word of `nbits` bits, numbered as the opcode table
numbers them; every bit from `nbits` up is 0. A value that does not fit a CMD write is no command. -/
def decodeTableWord (nbits w : Nat) : Option Instr :=
  if w % 2 ^ nbits < 2 ^ 64 then (decodeCmd (BitVec.ofNat 64 (w % 2 ^ nbits))).toOption else none

/-- The field that holds a register index (30_encoding R111). -/
def regField (r : Reg) : BitVec 3 := BitVec.ofFin r

/-- The fields of a command's word; each unused field is 0 (30_encoding R124). -/
def Instr.fields : Instr → Fields
  | .nop  => ⟨0x00, 0, 0, 0, 0, 0⟩
  | .init => ⟨0x01, 0, 0, 0, 0, 0⟩
  | .tclr => ⟨0x02, 0, 0, 0, 0, 0⟩
  | .scan => ⟨0x03, 0, 0, 0, 0, 0⟩
  | .step => ⟨0x04, 0, 0, 0, 0, 0⟩
  | .gear rd rs1          => ⟨0x10, regField rd, regField rs1, 0, 0, 0⟩
  | .hadv rd rs1 rs2      => ⟨0x11, regField rd, regField rs1, regField rs2, 0, 0⟩
  | .btest rd rs1         => ⟨0x12, regField rd, regField rs1, 0, 0, 0⟩
  | .tins rs1 rs2         => ⟨0x13, 0, regField rs1, regField rs2, 0, 0⟩
  | .tlkp rd rs1          => ⟨0x14, regField rd, regField rs1, 0, 0, 0⟩
  | .vfwd rd rs1 rs2      => ⟨0x15, regField rd, regField rs1, regField rs2, 0, 0⟩
  | .xbwd rd rs1 rs2 rs3  => ⟨0x16, regField rd, regField rs1, regField rs2, regField rs3, 0⟩
  | .matchEmit rd rs1 rs2 => ⟨0x17, regField rd, regField rs1, regField rs2, 0, 0⟩

/-- A command is well formed when its fields are. -/
def Instr.wellFormed (i : Instr) : Bool := i.fields.wellFormed

/-- The encoding function (30_encoding R124). -/
def encode (i : Instr) : BitVec 32 := i.fields.toWord

/-- The 64-bit value that a host writes to CMD to issue a command: the word in bits [31:0] and 0
above it (30_encoding R110). -/
def encodeCmd (i : Instr) : Word := (encode i).setWidth 64

end Sys2Proof
end

