-- ==== Sys2Proof/Config.lean ====
section
/-! DEFINITION. What an implementation fixes (00_scope R8) and the values the spec leaves open
(93_implementation_defined, U1, U3, U4, U7). The open values are constants with no body: nothing can
be proved about them but that they are fixed. -/

namespace Sys2Proof

/-- The parameters of rule R8 that vary from one engine to another. The engine carries them in its
state as plain data that nothing writes (10_state R32, first lines: ID and PARAMS), so that every
definition reads them and none of them is hard-coded.

`gear` lists the entries of the gear table that are known for this engine, from byte 0 up; every
entry that it does not list is the hardware's own, `Config.gear`. -/
structure Params where
  /-- least legal `hashLog` -/
  hlogMin : Nat
  /-- largest legal `hashLog`; the table storage has `2^hlogMax` entries -/
  hlogMax : Nat
  /-- least legal `windowLog` -/
  wlogMin : Nat
  /-- largest legal `windowLog` -/
  wlogMax : Nat
  /-- log2 of the buffer memory's size in bytes -/
  bufCapLog : Nat
  /-- capacity of the descriptor FIFO, in entries -/
  fifoDepth : Nat
  /-- the known entries of the gear table, from byte 0 up -/
  gear : List Word
  deriving DecidableEq, Repr

/-- `BUF_CAP`, the number of bytes of the buffer memory (00_scope R8). -/
def Params.bufCap (p : Params) : Nat := 2 ^ p.bufCapLog

/-- `2^HLOG_MAX`, the number of entries of the match table's storage (10_state R55). -/
def Params.tableSize (p : Params) : Nat := 2 ^ p.hlogMax

/-- The constraints of rule R8's last column. -/
def Params.wf (p : Params) : Bool :=
  1 ≤ p.hlogMin && p.hlogMin ≤ p.hlogMax && p.hlogMax ≤ 32
    && p.wlogMin ≤ p.wlogMax && p.wlogMax ≤ p.bufCapLog && p.bufCapLog ≤ 24
    && 1 ≤ p.fifoDepth && p.fifoDepth ≤ 255 && p.gear.length ≤ 256

namespace Config

/-- The engine that the spec describes (00_scope R8, column "this hardware"). None of its gear
entries is known: the whole table is `Config.gear`. -/
def thisHardware : Params where
  hlogMin := 4
  hlogMax := 20
  wlogMin := 4
  wlogMax := 20
  bufCapLog := 20
  fifoDepth := 16
  gear := []

/-- `HRL_MAX`, the largest legal `hashRateLog` (00_scope R8: 64, fixed). -/
def hrlMax : Nat := 64

/-- FREE VALUE (U4, 40_rolling_hash R140): the gear table's 256 constants, which the source does not
give. One table for all engines (R141). -/
opaque gear : Byte → Word

/-- FREE VALUE (U3, 10_state R56): what byte `a` of an engine's buffer memory holds after its `k`-th
reset and before the host first writes it. -/
opaque bufferAtReset : (engine k a : Nat) → Byte

/-- FREE VALUE (U1, 10_state R58): an engine's `k`-th draw, the word that a host read of a general register
or of a scan register returns while the engine is busy. -/
opaque busyRead : (engine k : Nat) → Word

/-- OPEN parameter `BUS_ERROR_RESPONSE` (60_exceptions R265): whether the bus also answers a bad
access with an error. The engine's own effect is the same either way. -/
opaque busErrorResponse : Bool

end Config

end Sys2Proof
end

