-- ==== Sys2Proof/Machine/State.lean ====
section
/-! DEFINITION. The whole state of one engine (10_state R32), the host's side of a run (20_memory R91,
70_reset_and_hazards R320), the reasons a step can stop, and the state at reset (R300). Plain data. -/

namespace Sys2Proof.Machine

open Sys2Proof

/-- The buffer memory (10_state R56): the bytes written since reset, by rising offset, no offset
twice. An offset that is not listed holds no written byte; what it reads as is
`Config.bufferAtReset` (see `State.bufByte`), so no listed cell repeats it. -/
abbrev Memory := List Host.Cell

/-- The match table (10_state R55): the entries that are `some off`, by rising index, no index
twice. An index that is not listed holds `none`. -/
abbrev Table := List (Nat × BitVec 32)

/-- A match descriptor (10_state R52). -/
structure Desc where
  src : Word
  dst : Word
  len : Word
  deriving DecidableEq, Repr

/-- A candidate that the emitter accepts (43_match_emitter R203): the descriptor it pushes and
`stop`, the offset `cur + f` just past the destination. -/
structure Emission where
  desc : Desc
  stop : Word
  deriving DecidableEq, Repr

/-- What is left of a command once a held FifoPush goes through (10_state R53, "how far it has
got"). -/
inductive Continuation where
  /-- MATCH: write the length to `rd` (43_match_emitter R204) -/
  | matchResult (rd : Reg)
  /-- STEP: jump past the match (44_scan_control R236) -/
  | stepJump
  /-- SCAN: jump past the match and scan on (44_scan_control R238) -/
  | scanJump
  deriving DecidableEq, Repr

/-- The engine agent's pending command (10_state R53, 70_reset_and_hazards R320). BUSY is "not
idle" and STALL is "held on a full FIFO": see `State.busy` and `State.stall`. -/
inductive Engine where
  /-- no command in progress -/
  | idle
  /-- the 64-bit value of an accepted CMD write, not yet decoded -/
  | accepted (v : Word)
  /-- SCAN, between two STEP_BODYs -/
  | scanning
  /-- the rule's writes are done and BUSY has not fallen yet -/
  | finishing
  /-- stopped in FifoPush, which found the FIFO full -/
  | held (e : Emission) (k : Continuation)
  deriving DecidableEq, Repr

/-- The command errors (60_exceptions R261). Their codes are `CmdError.code`. -/
inductive CmdError where
  | illegalCmd | cfgNotValid | hlogRange | wlogRange | minmZero | windowGtBuffer | buflenRange | hrlRange
  deriving DecidableEq, Repr

/-- One host access at a block offset (20_memory R80: the window is 2^25 bytes). Its width is any
number of bytes, so that the forbidden widths of R81 and R83 can be stated. A write uses the low
`8 * width` bits of `v`. -/
inductive Access where
  | read (width : Nat) (addr : BitVec 25)
  | write (width : Nat) (addr : BitVec 25) (v : Word)
  deriving DecidableEq, Repr

/-- What can happen next (20_memory R91, 70_reset_and_hazards R300, R320). -/
inductive Event where
  /-- the host makes one access -/
  | host (a : Access)
  /-- the host's `wait`: read STATUS again and again until BUSY reads 0 (30_encoding R123) -/
  | wait
  /-- the engine takes one step: to completion or to its next hold -/
  | engine
  /-- the engine gets only a part of that step before the host acts, so that the host sees FIFO
  entries one at a time while BUSY is still 1 (20_memory R92) -/
  | enginePart
  /-- the reset input is asserted and released -/
  | reset
  deriving DecidableEq, Repr

/-- What the bus answers to an access: the data of a read (0 for a write and for an access that is
not performed), and whether it signals an error. -/
structure Response where
  data : Word
  busError : Bool
  deriving DecidableEq, Repr

/-- The state of the machine: the block's own elements, one or more fields for each line of 10_state
R32, and after them the host's side of the run, which is the model's. -/
structure State where
  /-- ID and PARAMS, R33, R34: the parameters of this engine; nothing writes them -/
  params : Params
  /-- general registers R0..R7, R30 -/
  regs : Vector Word 8
  /-- CFG, R35; its reserved bits are 0 -/
  cfg : Word
  /-- BUF_LEN, R36 -/
  bufLen : Word
  /-- CMD readback, R37 -/
  cmdReadback : BitVec 32
  /-- STATUS.DONE, R38 -/
  done : Bool
  /-- STATUS.ERR, R38 -/
  err : Bool
  /-- STATUS.DROP, R38 -/
  drop : Bool
  /-- STATUS.BUSERR, R38 -/
  busErr : Bool
  /-- ERRCODE, R40 -/
  errCode : BitVec 8
  /-- IE, R41 -/
  ie : BitVec 5
  /-- CFG_OK, R53 -/
  cfgOk : Bool
  /-- EOB, R53 -/
  eob : Bool
  /-- BUSY, STALL, the command in progress and its progress point, R53 -/
  engine : Engine
  /-- HASH, R43 -/
  hash : Word
  /-- POS, R45 -/
  pos : Word
  /-- CSTART, R46 -/
  cstart : Word
  /-- PREV_END, R47 -/
  prevEnd : Word
  /-- BCOUNT, R48 -/
  bcount : Word
  /-- HCOUNT, R48 -/
  hcount : Word
  /-- MCOUNT, R48 -/
  mcount : Word
  /-- descriptor FIFO, oldest first, R52 -/
  fifo : List Desc
  /-- match table, R55 -/
  table : Table
  /-- buffer memory, R56 -/
  buffer : Memory
  /-- model: which engine of the platform this is; picks its unknown values (60_exceptions R285) -/
  engineId : Nat
  /-- model: how many resets came before; picks the buffer's unknown content (U3) -/
  epoch : Nat
  /-- model: how many draws have been made; picks the next one (U1) -/
  draws : Nat
  /-- model: what is to happen, in arrival order (20_memory R91) -/
  agenda : List Event
  /-- model: the answer to the last host access -/
  response : Response
  /-- model: the descriptors popped since reset, in pop order (44_scan_control R245) -/
  popped : List Desc
  deriving DecidableEq, Repr

/-- Why the machine stops with a fault. -/
inductive Fault where
  /-- A command that reads the buffer runs with BUF_LEN above BUF_CAP, so a read would lie outside
  the memory (20_memory R82: defined only below N, and N <= BUF_CAP whenever CFG_OK = 1). Raised by
  VFWD, XBWD, MATCH, STEP and SCAN. No run from reset reaches it. Safe: the model stops. -/
  | bufferBeyondCapacity
  /-- A command that uses the match table runs with HLOG above HLOG_MAX, so an index would lie
  outside the storage (42_match_table R180: defined only below 2^HLOG_MAX). Raised by TINS, TLKP,
  STEP and SCAN. No run from reset reaches it. Safe: the model stops. -/
  | tableBeyondStorage
  deriving DecidableEq, Repr

/-- Why the model gives an instruction no meaning. -/
inductive Refusal where
  /-- Raised by an arm of `exec` whose instruction has no meaning yet. None is left. Safe. -/
  | notModelled (mnemonic : String)
  deriving DecidableEq, Repr

/-- The outcome of one step of this machine. -/
abbrev Result := Host.Outcome State Fault Refusal

/-- The state at release of reset (70_reset_and_hazards R300) of an engine with parameters `p`: every
register, flag and counter 0 and the FIFO empty. The table's content is unspecified and cannot be
observed, so it is `none` throughout (U2); no buffer byte has been written (U3). -/
def State.resetOf (p : Params) : State where
  params := p
  regs := Vector.replicate 8 0
  cfg := 0
  bufLen := 0
  cmdReadback := 0
  done := false
  err := false
  drop := false
  busErr := false
  errCode := 0
  ie := 0
  cfgOk := false
  eob := false
  engine := .idle
  hash := 0
  pos := 0
  cstart := 0
  prevEnd := 0
  bcount := 0
  hcount := 0
  mcount := 0
  fifo := []
  table := []
  buffer := []
  engineId := 0
  epoch := 0
  draws := 0
  agenda := []
  response := ⟨0, false⟩
  popped := []

/-- The machine right after reset: the engine of this hardware, with nothing asked of it. -/
def State.reset : State := State.resetOf Config.thisHardware

end Sys2Proof.Machine
end

