-- ==== Sys2Proof/Machine/Ops.lean ====
section
/-! DEFINITION. The named operations over memory, table, registers, FIFO and command state that the
meanings share: each follows one rule of the spec. -/

namespace Sys2Proof.Machine

open Sys2Proof

/-! ### Sparse storage by rising key -/

/-- The value listed under `k`, if any. -/
def sparseGet {α : Type} (k : Nat) : List (Nat × α) → Option α
  | [] => none
  | (j, v) :: rest => if j = k then some v else sparseGet k rest

/-- List `v` under `k`, in place of what stood there, keeping the keys in rising order. -/
def sparseSet {α : Type} (k : Nat) (v : α) : List (Nat × α) → List (Nat × α)
  | [] => [(k, v)]
  | (j, w) :: rest =>
    if k < j then (k, v) :: (j, w) :: rest
    else if k = j then (k, v) :: rest
    else (j, w) :: sparseSet k v rest

/-- The keys rise strictly, from at least `lo` and staying below `bound`. -/
def sparseWf {α : Type} (lo bound : Nat) : List (Nat × α) → Bool
  | [] => true
  | (j, _) :: rest => decide (lo ≤ j) && decide (j < bound) && sparseWf (j + 1) bound rest

/-- The canonical form of a buffer memory of `cap` bytes: offsets strictly rising and below `cap`. -/
def Memory.wf (cap : Nat) (m : Memory) : Bool := sparseWf 0 cap m

/-- The canonical form of a table of `size` entries: indices strictly rising and below `size`. -/
def Table.wf (size : Nat) (t : Table) : Bool := sparseWf 0 size t

/-! ### Buffer memory -/

/-- What buffer offset `a` holds: the byte last written there, or, where nothing was written since
reset, the unknown byte that reset left (10_state R56, U3). -/
def State.bufByte (s : State) (a : Nat) : Byte :=
  (sparseGet a s.buffer).getD (Config.bufferAtReset s.engineId s.epoch a)

/-- `MemWrite(a, n, v)`: byte `v[8k+7:8k]` goes to offset `a + k` for each `k < n` (20_memory R84). -/
def memWrite (a : Nat) (v : Word) : (n : Nat) → Memory → Memory
  | 0, m => m
  | k + 1, m => sparseSet (a + k) (v.extractLsb' (8 * k) 8) (memWrite a v k m)

/-- A host read of `n` bytes at offset `a`: the sum over `k < n` of `byte[a + k] * 2^(8k)`
(20_memory R84). -/
def State.memRead (s : State) (a : Nat) : (n : Nat) → Nat
  | 0 => 0
  | k + 1 => s.memRead a k + (s.bufByte (a + k)).toNat * 2 ^ (8 * k)

/-! ### Gear table and hash -/

/-- `GEAR[b]` (40_rolling_hash R140). -/
def Params.gearAt (p : Params) (b : Byte) : Word := p.gear.getD b.toNat (Config.gear b)

/-- `advance(h, b) = (h <<64 1) +64 GEAR[b]` (40_rolling_hash R143). -/
def advance (p : Params) (h : Word) (b : Byte) : Word := (h <<< 1) + Params.gearAt p b

/-! ### Configuration fields (10_state R35) -/

/-- `N`, the BUF_LEN value (00_scope R14). -/
def State.bufN (s : State) : Nat := s.bufLen.toNat

/-- CFG.WLOG. -/
def State.wlog (s : State) : Nat := (s.cfg.extractLsb' 0 6).toNat

/-- CFG.HLOG. -/
def State.hlog (s : State) : Nat := (s.cfg.extractLsb' 8 6).toNat

/-- CFG.HRL. -/
def State.hrl (s : State) : Nat := (s.cfg.extractLsb' 16 7).toNat

/-- CFG.BMODE. -/
def State.bmode (s : State) : Bool := s.cfg.getLsbD 24

/-- CFG.MINM. -/
def State.minm (s : State) : Nat := (s.cfg.extractLsb' 32 32).toNat

/-- The writable bits of CFG; every other bit is reserved and reads 0 (10_state R35). -/
def cfgMask : Word := 0xFFFFFFFF017F3F3F

/-! ### Boundary test and table key -/

/-- `isBoundary(h)` (41_boundary_detector R160). -/
def State.isBoundary (s : State) (h : Word) : Bool :=
  let rateMask := 2 ^ s.hrl - 1
  let t := h.toNat &&& rateMask
  if s.bmode then t == rateMask else t == 0

/-- `key(h) = h & tableMask` (42_match_table R181). -/
def State.key (s : State) (h : Word) : Nat := h.toNat &&& (2 ^ s.hlog - 1)

/-- `EMPTY`, what TLKP returns for an empty bucket (00_scope R14). -/
def empty : Word := 0xFFFFFFFFFFFFFFFF

/-- `TableRead(k)` (42_match_table R180). -/
def State.tableRead (s : State) (k : Nat) : Option (BitVec 32) := sparseGet k s.table

/-- `TableWrite(k, some(off))` (42_match_table R180). -/
def State.tableWrite (k : Nat) (off : BitVec 32) (s : State) : State :=
  { s with table := sparseSet k off s.table }

/-- `TableWrite(k, none)` for every index of the storage (42_match_table R187, 44_scan_control
R232). -/
def State.tableClear (s : State) : State := { s with table := [] }

/-! ### General registers and FIFO -/

/-- `x[r] <- v` (10_state R30). -/
def State.setReg (r : Reg) (v : Word) (s : State) : State := { s with regs := s.regs.set r v }

/-- FIFO_FULL: `FIFO_COUNT = FIFO_DEPTH` (10_state R38). A push goes through while the count is
below the depth (R52). -/
def State.fifoFull (s : State) : Bool := decide (s.params.fifoDepth ≤ s.fifo.length)

/-- The writes of an accepted candidate once FifoPush goes through: the descriptor at the tail, one
more in MCOUNT, and PREV_END at its end (43_match_emitter R203). -/
def State.push (e : Emission) (s : State) : State :=
  { s with fifo := s.fifo ++ [e.desc], mcount := s.mcount + 1, prevEnd := e.stop }

/-- A host pop (10_state R50): the head goes, if there is one. -/
def State.popHead (s : State) : State :=
  match s.fifo with
  | [] => s
  | d :: rest => { s with fifo := rest, popped := s.popped ++ [d] }

/-! ### Command state -/

/-- STATUS.BUSY: a command is accepted and not complete (10_state R53). -/
def State.busy (s : State) : Bool := s.engine != .idle

/-- STATUS.STALL: the engine holds in FifoPush on a full FIFO (10_state R38, R52). A pop ends it
(R50), and so does the push that follows. -/
def State.stall (s : State) : Bool :=
  match s.engine with
  | .held _ _ => s.fifoFull
  | _ => false

/-- Acceptance of a CMD write (30_encoding R116): BUSY rises and the readback takes bits [31:0]. -/
def State.accept (v : Word) (s : State) : State :=
  { s with engine := .accepted v, cmdReadback := v.extractLsb' 0 32 }

/-- Completion (30_encoding R121): BUSY falls and DONE is set in one step. -/
def State.complete (s : State) : State := { s with engine := .idle, done := true }

/-- FifoPush holds (10_state R52): the engine keeps the descriptor and what is left of the command. -/
def State.hold (e : Emission) (k : Continuation) (s : State) : State := { s with engine := .held e k }

/-- The code of each error (60_exceptions R261). -/
def CmdError.code : CmdError → BitVec 8
  | .illegalCmd => 1
  | .cfgNotValid => 2
  | .hlogRange => 3
  | .wlogRange => 4
  | .minmZero => 5
  | .windowGtBuffer => 6
  | .buflenRange => 7
  | .hrlRange => 8

/-- `raise CmdError(code)`, the block's taking of an exception (60_exceptions R262): ERR and ERRCODE
record the error and the command ends. Its return is `State.clearStatus`. -/
def State.raise (c : CmdError) (s : State) : State :=
  { s with err := true, errCode := c.code, engine := .idle, done := true }

/-- A write to STATUS (10_state R39): a 1 in bits 1, 2, 5 or 6 clears DONE, ERR with ERRCODE, DROP or
BUSERR. Clearing ERR is the recovery from an error (60_exceptions R266). -/
def State.clearStatus (v : Word) (s : State) : State :=
  { s with
    done := s.done && !v.getLsbD 1
    err := s.err && !v.getLsbD 2
    errCode := if v.getLsbD 2 then 0 else s.errCode
    drop := s.drop && !v.getLsbD 5
    busErr := s.busErr && !v.getLsbD 6 }

/-- Check 4 of 30_encoding R117: a command that needs CFG_OK raises CFG_NOT_VALID without it (R119),
and otherwise runs its rule. -/
def State.needCfg (s : State) (rule : Result) : Result :=
  if s.cfgOk then rule else .next (s.raise .cfgNotValid)

/-- The buffer is read only below N, and N must not exceed its size (20_memory R82). -/
def State.needBuffer (s : State) (rule : Result) : Result :=
  if s.bufN ≤ s.params.bufCap then rule else .fault .bufferBeyondCapacity

/-- The table is reached only below 2^HLOG, and that must not exceed its storage (42_match_table
R180). -/
def State.needTable (s : State) (rule : Result) : Result :=
  if s.hlog ≤ s.params.hlogMax then rule else .fault .tableBeyondStorage

/-! ### Counting loops -/

/-- `while p k: k := k + 1` from `k`, with at most `fuel` turns. -/
def countWhile (p : Nat → Bool) : (fuel k : Nat) → Nat
  | 0, k => k
  | fuel + 1, k => if p k then countWhile p fuel (k + 1) else k

/-- The test of `fwdLen`'s loop at `k` (43_match_emitter R200). -/
def State.fwdEq (s : State) (a b k : Nat) : Bool :=
  decide (a + k < s.bufN) && decide (b + k < s.bufN) && s.bufByte (a + k) == s.bufByte (b + k)

/-- `fwdLen(a, b)`: how many bytes from `a` and from `b` on are equal (43_match_emitter R200). `k`
is bounded by N (R207). -/
def State.fwdLen (s : State) (a b : Nat) : Nat := countWhile (s.fwdEq a b) s.bufN 0

/-- The test of `bwdLen`'s loop at `k` (43_match_emitter R201). -/
def State.bwdEq (s : State) (a b lo k : Nat) : Bool :=
  decide (k + 1 ≤ a) && decide (k + 1 + lo ≤ b)
    && decide (a - 1 - k < s.bufN) && decide (b - 1 - k < s.bufN)
    && s.bufByte (a - 1 - k) == s.bufByte (b - 1 - k)

/-- `bwdLen(a, b, lo)`: how many bytes before `a` and before `b` are equal, the second never below
`lo` (43_match_emitter R201). `k` is bounded by `a` (R207). -/
def State.bwdLen (s : State) (a b lo : Nat) : Nat := countWhile (s.bwdEq a b lo) a 0

/-! ### The emitter -/

/-- The pre-checks of `emit`, before any byte is compared (43_match_emitter R203): `true` rejects. -/
def State.emitRejects (s : State) (cand cur : Nat) : Bool :=
  cand == empty.toNat || decide (cur ≤ cand) || decide (s.bufN < cur) || decide (cur < s.prevEnd.toNat)
    || decide (2 ^ s.wlog < cur - cand)

/-- `emit(cand, cur)` up to its FifoPush (43_match_emitter R202, R203): the accepted descriptor and
its end, or `none` for a reject. -/
def State.emit (s : State) (cand cur : Nat) : Option Emission :=
  if s.emitRejects cand cur then none
  else
    let f := s.fwdLen cand cur
    let bk := s.bwdLen cand cur s.prevEnd.toNat
    if f + bk < s.minm then none
    else some
      { desc := ⟨BitVec.ofNat 64 (cand - bk), BitVec.ofNat 64 (cur - bk), BitVec.ofNat 64 (f + bk)⟩
        stop := BitVec.ofNat 64 (cur + f) }

end Sys2Proof.Machine
end

