-- ==== Sys2Proof/Machine/Operands.lean ====
section
/-! DEFINITION. The operand forms (30_encoding R118): a register read whole, as a byte and as an
offset. There are no immediates (R111). -/

namespace Sys2Proof.Machine

open Sys2Proof

/-- `x[r]`, the whole 64-bit value (10_state R30). -/
def State.reg (s : State) (r : Reg) : Word := s.regs[r]

/-- The byte that a register names: bits [7:0], the others ignored (30_encoding R118). -/
def State.byteOperand (s : State) (r : Reg) : Byte := (s.reg r).extractLsb' 0 8

/-- The offset that a register names: its whole value as a natural number (30_encoding R118). -/
def State.offsetOperand (s : State) (r : Reg) : Nat := (s.reg r).toNat

end Sys2Proof.Machine
end

