-- ==== Sys2Proof/Machine/Boundary.lean ====
section
/-! DEFINITION. The content boundary detector's command: BTEST (41_boundary_detector). -/

namespace Sys2Proof.Machine

open Sys2Proof

/-- BTEST rd, rs1 (41_boundary_detector R161): `x[rd]` becomes 1 if `x[rs1]` is a boundary hash and 0
otherwise. The bare test: BCOUNT and CSTART play no part. -/
def execBtest (rd rs1 : Reg) (s : State) : Result :=
  s.needCfg (.next (s.setReg rd (if s.isBoundary (s.reg rs1) then 1 else 0)).complete)

end Sys2Proof.Machine
end

