-- ==== Sys2Proof/Machine/MatchEmitter.lean ====
section
/-! DEFINITION. The match verifier and extender's commands: VFWD, XBWD and MATCH (43_match_emitter). -/

namespace Sys2Proof.Machine

open Sys2Proof

/-- VFWD rd, rs1, rs2 (43_match_emitter R200): `x[rd] <- fwdLen(x[rs1], x[rs2])`. -/
def execVfwd (rd rs1 rs2 : Reg) (s : State) : Result :=
  s.needCfg <| s.needBuffer <|
    .next (s.setReg rd (BitVec.ofNat 64 (s.fwdLen (s.offsetOperand rs1) (s.offsetOperand rs2)))).complete

/-- XBWD rd, rs1, rs2, rs3 (43_match_emitter R201): `x[rd] <- bwdLen(x[rs1], x[rs2], x[rs3])`. -/
def execXbwd (rd rs1 rs2 rs3 : Reg) (s : State) : Result :=
  s.needCfg <| s.needBuffer <|
    .next (s.setReg rd (BitVec.ofNat 64
      (s.bwdLen (s.offsetOperand rs1) (s.offsetOperand rs2) (s.offsetOperand rs3)))).complete

/-- The end of a MATCH that pushed: `x[rd] <- len` (43_match_emitter R204). -/
def State.finishMatch (rd : Reg) (e : Emission) (s : State) : State :=
  ((s.push e).setReg rd e.desc.len).complete

/-- MATCH rd, rs1, rs2 (43_match_emitter R204): emit one candidate. A reject writes 0 to `x[rd]`; an
accepted one is pushed, and the command holds while the FIFO is full (10_state R52). -/
def execMatchEmit (rd rs1 rs2 : Reg) (s : State) : Result :=
  s.needCfg <| s.needBuffer <|
    match s.emit (s.offsetOperand rs1) (s.offsetOperand rs2) with
    | none => .next (s.setReg rd 0).complete
    | some e => if s.fifoFull then .next (s.hold e (.matchResult rd)) else .next (s.finishMatch rd e)

end Sys2Proof.Machine
end

