-- ==== Sys2Proof/Machine/MatchTable.lean ====
section
/-! DEFINITION. The match table's commands: TINS, TLKP and TCLR (42_match_table). -/

namespace Sys2Proof.Machine

open Sys2Proof

/-- TINS rs1, rs2 (42_match_table R182): the bucket of `x[rs1]` takes `some(x[rs2][31:0])`, whatever
it held. -/
def execTins (rs1 rs2 : Reg) (s : State) : Result :=
  s.needCfg <| s.needTable <|
    .next (s.tableWrite (s.key (s.reg rs1)) ((s.reg rs2).extractLsb' 0 32)).complete

/-- TLKP rd, rs1 (42_match_table R183): `x[rd]` takes the bucket's offset, or EMPTY. -/
def execTlkp (rd rs1 : Reg) (s : State) : Result :=
  s.needCfg <| s.needTable <|
    .next (s.setReg rd (match s.tableRead (s.key (s.reg rs1)) with
      | some off => off.setWidth 64
      | none => empty)).complete

/-- TCLR (42_match_table R187): every entry of the storage becomes `none`. Needs no CFG_OK. -/
def execTclr (s : State) : Result := .next s.tableClear.complete

end Sys2Proof.Machine
end

