-- ==== Sys2Proof/Machine/RollingHash.lean ====
section
/-! DEFINITION. The rolling hash engine's commands: GEAR and HADV (40_rolling_hash). Neither needs
CFG_OK, and neither reads or writes HASH. -/

namespace Sys2Proof.Machine

open Sys2Proof

/-- GEAR rd, rs1 (40_rolling_hash R142): `x[rd] <- GEAR[x[rs1][7:0]]`. -/
def execGear (rd rs1 : Reg) (s : State) : Result :=
  .next (s.setReg rd (Params.gearAt s.params (s.byteOperand rs1))).complete

/-- HADV rd, rs1, rs2 (40_rolling_hash R144): `x[rd] <- advance(x[rs1], x[rs2][7:0])`. -/
def execHadv (rd rs1 rs2 : Reg) (s : State) : Result :=
  .next (s.setReg rd (advance s.params (s.reg rs1) (s.byteOperand rs2))).complete

end Sys2Proof.Machine
end

