-- ==== Sys2Proof/Machine/ScanControl.lean ====
section
/-! DEFINITION. Job setup and the scan pipeline: NOP, INIT, STEP and SCAN (44_scan_control). -/

namespace Sys2Proof.Machine

open Sys2Proof

/-- NOP (44_scan_control R230): nothing but completion. -/
def execNop (s : State) : Result := .next s.complete

/-! ### INIT -/

/-- The first configuration check of INIT that fails, in the order of 44_scan_control R232. -/
def State.configError (s : State) : Option CmdError :=
  if s.hlog < s.params.hlogMin ∨ s.params.hlogMax < s.hlog then some .hlogRange
  else if s.wlog < s.params.wlogMin ∨ s.params.wlogMax < s.wlog then some .wlogRange
  else if s.minm = 0 then some .minmZero
  else if s.bufN < 2 ^ s.wlog then some .windowGtBuffer
  else if s.params.bufCap < s.bufN then some .buflenRange
  else if Config.hrlMax < s.hrl then some .hrlRange
  else none

/-- INIT's `fail(code)`: CFG_OK falls and the error is raised (44_scan_control R232). -/
def State.failInit (c : CmdError) (s : State) : State := { s with cfgOk := false }.raise c

/-- The start of a job (44_scan_control R232): scan registers, counters, FIFO and table cleared. -/
def State.startJob (s : State) : State :=
  { s with
    cfgOk := true
    hash := 0
    pos := 0
    cstart := 0
    prevEnd := 0
    eob := false
    fifo := []
    bcount := 0
    hcount := 0
    mcount := 0
    table := [] }

/-- INIT (44_scan_control R232): check the configuration, then start a job. -/
def execInit (s : State) : Result :=
  match s.configError with
  | some c => .next (s.failInit c)
  | none => .next s.startJob.complete

/-! ### STEP_BODY -/

/-- Hash the byte at POS and move past it (44_scan_control R236). -/
def State.hashByte (s : State) : State :=
  { s with hash := advance s.params s.hash (s.bufByte s.pos.toNat), pos := s.pos + 1 }

/-- After byte `i` is hashed: is the position after it a boundary (41_boundary_detector R163)? -/
def State.atBoundary (s : State) (i : Nat) : Bool :=
  decide (s.minm ≤ i - s.cstart.toNat) && s.isBoundary s.hash

/-- The writes at a boundary p = POS (44_scan_control R236): one more in BCOUNT, p into the bucket
of HASH, and the next chunk starts at p. -/
def State.markBoundary (s : State) : State :=
  { s with
    bcount := s.bcount + 1
    table := sparseSet (s.key s.hash) (BitVec.ofNat 32 s.pos.toNat) s.table
    cstart := s.pos }

/-- One more table hit (10_state R48). -/
def State.countHit (s : State) : State := { s with hcount := s.hcount + 1 }

/-- The jump past an accepted match (44_scan_control R236): POS and CSTART at its end, HASH from 0. -/
def State.jumpTo (p : Word) (s : State) : State := { s with pos := p, hash := 0, cstart := p }

/-- EOB rises once POS is N (41_boundary_detector R164). -/
def State.forceClose (s : State) : State := { s with eob := s.eob || s.pos == s.bufLen }

/-- The rest of STEP_BODY once an accepted descriptor is pushed (44_scan_control R236). -/
def State.finishJump (e : Emission) (s : State) : State := ((s.push e).jumpTo e.stop).forceClose

/-- How one STEP_BODY ends: it ran, or it stopped in FifoPush with the given descriptor. -/
inductive BodyEnd where
  | ran (s : State)
  | held (e : Emission) (s : State)
  deriving DecidableEq, Repr

/-- STEP_BODY at a table hit on `c`, with POS at the boundary (44_scan_control R236). -/
def State.bodyAtHit (c : BitVec 32) (s : State) : BodyEnd :=
  match s.emit c.toNat s.pos.toNat with
  | none => .ran s.forceClose
  | some e => if s.fifoFull then .held e s else .ran (s.finishJump e)

/-- STEP_BODY (44_scan_control R236): one byte of the scan. The table is read before it is written
(20_memory R93). -/
def State.stepBody (s : State) : BodyEnd :=
  if s.eob then .ran s
  else if s.bufN ≤ s.pos.toNat then .ran { s with eob := true }
  else if s.hashByte.atBoundary s.pos.toNat then
    match s.hashByte.tableRead (s.hashByte.key s.hashByte.hash) with
    | none => .ran s.hashByte.markBoundary.forceClose
    | some c => s.hashByte.markBoundary.countHit.bodyAtHit c
  else .ran s.hashByte.forceClose

/-- STEP (44_scan_control R236): one STEP_BODY. -/
def execStep (s : State) : Result :=
  s.needCfg <| s.needBuffer <| s.needTable <|
    match s.stepBody with
    | .ran t => .next t.complete
    | .held e t => .next (t.hold e .stepJump)

/-! ### SCAN -/

/-- `while EOB == 0: STEP_BODY` (44_scan_control R238), with at most `fuel` turns. -/
def scanLoop : (fuel : Nat) → State → BodyEnd
  | 0, s => .ran s
  | fuel + 1, s =>
    if s.eob then .ran s
    else match s.stepBody with
      | .ran t => scanLoop fuel t
      | .held e t => .held e t

/-- The loop of SCAN from the present POS. Each turn with EOB = 0 raises POS by at least 1 or sets
EOB (44_scan_control R241), so the turns suffice. -/
def State.scanToEnd (s : State) : BodyEnd := scanLoop (s.bufN - s.pos.toNat + 1) s

/-- SCAN from the present state, to its completion or its next hold (44_scan_control R238). -/
def State.runScan (s : State) : State :=
  match s.scanToEnd with
  | .ran t => t.complete
  | .held e t => t.hold e .scanJump

/-- SCAN (44_scan_control R238): STEP_BODY until EOB. -/
def execScan (s : State) : Result :=
  s.needCfg <| s.needBuffer <| s.needTable <| .next s.runScan

end Sys2Proof.Machine
end

