-- ==== Sys2Proof/Machine/Dispatch.lean ====
section
/-! DEFINITION. The execution of a decoded command (30_encoding R120): one arm per constructor. -/

namespace Sys2Proof.Machine

open Sys2Proof

def exec (i : Instr) (s : State) : Host.Outcome State Fault Refusal :=
  match i with
  | .nop => Sys2Proof.Machine.execNop s
  | .init => Sys2Proof.Machine.execInit s
  | .tclr => Sys2Proof.Machine.execTclr s
  | .scan => Sys2Proof.Machine.execScan s
  | .step => Sys2Proof.Machine.execStep s
  | .gear rd rs1 => Sys2Proof.Machine.execGear rd rs1 s
  | .hadv rd rs1 rs2 => Sys2Proof.Machine.execHadv rd rs1 rs2 s
  | .btest rd rs1 => Sys2Proof.Machine.execBtest rd rs1 s
  | .tins rs1 rs2 => Sys2Proof.Machine.execTins rs1 rs2 s
  | .tlkp rd rs1 => Sys2Proof.Machine.execTlkp rd rs1 s
  | .vfwd rd rs1 rs2 => Sys2Proof.Machine.execVfwd rd rs1 rs2 s
  | .xbwd rd rs1 rs2 rs3 => Sys2Proof.Machine.execXbwd rd rs1 rs2 rs3 s
  | .matchEmit rd rs1 rs2 => Sys2Proof.Machine.execMatchEmit rd rs1 rs2 s

end Sys2Proof.Machine
end

