-- ==== Sys2Proof/Machine/Engine.lean ====
section
/-! DEFINITION. The engine agent (70_reset_and_hazards R320): one step runs the accepted command to
its completion or to its next FifoPush hold, or takes up a held command again. -/

namespace Sys2Proof.Machine

open Sys2Proof

/-- An accepted CMD value runs (30_encoding R117): an illegal value raises ILLEGAL_CMD, a command
runs its rule. -/
def State.runCommand (v : Word) (s : State) : Result :=
  match decodeCmd v with
  | .error _ => .next (s.raise .illegalCmd)
  | .ok i => exec i s

/-- What is left of a command whose held FifoPush now goes through (10_state R52). -/
def State.resume (e : Emission) (k : Continuation) (s : State) : Result :=
  match k with
  | .matchResult rd => .next (s.finishMatch rd e)
  | .stepJump => .next (s.finishJump e).complete
  | .scanJump => s.needBuffer <| s.needTable <| .next (s.finishJump e).runScan

/-- One step of the engine. Idle, it keeps all state (60_exceptions R290). Held on a full FIFO, it
changes nothing (10_state R52). -/
def State.engineStep (s : State) : Result :=
  match s.engine with
  | .idle => .next s
  | .accepted v => s.runCommand v
  | .scanning => s.needBuffer <| s.needTable <| .next s.runScan
  | .finishing => .next s.complete
  | .held e k => if s.fifoFull then .next s else s.resume e k

/-! ### A part of a step -/

/-- One STEP_BODY of a SCAN, which goes on afterwards (44_scan_control R238). -/
def State.scanPart (s : State) : Result :=
  s.needBuffer <| s.needTable <|
    match s.stepBody with
    | .ran t => .next { t with engine := .scanning }
    | .held e t => .next (t.hold e .scanJump)

/-- The outcome `r` of a command that began in `s`, with its completion still to come. An error ends
the command at once (60_exceptions R262), and a hold stays a hold. -/
def State.beforeCompletion (s : State) (r : Result) : Result :=
  match r with
  | .next t =>
    if t.busy || (t.err && !s.err) then .next t
    else .next { t with engine := .finishing, done := s.done }
  | r => r

/-- A part of an engine step: what the engine has done when the host looks in between. Entries become
visible as they are pushed, while BUSY is still 1 (20_memory R92). The rest of the step follows from
the state that it leaves. -/
def State.enginePart (s : State) : Result :=
  match s.engine with
  | .idle => .next s
  | .accepted v =>
    match decodeCmd v with
    | .ok .scan => s.needCfg s.scanPart
    | _ => s.beforeCompletion (s.runCommand v)
  | .scanning => s.scanPart
  | .finishing => .next s.complete
  | .held e k =>
    if s.fifoFull then .next s
    else match k with
      | .scanJump => .next { s.finishJump e with engine := .scanning }
      | k => s.beforeCompletion (s.resume e k)

end Sys2Proof.Machine
end

