-- ==== Sys2Proof/Machine/Flags.lean ====
section
/-! DEFINITION. The flags that are computed and not stored: the interrupt output (10_state R42) and
the STATUS word (R38). The stored sticky bits are fields of `State`. -/

namespace Sys2Proof.Machine

open Sys2Proof

/-- The level of the interrupt output (10_state R42, 60_exceptions R270). -/
def State.irq (s : State) : Bool :=
  (s.done && s.ie.getLsbD 0) || (s.err && s.ie.getLsbD 1)
    || (decide (0 < s.fifo.length) && s.ie.getLsbD 2) || (s.fifoFull && s.ie.getLsbD 3)
    || (s.busErr && s.ie.getLsbD 4)

/-- The number whose bits, from bit 0 up, are the given flags. -/
def bitsToNat : List Bool → Nat
  | [] => 0
  | b :: rest => b.toNat + 2 * bitsToNat rest

/-- The STATUS register (10_state R38), bit 0 first; bits [63:10] are 0. -/
def State.status (s : State) : Word :=
  BitVec.ofNat 64 (bitsToNat
    [s.busy, s.done, s.err, s.cfgOk, s.eob, s.drop, s.busErr, s.fifoFull, s.stall, s.irq])

end Sys2Proof.Machine
end

