-- ==== Sys2Proof/Machine/HostAccess.lean ====
section
/-! DEFINITION. The host agent's accesses: the address map (20_memory R80), the register map (10_state
R31), what each register reads as and what a write to it does, and which accesses are bad (R81,
R83). -/

namespace Sys2Proof.Machine

open Sys2Proof

/-- The registers of the register space (10_state R31). -/
inductive HostReg where
  | id | params | cfg | bufLen | cmd | status | errCode | ie
  | hash | pos | cstart | prevEnd | bcount | hcount | mcount
  | gpr (r : Reg)
  | descSrc | descDst | descLen | descPop | fifoCount
  | reserved
  deriving DecidableEq, Repr

/-- The register at an aligned offset below 0x1000 (10_state R31, R44). -/
def hostRegAt (off : Nat) : HostReg :=
  match off with
  | 0x000 => .id
  | 0x008 => .params
  | 0x010 => .cfg
  | 0x018 => .bufLen
  | 0x020 => .cmd
  | 0x028 => .status
  | 0x030 => .errCode
  | 0x038 => .ie
  | 0x040 => .hash
  | 0x048 => .pos
  | 0x050 => .cstart
  | 0x058 => .prevEnd
  | 0x060 => .bcount
  | 0x068 => .hcount
  | 0x070 => .mcount
  | 0x080 => .gpr 0
  | 0x088 => .gpr 1
  | 0x090 => .gpr 2
  | 0x098 => .gpr 3
  | 0x0A0 => .gpr 4
  | 0x0A8 => .gpr 5
  | 0x0B0 => .gpr 6
  | 0x0B8 => .gpr 7
  | 0x0C0 => .descSrc
  | 0x0C8 => .descDst
  | 0x0D0 => .descLen
  | 0x0D8 => .descPop
  | 0x0E0 => .fifoCount
  | _ => .reserved

/-- Where an access goes. -/
inductive Target where
  /-- a valid access to a register -/
  | register (r : HostReg)
  /-- a valid access to the buffer aperture, at this buffer offset -/
  | aperture (off : Nat)
  /-- an access that is not performed -/
  | bad
  deriving DecidableEq, Repr

/-- The address map and its access rules (20_memory R80, R81, R83). -/
def Params.target (p : Params) (width : Nat) (addr : BitVec 25) : Target :=
  let a := addr.toNat
  if a < 0x1000 then
    if width = 8 ∧ a % 8 = 0 then .register (hostRegAt a) else .bad
  else if a < 0x1000000 then .bad
  else
    let off := a - 0x1000000
    if (width = 1 ∨ width = 2 ∨ width = 4 ∨ width = 8) ∧ off % width = 0 ∧ off + width ≤ p.bufCap
    then .aperture off else .bad

/-- ID (10_state R33). -/
def idValue : Word := 0x00000001484D444C

/-- PARAMS (10_state R34). -/
def Params.word (p : Params) : Word :=
  BitVec.ofNat 64 (p.hlogMin + p.hlogMax * 2 ^ 8 + p.wlogMin * 2 ^ 16 + p.wlogMax * 2 ^ 24
    + p.bufCapLog * 2 ^ 32 + p.fifoDepth * 2 ^ 40)

/-- The registers whose reads are draws while the engine is busy (10_state R58). -/
def HostReg.volatile : HostReg → Bool
  | .hash | .pos | .cstart | .prevEnd | .bcount | .hcount | .mcount | .gpr _ => true
  | _ => false

/-- A field of the FIFO's head, or 0 when the FIFO is empty (10_state R49). -/
def State.head (s : State) (field : Desc → Word) : Word :=
  match s.fifo with
  | [] => 0
  | d :: _ => field d

/-- The value each register holds for a reader (10_state R31 to R51). -/
def State.regValue (s : State) : HostReg → Word
  | .id => idValue
  | .params => Params.word s.params
  | .cfg => s.cfg
  | .bufLen => s.bufLen
  | .cmd => s.cmdReadback.setWidth 64
  | .status => s.status
  | .errCode => s.errCode.setWidth 64
  | .ie => s.ie.setWidth 64
  | .hash => s.hash
  | .pos => s.pos
  | .cstart => s.cstart
  | .prevEnd => s.prevEnd
  | .bcount => s.bcount
  | .hcount => s.hcount
  | .mcount => s.mcount
  | .gpr r => s.reg r
  | .descSrc => s.head Desc.src
  | .descDst => s.head Desc.dst
  | .descLen => s.head Desc.len
  | .descPop => 0
  | .fifoCount => BitVec.ofNat 64 s.fifo.length
  | .reserved => 0

/-- The bus answers; nothing of the block changes. -/
def State.respond (data : Word) (busError : Bool) (s : State) : State :=
  { s with response := ⟨data, busError⟩ }

/-- A read of a register. A read has no side effect on the block (20_memory R88); a read of a
volatile register while busy takes a fresh draw (10_state R58). -/
def State.readReg (r : HostReg) (s : State) : State :=
  if r.volatile && s.busy then
    { s with draws := s.draws + 1, response := ⟨Config.busyRead s.engineId s.draws, false⟩ }
  else s.respond (s.regValue r) false

/-- A write that the block turns away sets DROP and changes nothing else (10_state R57). -/
def State.setDrop (s : State) : State := { s with drop := true }

/-- A write of CFG or BUF_LEN ends the job's configuration (10_state R35, R36). -/
def State.writeCfg (v : Word) (s : State) : State := { s with cfg := v &&& cfgMask, cfgOk := false }

/-- See `State.writeCfg`; all 64 bits are stored (10_state R36). -/
def State.writeBufLen (v : Word) (s : State) : State := { s with bufLen := v, cfgOk := false }

/-- The effect of a write that only an idle engine takes (10_state R57). -/
def State.whenIdle (s t : State) : State := if s.busy then s.setDrop else t

/-- What a write of `v` does to a register (10_state R31, R35 to R41, R50, R57; 30_encoding R116). -/
def State.writeReg (r : HostReg) (v : Word) (s : State) : State :=
  match r with
  | .cfg => s.whenIdle (s.writeCfg v)
  | .bufLen => s.whenIdle (s.writeBufLen v)
  | .cmd => if s.busy || s.err then s.setDrop else s.accept v
  | .status => s.clearStatus v
  | .ie => { s with ie := v.extractLsb' 0 5 }
  | .gpr i => s.whenIdle (s.setReg i v)
  | .descPop => s.popHead
  | .id | .params | .errCode | .hash | .pos | .cstart | .prevEnd | .bcount | .hcount | .mcount => s
  | .descSrc | .descDst | .descLen | .fifoCount | .reserved => s

/-- What a valid write through the aperture does (20_memory R83, R84; 10_state R57). -/
def State.writeBuffer (off width : Nat) (v : Word) (s : State) : State :=
  s.whenIdle { s with buffer := memWrite off v width s.buffer }

/-- A bad access: not performed, a read returns 0, BUSERR is set (20_memory R81, R83). Whether the
bus also answers with an error is the platform's (60_exceptions R265). -/
def State.badAccess (s : State) : State :=
  { s with busErr := true, response := ⟨0, Config.busErrorResponse⟩ }

/-- One host access, complete before the next (20_memory R91). -/
def State.hostAccess (a : Access) (s : State) : State :=
  match a with
  | .read width addr =>
    match Params.target s.params width addr with
    | .register r => s.readReg r
    | .aperture off => s.respond (BitVec.ofNat 64 (s.memRead off width)) false
    | .bad => s.badAccess
  | .write width addr v =>
    match Params.target s.params width addr with
    | .register r => (s.writeReg r v).respond 0 false
    | .aperture off => (s.writeBuffer off width v).respond 0 false
    | .bad => s.badAccess

/-- One turn of the host's `wait` (30_encoding R123): read STATUS; while BUSY reads 1, wait on once
the engine has had its turn. -/
def State.poll (s : State) : State :=
  if s.busy then { s.readReg .status with agenda := .engine :: .wait :: s.agenda }
  else s.readReg .status

/-- Reset (70_reset_and_hazards R300): every element of the block takes its reset value and a command
in progress is abandoned. The buffer's content is unknown anew. -/
def State.hardReset (s : State) : State :=
  { State.resetOf s.params with
    engineId := s.engineId
    epoch := s.epoch + 1
    draws := s.draws
    agenda := s.agenda
    response := s.response }

end Sys2Proof.Machine
end

