-- ==== Sys2Proof/Machine/Step.lean ====
section
/-! DEFINITION. One step of the whole machine: the agents, host and engine, interleaved in the order
that the agenda gives (20_memory R91, 70_reset_and_hazards R320). -/

namespace Sys2Proof.Machine

open Sys2Proof

/-- One step. The agenda says what happens next; once it is empty, the engine runs on (weak fairness,
70_reset_and_hazards R320), and an idle or stuck machine stays as it is. -/
def step (s : State) : Host.Outcome State Fault Refusal :=
  match s.agenda with
  | [] => s.engineStep
  | .engine :: rest => { s with agenda := rest }.engineStep
  | .enginePart :: rest => { s with agenda := rest }.enginePart
  | .host a :: rest => .next ({ s with agenda := rest }.hostAccess a)
  | .wait :: rest => .next { s with agenda := rest }.poll
  | .reset :: rest => .next { s with agenda := rest }.hardReset

/-- `s` with the command word `w`, of `nbits` bits, accepted as the engine's next command (30_encoding
R116), and the engine's turn first on the agenda, so that the next step runs it. There is no fetch
(20_memory R96): this stands for the host's CMD write. -/
def State.withFetchWord (s : State) (nbits w : Nat) : State :=
  { s.accept (BitVec.ofNat 64 (w % 2 ^ nbits)) with
    agenda := match s.agenda with
      | [] => []
      | e :: rest => .engine :: e :: rest }

end Sys2Proof.Machine
end

