-- ==== Sys2Proof/Machine/HostProgram.lean ====
section
/-! DEFINITION. The host programs of 30_encoding R123: each form of the rule expands to events for the
agenda, and a program is their concatenation. -/

namespace Sys2Proof.Machine

open Sys2Proof

/-- `w OFF, V` -/
def progW (off : Nat) (v : Word) : List Event := [.host (.write 8 (BitVec.ofNat 25 off) v)]

/-- `r OFF` -/
def progR (off : Nat) : List Event := [.host (.read 8 (BitVec.ofNat 25 off))]

/-- `wb A, b0 b1 ...` -/
def progWb (a : Nat) : List Byte → List Event
  | [] => []
  | b :: rest => .host (.write 1 (BitVec.ofNat 25 (0x1000000 + a)) (b.setWidth 64)) :: progWb (a + 1) rest

/-- `wbs A, "text"` -/
def progWbs (a : Nat) (text : String) : List Event :=
  progWb a (text.toList.map fun c => BitVec.ofNat 8 c.toNat)

/-- `rx SIZE, OFF` -/
def progRx (size off : Nat) : List Event := [.host (.read size (BitVec.ofNat 25 off))]

/-- `cmd <command>` -/
def progCmd (i : Instr) : List Event := progW 0x020 (encodeCmd i)

/-- `wait` -/
def progWait : List Event := [.wait]

/-- `pop` -/
def progPop : List Event := progW 0x0D8 0

/-- `clrst` -/
def progClrst : List Event := progW 0x028 0x66

/-- The CFG value of `cfg WLOG, HLOG, HRL, BMODE, MINM`. -/
def cfgWord (wlog hlog hrl bmode minm : Nat) : Word :=
  BitVec.ofNat 64 (wlog ||| hlog <<< 8 ||| hrl <<< 16 ||| bmode <<< 24 ||| minm <<< 32)

/-- `cfg WLOG, HLOG, HRL, BMODE, MINM` -/
def progCfg (wlog hlog hrl bmode minm : Nat) : List Event :=
  progW 0x010 (cfgWord wlog hlog hrl bmode minm)

/-- The state from which a host program runs: reset of an engine with parameters `p` (70_reset_and_hazards
R300), with the program as its agenda. -/
def State.started (p : Params) (program : List Event) : State :=
  { State.resetOf p with agenda := program }

end Sys2Proof.Machine
end

