-- ==== Sys2Proof/Safety.lean ====
section
/-! DEFINITION. The terms that claims use: a good descriptor (43_match_emitter R206), the literal spans
of a job (44_scan_control R240), the invariant of the machine, runs and their ends (R245). -/

namespace Sys2Proof.Machine

open Sys2Proof

/-! ### Descriptors and output -/

/-- The offset just past a descriptor's destination. -/
def Desc.stop (d : Desc) : Nat := d.dst.toNat + d.len.toNat

/-- Items 1, 3 and 4 of 43_match_emitter R206: long enough, pointing back, within the window. -/
structure Desc.Shaped (s : State) (d : Desc) : Prop where
  long : s.minm ≤ d.len.toNat
  backward : d.src.toNat < d.dst.toNat
  near : d.dst.toNat - d.src.toNat ≤ 2 ^ s.wlog

/-- Item 2 of 43_match_emitter R206: source and destination hold the same bytes. -/
def Desc.Verified (s : State) (d : Desc) : Prop :=
  ∀ j < d.len.toNat, s.bufByte (d.src.toNat + j) = s.bufByte (d.dst.toNat + j)

/-- Destination ranges in increasing order with no overlap (43_match_emitter R206, item 5). -/
def DestinationsRise (ds : List Desc) : Prop := ds.Pairwise fun d d' => d.stop ≤ d'.dst.toNat

/-- A range of offsets, from its first to just past its last; an empty one is dropped
(44_scan_control R240). -/
def span (lo hi : Nat) : List (Nat × Nat) := if lo < hi then [(lo, hi)] else []

/-- The literal spans from `lo` on: what the destinations of the descriptors leave uncovered up to
`n` (44_scan_control R240). -/
def literalSpans (lo n : Nat) : List Desc → List (Nat × Nat)
  | [] => span lo n
  | d :: rest => span lo d.dst.toNat ++ literalSpans d.stop n rest

/-- The destination ranges of the descriptors. -/
def destinations (ds : List Desc) : List (Nat × Nat) := ds.map fun d => (d.dst.toNat, d.stop)

/-- The descriptors of the job that began at `s`, as of `t`: those popped since, in pop order, and then
those in the FIFO (44_scan_control R240). -/
def jobOutput (s t : State) : List Desc := t.popped.drop s.popped.length ++ t.fifo

/-- How many of the ranges hold offset `a`. -/
def timesCovered (a : Nat) (ranges : List (Nat × Nat)) : Nat :=
  ranges.countP fun r => decide (r.1 ≤ a) && decide (a < r.2)

/-! ### The invariant -/

/-- What holds of the descriptor of a held push: it is good (43_match_emitter R206), lies past
PREV_END and ends where the scan will go on. -/
structure HeldOk (s : State) (e : Emission) (k : Continuation) : Prop where
  cfgOk : s.cfgOk = true
  shaped : e.desc.Shaped s
  verified : e.desc.Verified s
  after : s.prevEnd.toNat ≤ e.desc.dst.toNat
  stop : e.desc.stop = e.stop.toNat
  inside : e.stop.toNat ≤ s.bufN
  scanning : (∀ rd, k ≠ .matchResult rd) → s.eob = false ∧ s.pos.toNat ≤ e.stop.toNat

/-- What holds of the job while CFG_OK = 1: INIT's checks pass (44_scan_control R232), the scan
registers lie inside the buffer (10_state R45), EOB says that POS is N (R53), unless the engine holds
before the jump, the table stays within its active part (42_match_table R189) and the FIFO holds
descriptors of this job (43_match_emitter R206). -/
structure JobOk (s : State) : Prop where
  legal : s.configError = none
  cstart : s.cstart.toNat ≤ s.pos.toNat
  pos : s.pos.toNat ≤ s.bufN
  prevEnd : s.prevEnd.toNat ≤ s.bufN
  ended : s.eob = true → s.pos.toNat = s.bufN
  closed : (∀ e k, s.engine = .held e k → ∃ rd, k = .matchResult rd) →
    s.pos.toNat = s.bufN → s.eob = true
  table : Table.wf (2 ^ s.hlog) s.table = true
  shaped : ∀ d ∈ s.fifo, d.Shaped s
  before : ∀ d ∈ s.fifo, d.stop ≤ s.prevEnd.toNat
  rising : DestinationsRise s.fifo

/-- The invariant of the machine: parameters legal (00_scope R8), reserved bits of CFG zero (10_state
R35), an error code exactly while ERR = 1 and never a reserved one (R40, 60_exceptions R261), the
FIFO within its depth (R51), memory and table in canonical form, the job and a held push sound, and a
SCAN under way only in a job. -/
structure State.Inv (s : State) : Prop where
  params : s.params.wf = true
  cfgReserved : s.cfg &&& cfgMask = s.cfg
  noError : s.err = false → s.errCode = 0
  someError : s.err = true → 1 ≤ s.errCode.toNat ∧ s.errCode.toNat ≤ 8
  fifo : s.fifo.length ≤ s.params.fifoDepth
  buffer : Memory.wf s.params.bufCap s.buffer = true
  table : Table.wf s.params.tableSize s.table = true
  job : s.cfgOk = true → JobOk s
  held : ∀ e k, s.engine = .held e k → HeldOk s e k
  scanning : s.engine = .scanning → s.cfgOk = true

/-! ### Commands -/

/-- The register that a command's RD field names (10_state R30, 30_encoding R113). -/
def destReg : Instr → Option Reg
  | .gear rd _ | .hadv rd _ _ | .btest rd _ | .tlkp rd _ => some rd
  | .vfwd rd _ _ | .xbwd rd _ _ _ | .matchEmit rd _ _ => some rd
  | .nop | .init | .tclr | .scan | .step | .tins _ _ => none

/-- The column "needs CFG_OK" of 30_encoding R113. -/
def needsCfgOk : Instr → Bool
  | .scan | .step | .btest _ _ | .tins _ _ | .tlkp _ _ => true
  | .vfwd _ _ _ | .xbwd _ _ _ _ | .matchEmit _ _ _ => true
  | .nop | .init | .tclr | .gear _ _ | .hadv _ _ _ => false

/-- `n` STEP commands, one after the other. -/
def stepCommands : (n : Nat) → State → Result
  | 0, s => .next s
  | n + 1, s =>
    match exec .step s with
    | .next t => stepCommands n t
    | r => r

/-- The hash after bytes are advanced one by one from `h` (40_rolling_hash R145). -/
def hashBytes (p : Params) (h : Word) (bytes : List Byte) : Word := bytes.foldl (advance p) h

/-! ### Host accesses -/

/-- A valid access to the buffer aperture: `width` bytes at buffer offset `off` (20_memory R80, R83). -/
structure ApertureAccess (p : Params) (width : Nat) (addr : BitVec 25) (off : Nat) : Prop where
  legalWidth : width = 1 ∨ width = 2 ∨ width = 4 ∨ width = 8
  aligned : width ∣ off
  inside : off + width ≤ p.bufCap
  address : addr.toNat = 0x1000000 + off

/-- The events that can end a hold: a write of DESC_POP (10_state R50, R52) and a reset
(70_reset_and_hazards R300). -/
def Event.endsHold : Event → Bool
  | .host (.write width addr _) => width == 8 && addr == 0x0D8
  | .host (.read _ _) | .wait | .engine | .enginePart => false
  | .reset => true

/-- The engine's turns, one for each number, with that many host pops before each: "however it pops"
(44_scan_control R243). -/
def popsAndTurns : (pops : List Nat) → State → Result
  | [], s => .next s
  | n :: rest, s =>
    match (State.popHead^[n] s).engineStep with
    | .next t => popsAndTurns rest t
    | r => r

/-! ### Runs -/

/-- `t` is reached from `s` by steps of the machine. -/
inductive Reaches : State → State → Prop where
  | refl (s : State) : Reaches s s
  | step {s t u : State} (h : Reaches s t) (hstep : step t = .next u) : Reaches s u

/-- `t` is reached from `s` within one job (44_scan_control R231): by steps of the machine, whatever
the host does between them, up to the next INIT or reset. -/
inductive InJob : State → State → Prop where
  | refl (s : State) : InJob s s
  | step {s t u : State} (h : InJob s t) (hinit : t.engine ≠ .accepted (encodeCmd .init))
      (hreset : t.agenda.head? ≠ some .reset) (hstep : step t = .next u) : InJob s u

/-- `s` occurs in a run: from reset of an engine with legal parameters, under some host and some
interleaving (44_scan_control R245, 70_reset_and_hazards R320). -/
def Reachable (s : State) : Prop :=
  ∃ (p : Params) (program : List Event), p.wf = true ∧ Reaches (State.started p program) s

/-- The host's own actions: its accesses and its wait, which is made of reads (30_encoding R123). -/
def Event.isHostAction : Event → Bool
  | .host _ | .wait => true
  | .engine | .enginePart | .reset => false

/-- The host has no further action in this run (44_scan_control R245). Turns left to the engine are no
host actions, and what stands behind a reset belongs to the next run (log entry 14). -/
def State.hostDone (s : State) : Bool :=
  (s.agenda.takeWhile (· != .reset)).all (! ·.isHostAction)

/-- The two conditions of 44_scan_control R245: no further host action, and BUSY = 0. -/
def State.atEnd (s : State) : Bool := s.hostDone && !s.busy

/-- `t` is the end of the run from `s`: the first state that meets both conditions of 44_scan_control
R245. A run that a reset cuts short before that has no end. -/
def EndOfRun (s t : State) : Prop :=
  t.atEnd = true ∧ ∃ n, Host.Core.run Sys2Proof.core n s = .next t ∧
    ∀ m < n, ∀ u : State, Host.Core.run Sys2Proof.core m s = .next u →
      u.atEnd = false ∧ u.agenda.head? ≠ some .reset

/-- ERR = 0, DROP = 0 and BUSERR = 0: no fault of the host protocol was recorded (44_scan_control
R245). -/
def State.clean (s : State) : Bool := !s.err && !s.drop && !s.busErr

/-- The observation of a run at its end (44_scan_control R245). -/
structure Observation where
  /-- the descriptors popped, in pop order, and then those left in the FIFO -/
  output : List Desc
  /-- the registers that the host reads in the end state, each with its value -/
  registers : List (HostReg × Word)
  err : Bool
  errCode : BitVec 8
  drop : Bool
  busErr : Bool
  deriving DecidableEq, Repr

/-- What is observed of a run that ends in `s`, by a host that reads the registers `reads` there
(44_scan_control R245). BUSY is 0 there, so no read is a draw. -/
def State.observation (s : State) (reads : List HostReg) : Observation where
  output := s.popped ++ s.fifo
  registers := reads.map fun r => (r, s.regValue r)
  err := s.err
  errCode := s.errCode
  drop := s.drop
  busErr := s.busErr

end Sys2Proof.Machine
end

