-- ==== Sys2Proof/Certificates/Slice0/Obligations.lean ====
section
/-! DEFINITION. The statements for the provers. Each names the rules of the spec it formalises; what
rests on a choice of the model says so and names the log entry. Every next state is written out as an
update of the state before, so that it says what stays as well as what changes. -/

open Sys2Proof Sys2Proof.Machine

/-! ### Encoding -/

/-- 30_encoding R111 to R113, R124: each command has exactly one CMD value, and that value decodes to
it. -/
def Obligations.DecodeInvertsEncode : Prop :=
  ∀ (v : Word) (i : Instr), decodeCmd v = .ok i ↔ v = encodeCmd i

/-- 30_encoding R115: a CMD value is a command exactly if bits [63:32] are 0, its OP is assigned and
every must-be-0 field is 0; any other raises ILLEGAL_CMD; NOP is the all-zero value alone. -/
def Obligations.IllegalEncodingsAreExactlyThese : Prop :=
  ∀ (v : Word),
    ((∃ i, decodeCmd v = .ok i) ↔
      v.extractLsb' 32 32 = 0 ∧ (Fields.ofWord (v.extractLsb' 0 32)).wellFormed = true) ∧
    ((¬∃ i, decodeCmd v = .ok i) → ∀ s : State,
      s.runCommand v = .next { s with err := true, errCode := 1, engine := .idle, done := true }) ∧
    (decodeCmd v = .ok .nop ↔ v = 0)

/-- 30_encoding R124: the encoding function as a sum of shifted fields, each unused field 0. -/
def Obligations.EncodingJoinsShiftedFields : Prop :=
  (∀ i : Instr,
    (encode i).toNat = i.fields.op.toNat ||| i.fields.rd.toNat <<< 8 ||| i.fields.rs1.toNat <<< 11
      ||| i.fields.rs2.toNat <<< 14 ||| i.fields.rs3.toNat <<< 17 ∧
    i.wellFormed = true) ∧
  encode (.hadv 2 0 1) = 0x00004211

/-- The command words that the spec's examples give, one for each command (30_encoding R124 and the
examples of the command rules). -/
def Obligations.SpecWordsDecode : Prop :=
  decodeCmd 0x00000000 = .ok .nop ∧ decodeCmd 0x00000001 = .ok .init ∧
  decodeCmd 0x00000002 = .ok .tclr ∧ decodeCmd 0x00000003 = .ok .scan ∧
  decodeCmd 0x00000004 = .ok .step ∧ decodeCmd 0x00000110 = .ok (.gear 1 0) ∧
  decodeCmd 0x00004211 = .ok (.hadv 2 0 1) ∧ decodeCmd 0x00000112 = .ok (.btest 1 0) ∧
  decodeCmd 0x00004013 = .ok (.tins 0 1) ∧ decodeCmd 0x00001314 = .ok (.tlkp 3 2) ∧
  decodeCmd 0x00004215 = .ok (.vfwd 2 0 1) ∧ decodeCmd 0x00044316 = .ok (.xbwd 3 0 1 2) ∧
  decodeCmd 0x00004217 = .ok (.matchEmit 2 0 1)

/-- 30_encoding R120, 70_reset_and_hazards R320: when the engine has its turn, by the agenda or because
the host has nothing more to do, the accepted value runs as the command it decodes to. That turns come
from an agenda is the model's choice (log entry 5). -/
def Obligations.StepRunsDecodedCommand : Prop :=
  ∀ (s : State) (v : Word) (i : Instr), s.engine = .accepted v → decodeCmd v = .ok i →
    (s.agenda = [] → step s = exec i s) ∧
    (∀ rest, s.agenda = .engine :: rest → step s = exec i { s with agenda := rest })

/-! ### Rolling hash -/

/-- 40_rolling_hash R143: the advance function, as arithmetic modulo 2^64. -/
def Obligations.AdvanceShiftsAndAdds : Prop :=
  ∀ (p : Params) (h : Word) (b : Byte),
    (advance p h b).toNat = ((h.toNat * 2 ^ 1) % 2 ^ 64 + (Params.gearAt p b).toNat) % 2 ^ 64

/-- 40_rolling_hash R142: GEAR completes from every state, writes the table entry of the low byte of
`x[rs1]` to `x[rd]` and changes nothing else. -/
def Obligations.GearWritesTableEntry : Prop :=
  ∀ (rd rs1 : Reg) (s : State),
    exec (.gear rd rs1) s = .next { s with
      regs := s.regs.set rd (Params.gearAt s.params (BitVec.ofNat 8 ((s.reg rs1).toNat % 2 ^ 8)))
      engine := .idle, done := true }

/-- 40_rolling_hash R144: HADV completes from every state, writes the advanced hash to `x[rd]`, from
sources read first, and changes nothing else; HASH is not touched. -/
def Obligations.HadvAdvancesOperand : Prop :=
  ∀ (rd rs1 rs2 : Reg) (s : State),
    exec (.hadv rd rs1 rs2) s = .next { s with
      regs := s.regs.set rd (BitVec.ofNat 64 (2 * (s.reg rs1).toNat
        + (Params.gearAt s.params (BitVec.ofNat 8 ((s.reg rs2).toNat % 2 ^ 8))).toNat))
      engine := .idle, done := true }

/-- 40_rolling_hash R145: the closed form of the hash of a byte sequence from 0. -/
def Obligations.HashHasClosedForm : Prop :=
  ∀ (p : Params) (bytes : List Byte),
    (hashBytes p 0 bytes).toNat =
      (∑ i ∈ Finset.range bytes.length,
        (Params.gearAt p (bytes.getD i 0)).toNat * 2 ^ (bytes.length - 1 - i)) % 2 ^ 64

/-- 40_rolling_hash R146: after 64 bytes, neither the start value nor any earlier byte matters. -/
def Obligations.HashWindowIs64Bytes : Prop :=
  ∀ (p : Params) (h h' : Word) (before before' recent : List Byte), 64 ≤ recent.length →
    hashBytes p h (before ++ recent) = hashBytes p h' (before' ++ recent)

/-- 40_rolling_hash R147: bits [k:0] of the hash depend only on the k + 1 most recent bytes. -/
def Obligations.LowHashBitsAreLocal : Prop :=
  ∀ (p : Params) (h h' : Word) (before before' recent : List Byte) (j : Nat), j < recent.length →
    (hashBytes p h (before ++ recent)).getLsbD j = (hashBytes p h' (before' ++ recent)).getLsbD j

/-! ### Boundary detector -/

/-- 41_boundary_detector R160, R161: with CFG_OK, BTEST completes and writes 1 or 0 to `x[rd]`: in mode
0, 1 exactly if the low HRL bits of `x[rs1]` are all 0; in mode 1, exactly if they are all 1. Nothing
else changes. -/
def Obligations.BtestReadsLowBits : Prop :=
  ∀ (rd rs1 : Reg) (s : State), s.cfgOk = true →
    ∃ b : Bool,
      exec (.btest rd rs1) s = .next { s with
        regs := s.regs.set rd (if b then 1 else 0), engine := .idle, done := true } ∧
      (s.bmode = false → (b = true ↔ ∀ k < s.hrl, (s.reg rs1).getLsbD k = false)) ∧
      (s.bmode = true → (b = true ↔ ∀ k < s.hrl, (s.reg rs1).getLsbD k = true))

/-! ### Match table -/

/-- 42_match_table R181: the bucket is the key's low HLOG bits; keys that agree there share it. -/
def Obligations.KeyIsLowHlogBits : Prop :=
  ∀ (s : State) (h : Word),
    s.key h = h.toNat &&& (2 ^ s.hlog - 1) ∧ s.key h = h.toNat % 2 ^ s.hlog ∧
    ∀ h' : Word, (∀ k < s.hlog, h.getLsbD k = h'.getLsbD k) → s.key h = s.key h'

/-- 42_match_table R182: TINS completes, overwrites the bucket of `x[rs1]` with the low 32 bits of
`x[rs2]`, leaves every other bucket alone, and changes nothing but the table. -/
def Obligations.TinsOverwritesOneBucket : Prop :=
  ∀ (rs1 rs2 : Reg) (s : State), s.cfgOk = true → s.hlog ≤ s.params.hlogMax →
    ∃ t : State, exec (.tins rs1 rs2) s = .next t ∧
      t = { s with table := t.table, engine := .idle, done := true } ∧
      ∀ k, t.tableRead k =
        if k = (s.reg rs1).toNat % 2 ^ s.hlog then some (BitVec.ofNat 32 ((s.reg rs2).toNat % 2 ^ 32))
        else s.tableRead k

/-- 42_match_table R183: TLKP completes and writes the bucket's offset, zero-extended, or EMPTY to
`x[rd]`; an offset is never EMPTY; nothing else changes, the table included. -/
def Obligations.TlkpReturnsBucketOrEmpty : Prop :=
  ∀ (rd rs1 : Reg) (s : State), s.cfgOk = true → s.hlog ≤ s.params.hlogMax →
    ∃ v : Word,
      exec (.tlkp rd rs1) s = .next { s with
        regs := s.regs.set rd v, engine := .idle, done := true } ∧
      (s.tableRead ((s.reg rs1).toNat % 2 ^ s.hlog) = none ↔ v = 0xFFFFFFFFFFFFFFFF) ∧
      (∀ off, s.tableRead ((s.reg rs1).toNat % 2 ^ s.hlog) = some off → v.toNat = off.toNat)

/-- 42_match_table R187: TCLR completes from every state and empties the whole storage; nothing else
changes. -/
def Obligations.TclrEmptiesTable : Prop :=
  ∀ s : State, ∃ t : State, exec .tclr s = .next t ∧
    t = { s with table := t.table, engine := .idle, done := true } ∧ ∀ k, t.tableRead k = none

/-- 42_match_table R185: an entry once filled stays filled under every command but TCLR and INIT. -/
def Obligations.FilledBucketsStayFilled : Prop :=
  ∀ (i : Instr) (s t : State) (k : Nat), i ≠ .tclr → i ≠ .init → exec i s = .next t →
    s.tableRead k ≠ none → t.tableRead k ≠ none

/-! ### Match verifier and emitter -/

/-- 43_match_emitter R200: VFWD completes and writes to `x[rd]` the number of equal bytes forward: the
first k at which a range reaches N or the bytes differ. Nothing else changes. -/
def Obligations.VfwdCountsEqualBytesForward : Prop :=
  ∀ (rd rs1 rs2 : Reg) (s : State), s.cfgOk = true → s.bufN ≤ s.params.bufCap →
    let a := (s.reg rs1).toNat
    let b := (s.reg rs2).toNat
    ∃ n : Nat,
      exec (.vfwd rd rs1 rs2) s = .next { s with
        regs := s.regs.set rd (BitVec.ofNat 64 n), engine := .idle, done := true } ∧
      n ≤ s.bufN - max a b ∧
      (∀ k < n, a + k < s.bufN ∧ b + k < s.bufN ∧ s.bufByte (a + k) = s.bufByte (b + k)) ∧
      ¬(a + n < s.bufN ∧ b + n < s.bufN ∧ s.bufByte (a + n) = s.bufByte (b + n))

/-- 43_match_emitter R201: XBWD completes and writes to `x[rd]` the number of equal bytes backward: the
first k at which the source would pass offset 0, the destination would pass `x[rs3]`, a byte would lie
at or beyond N, or the bytes differ. Nothing else changes. -/
def Obligations.XbwdCountsEqualBytesBackward : Prop :=
  ∀ (rd rs1 rs2 rs3 : Reg) (s : State), s.cfgOk = true → s.bufN ≤ s.params.bufCap →
    let a := (s.reg rs1).toNat
    let b := (s.reg rs2).toNat
    let lo := (s.reg rs3).toNat
    ∃ n : Nat,
      exec (.xbwd rd rs1 rs2 rs3) s = .next { s with
        regs := s.regs.set rd (BitVec.ofNat 64 n), engine := .idle, done := true } ∧
      n ≤ min a (b - lo) ∧
      (∀ k < n, a - 1 - k < s.bufN ∧ b - 1 - k < s.bufN ∧
        s.bufByte (a - 1 - k) = s.bufByte (b - 1 - k)) ∧
      ¬(n + 1 ≤ a ∧ n + 1 + lo ≤ b ∧ a - 1 - n < s.bufN ∧ b - 1 - n < s.bufN ∧
        s.bufByte (a - 1 - n) = s.bufByte (b - 1 - n))

/-- 43_match_emitter R203, R204: MATCH on a candidate that a pre-check or the length test rejects
completes with 0 in `x[rd]` and changes nothing else. -/
def Obligations.MatchRejectsBadCandidate : Prop :=
  ∀ (rd rs1 rs2 : Reg) (s : State), s.cfgOk = true → s.bufN ≤ s.params.bufCap →
    let cand := (s.reg rs1).toNat
    let cur := (s.reg rs2).toNat
    (s.reg rs1 = 0xFFFFFFFFFFFFFFFF ∨ cur ≤ cand ∨ s.bufN < cur ∨ cur < s.prevEnd.toNat ∨
      2 ^ s.wlog < cur - cand ∨
      s.fwdLen cand cur + s.bwdLen cand cur s.prevEnd.toNat < s.minm) →
    exec (.matchEmit rd rs1 rs2) s = .next { s with
      regs := s.regs.set rd 0, engine := .idle, done := true }

/-- 43_match_emitter R202 to R204: MATCH on an accepted candidate, with room in the FIFO, pushes the
descriptor, counts it, moves PREV_END to its end and writes its length to `x[rd]`; with the FIFO full
it holds, BUSY and STALL reading 1, and changes nothing else (10_state R52). -/
def Obligations.MatchEmitsOrHolds : Prop :=
  ∀ (rd rs1 rs2 : Reg) (s : State), s.cfgOk = true → s.bufN ≤ s.params.bufCap →
    let cand := (s.reg rs1).toNat
    let cur := (s.reg rs2).toNat
    let f := s.fwdLen cand cur
    let bk := s.bwdLen cand cur s.prevEnd.toNat
    let d : Desc := ⟨BitVec.ofNat 64 (cand - bk), BitVec.ofNat 64 (cur - bk), BitVec.ofNat 64 (f + bk)⟩
    s.reg rs1 ≠ 0xFFFFFFFFFFFFFFFF → cand < cur → cur ≤ s.bufN → s.prevEnd.toNat ≤ cur →
    cur - cand ≤ 2 ^ s.wlog → s.minm ≤ f + bk →
    (s.fifo.length < s.params.fifoDepth →
      exec (.matchEmit rd rs1 rs2) s = .next { s with
        fifo := s.fifo ++ [d], mcount := s.mcount + 1, prevEnd := BitVec.ofNat 64 (cur + f)
        regs := s.regs.set rd d.len, engine := .idle, done := true }) ∧
    (s.params.fifoDepth ≤ s.fifo.length → ∃ t : State,
      exec (.matchEmit rd rs1 rs2) s = .next t ∧ t = { s with engine := t.engine } ∧
      t.busy = true ∧ t.stall = true)

/-- 43_match_emitter R206: every descriptor that a command other than INIT pushes, in a turn of the
engine or in a part of one, its hold taken up included, is long enough, verifies, points back, lies within
the window, starts at or after the PREV_END before it, ends inside the buffer, and the last one's end is
the new PREV_END. Descriptors are appended in order and nothing leaves the FIFO. What is said of whole
turns is the rule's; that a turn also has parts is the model's reading of 20_memory R92 (log entry 12). -/
def Obligations.PushedDescriptorsAreGood : Prop :=
  ∀ s t : State, s.Inv → s.engine ≠ .accepted (encodeCmd .init) →
    (s.engineStep = .next t ∨ s.enginePart = .next t) →
    ∃ pushed : List Desc, t.fifo = s.fifo ++ pushed ∧
      (∀ d ∈ pushed, d.Shaped s ∧ d.Verified s ∧ s.prevEnd.toNat ≤ d.dst.toNat ∧ d.stop ≤ s.bufN) ∧
      DestinationsRise pushed ∧
      t.prevEnd.toNat = (pushed.getLast?.map Desc.stop).getD s.prevEnd.toNat

/-! ### Scan control -/

/-- 44_scan_control R230: NOP completes from every state and changes nothing else. -/
def Obligations.NopOnlyCompletes : Prop :=
  ∀ s : State, exec .nop s = .next { s with engine := .idle, done := true }

/-- 44_scan_control R232, 60_exceptions R261, R263: INIT reports the first check that fails, in the
rule's order, clears CFG_OK, and changes nothing else. -/
def Obligations.InitReportsFirstFailure : Prop :=
  ∀ s : State,
    let hlogBad := s.hlog < s.params.hlogMin ∨ s.params.hlogMax < s.hlog
    let wlogBad := s.wlog < s.params.wlogMin ∨ s.params.wlogMax < s.wlog
    let minmBad := s.minm = 0
    let windowBad := s.bufN < 2 ^ s.wlog
    let bufferBad := 2 ^ s.params.bufCapLog < s.bufN
    let rateBad := 64 < s.hrl
    let failed := fun code : BitVec 8 => Host.Outcome.next (φ := Fault) (ρ := Refusal) { s with
      cfgOk := false, err := true, errCode := code, engine := .idle, done := true }
    (hlogBad → exec .init s = failed 3) ∧
    (¬hlogBad → wlogBad → exec .init s = failed 4) ∧
    (¬hlogBad → ¬wlogBad → minmBad → exec .init s = failed 5) ∧
    (¬hlogBad → ¬wlogBad → ¬minmBad → windowBad → exec .init s = failed 6) ∧
    (¬hlogBad → ¬wlogBad → ¬minmBad → ¬windowBad → bufferBad → exec .init s = failed 7) ∧
    (¬hlogBad → ¬wlogBad → ¬minmBad → ¬windowBad → ¬bufferBad → rateBad → exec .init s = failed 8)

/-- 44_scan_control R232: INIT with a legal configuration completes and starts a job: scan registers,
counters and EOB at 0, the FIFO and the table empty; nothing else changes but CFG_OK. -/
def Obligations.InitStartsJob : Prop :=
  ∀ s : State, s.params.hlogMin ≤ s.hlog → s.hlog ≤ s.params.hlogMax →
    s.params.wlogMin ≤ s.wlog → s.wlog ≤ s.params.wlogMax → s.minm ≠ 0 → 2 ^ s.wlog ≤ s.bufN →
    s.bufN ≤ 2 ^ s.params.bufCapLog → s.hrl ≤ 64 →
    ∃ t : State, exec .init s = .next t ∧
      t = { s with
        cfgOk := true, hash := 0, pos := 0, cstart := 0, prevEnd := 0, eob := false, fifo := []
        bcount := 0, hcount := 0, mcount := 0, table := t.table, engine := .idle, done := true } ∧
      ∀ k, t.tableRead k = none

/-- 44_scan_control R236, R238: with EOB = 1, STEP and SCAN complete with no change. -/
def Obligations.ScanEndsAtEndOfBuffer : Prop :=
  ∀ s : State, s.cfgOk = true → s.bufN ≤ s.params.bufCap → s.hlog ≤ s.params.hlogMax →
    s.eob = true →
    exec .step s = .next { s with engine := .idle, done := true } ∧
    exec .scan s = .next { s with engine := .idle, done := true }

/-- 44_scan_control R236, 41_boundary_detector R163, R164: a STEP whose byte makes no boundary hashes
the byte, moves POS past it, closes the last chunk if that was the last byte, and changes nothing
else. -/
def Obligations.StepWithoutBoundary : Prop :=
  ∀ s : State, s.cfgOk = true → s.bufN ≤ s.params.bufCap → s.hlog ≤ s.params.hlogMax →
    s.eob = false → s.pos.toNat < s.bufN →
    let i := s.pos.toNat
    let h := advance s.params s.hash (s.bufByte i)
    (i - s.cstart.toNat < s.minm ∨ s.isBoundary h = false) →
    exec .step s = .next { s with
      hash := h, pos := BitVec.ofNat 64 (i + 1), eob := decide (i + 1 = s.bufN)
      engine := .idle, done := true }

/-- 44_scan_control R236: a STEP that finds a boundary p with an empty bucket, or with a candidate that
the emitter rejects, counts the boundary (and the hit), puts p into the bucket, starts the next chunk
at p and scans on at p. -/
def Obligations.StepAtBoundaryWithoutMatch : Prop :=
  ∀ s : State, s.cfgOk = true → s.bufN ≤ s.params.bufCap → s.hlog ≤ s.params.hlogMax →
    s.eob = false → s.pos.toNat < s.bufN →
    let i := s.pos.toNat
    let h := advance s.params s.hash (s.bufByte i)
    let entry := s.tableRead (s.key h)
    s.minm ≤ i - s.cstart.toNat → s.isBoundary h = true →
    (∀ c, entry = some c → s.emit c.toNat (i + 1) = none) →
    exec .step s = .next { s with
      hash := h, pos := BitVec.ofNat 64 (i + 1), cstart := BitVec.ofNat 64 (i + 1)
      bcount := s.bcount + 1, hcount := s.hcount + (if entry.isSome then 1 else 0)
      table := sparseSet (s.key h) (BitVec.ofNat 32 (i + 1)) s.table
      eob := decide (i + 1 = s.bufN), engine := .idle, done := true }

/-- 44_scan_control R236: a STEP whose boundary hits a candidate that the emitter accepts. With room in
the FIFO it pushes the descriptor and jumps past the match, the hash restarting from 0; the bucket
holds p all the same. With the FIFO full it holds before the push (10_state R52). -/
def Obligations.StepAtMatchJumpsOrHolds : Prop :=
  ∀ (s : State) (c : BitVec 32) (e : Emission), s.cfgOk = true → s.bufN ≤ s.params.bufCap →
    s.hlog ≤ s.params.hlogMax → s.eob = false → s.pos.toNat < s.bufN →
    let i := s.pos.toNat
    let h := advance s.params s.hash (s.bufByte i)
    s.minm ≤ i - s.cstart.toNat → s.isBoundary h = true → s.tableRead (s.key h) = some c →
    s.emit c.toNat (i + 1) = some e →
    (s.fifo.length < s.params.fifoDepth →
      exec .step s = .next { s with
        hash := 0, pos := e.stop, cstart := e.stop, prevEnd := e.stop
        bcount := s.bcount + 1, hcount := s.hcount + 1, mcount := s.mcount + 1
        fifo := s.fifo ++ [e.desc]
        table := sparseSet (s.key h) (BitVec.ofNat 32 (i + 1)) s.table
        eob := decide (e.stop.toNat = s.bufN), engine := .idle, done := true }) ∧
    (s.params.fifoDepth ≤ s.fifo.length → ∃ t : State,
      exec .step s = .next t ∧ t.busy = true ∧ t.stall = true ∧
      t = { s with
        hash := h, pos := BitVec.ofNat 64 (i + 1), cstart := BitVec.ofNat 64 (i + 1)
        bcount := s.bcount + 1, hcount := s.hcount + 1
        table := sparseSet (s.key h) (BitVec.ofNat 32 (i + 1)) s.table, engine := t.engine })

/-- 44_scan_control R241: a STEP with EOB = 0 raises POS by at least 1 and never above N. -/
def Obligations.StepRaisesPosWithinBuffer : Prop :=
  ∀ s t : State, s.Inv → s.cfgOk = true → s.eob = false → (∀ e k, s.engine ≠ .held e k) →
    exec .step s = .next t → s.pos.toNat < t.pos.toNat ∧ t.pos.toNat ≤ s.bufN

/-- 44_scan_control R238, R241: SCAN always answers; it ends with EOB = 1 and POS = N, or it holds on a
full FIFO. With room for one descriptor per MINM + 1 bytes and one more, it completes. It changes only
the scan state, the FIFO and the table. -/
def Obligations.ScanRunsToEndOrHolds : Prop :=
  ∀ s : State, s.Inv → s.cfgOk = true →
    ∃ t : State, exec .scan s = .next t ∧
      (t.busy = true → t.stall = true) ∧
      (t.busy = false → t.eob = true ∧ t.pos.toNat = s.bufN ∧ t.done = true) ∧
      (s.fifo.length + 1 + (s.bufN - s.pos.toNat) / (s.minm + 1) ≤ s.params.fifoDepth →
        t.busy = false) ∧
      t = { s with
        hash := t.hash, pos := t.pos, cstart := t.cstart, prevEnd := t.prevEnd, bcount := t.bcount
        hcount := t.hcount, mcount := t.mcount, fifo := t.fifo, table := t.table, eob := t.eob
        engine := t.engine, done := t.done }

/-- 44_scan_control R238: a SCAN that completes ends in the state that a sequence of STEPs ends in, at
most one for each byte that is left. -/
def Obligations.ScanEqualsSteps : Prop :=
  ∀ s t : State, s.Inv → s.cfgOk = true → exec .scan s = .next t → t.busy = false →
    ∃ n, 1 ≤ n ∧ n ≤ max 1 (s.bufN - s.pos.toNat) ∧ stepCommands n s = .next t

/-- 44_scan_control R240, R242: the literal spans and the destinations of the job's descriptors cover
offsets 0 to N - 1, each exactly once, and nothing else. First for one SCAN command that completes, and
then for every state of a job, the end of a SCAN or of a sequence of STEPs among them, with holds, pops
and any other host accesses in between: the job's descriptors are then those popped since it began and
those in the FIFO, and the tail literal starts at PREV_END. A job begins with an empty FIFO and PREV_END
= 0, as INIT leaves them; its list of popped descriptors is the model's own (log entry 15). -/
def Obligations.ScanCoversEachByteOnce : Prop :=
  (∀ s t : State, s.Inv → s.cfgOk = true → s.fifo = [] → s.prevEnd = 0 →
    exec .scan s = .next t → t.busy = false →
    ∀ a, timesCovered a (literalSpans 0 s.bufN t.fifo ++ destinations t.fifo) =
      if a < s.bufN then 1 else 0) ∧
  (∀ s t : State, s.Inv → s.cfgOk = true → s.fifo = [] → s.prevEnd = 0 →
    InJob s t → t.cfgOk = true →
    (∀ a, timesCovered a
        (literalSpans 0 t.bufN (jobOutput s t) ++ destinations (jobOutput s t)) =
      if a < t.bufN then 1 else 0) ∧
    ((jobOutput s t).getLast?.map Desc.stop).getD 0 = t.prevEnd.toNat)

/-- 44_scan_control R243, 20_memory R82, R94: INIT then SCAN is determined by CFG, N and the bytes below
N: two engines that agree on these get the same descriptors, the same scan state and the same table,
whatever else their states hold. -/
def Obligations.ScanIsDeterminedByInput : Prop :=
  ∀ s s' t t' u u' : State, s.params = s'.params → s.cfg = s'.cfg → s.bufLen = s'.bufLen →
    (∀ a < s.bufN, s.bufByte a = s'.bufByte a) →
    exec .init s = .next t → t.cfgOk = true → exec .init s' = .next t' →
    exec .scan t = .next u → exec .scan t' = .next u' →
    u.fifo = u'.fifo ∧ u.hash = u'.hash ∧ u.pos = u'.pos ∧ u.cstart = u'.cstart ∧
    u.prevEnd = u'.prevEnd ∧ u.bcount = u'.bcount ∧ u.hcount = u'.hcount ∧ u.mcount = u'.mcount ∧
    u.eob = u'.eob ∧ u.table = u'.table ∧ u.engine = u'.engine

/-- 44_scan_control R244: the primitive commands between STEPs change no scan state; TINS and TCLR
change the table alone; MATCH changes the FIFO, MCOUNT and PREV_END alone. -/
def Obligations.PrimitivesKeepScanState : Prop :=
  ∀ (i : Instr) (s t : State), i ≠ .init → i ≠ .step → i ≠ .scan → exec i s = .next t →
    t.cfgOk = s.cfgOk ∧ t.eob = s.eob ∧ t.hash = s.hash ∧ t.pos = s.pos ∧ t.cstart = s.cstart ∧
    t.bcount = s.bcount ∧ t.hcount = s.hcount ∧
    ((∀ rd rs1 rs2, i ≠ .matchEmit rd rs1 rs2) →
      t.prevEnd = s.prevEnd ∧ t.mcount = s.mcount ∧ t.fifo = s.fifo) ∧
    ((∀ rs1 rs2, i ≠ .tins rs1 rs2) → i ≠ .tclr → t.table = s.table)

/-! ### The hold on a full FIFO -/

/-- 10_state R52, 44_scan_control R243, 70_reset_and_hazards R312: a hold changes no value. First: a pop
and the engine's next turn lead to the state that the command reaches, to its end or its next hold, when
that descriptor is popped beforehand. Then, for every FIFO, an empty one too: take the same engine with a
FIFO so deep that the command never holds. However the host pops between the engine's turns, the
descriptors popped and queued are at all times the first ones of the deep FIFO's; once the command is
complete they are the same, and every other element is the same too; and a host that pops once before
each turn brings it there. -/
def Obligations.HoldChangesNoResult : Prop :=
  (∀ (i : Instr) (s h : State), s.Inv → s.fifo ≠ [] → exec i s = .next h → h.stall = true →
    h.popHead.engineStep = exec i s.popHead) ∧
  (∀ (i : Instr) (s h : State) (depth : Nat), s.Inv → s.params.fifoDepth ≤ depth →
    s.fifo.length + s.bufN < depth → exec i s = .next h →
    ∃ u : State,
      exec i { s with params := { s.params with fifoDepth := depth } } = .next u ∧ u.busy = false ∧
      (∀ (pops : List Nat) (t : State), popsAndTurns pops h = .next t →
        t.popped ++ t.fifo <+: u.popped ++ u.fifo ∧
        (t.busy = false →
          t.popped ++ t.fifo = u.popped ++ u.fifo ∧
          t = { u with params := s.params, fifo := t.fifo, popped := t.popped })) ∧
      ∃ n, n ≤ s.bufN ∧ ∃ t : State,
        popsAndTurns (List.replicate n 1) h = .next t ∧ t.busy = false)

/-- 20_memory R92, R94: the host may look between the parts of an engine's turn, and nothing depends on
it. The rest of the turn leads where the whole turn leads; and a part that pushes shows one more
descriptor at the tail while BUSY is still 1. That a turn may be cut at these places is the model's
reading of R92 (log entry 12). -/
def Obligations.PartsOfATurnChangeNoResult : Prop :=
  ∀ s t : State, s.Inv → s.enginePart = .next t →
    t.engineStep = s.engineStep ∧
    (s.engine ≠ .accepted (encodeCmd .init) → t.fifo ≠ s.fifo →
      t.busy = true ∧ ∃ d, t.fifo = s.fifo ++ [d])

/-- 10_state R52, 70_reset_and_hazards R312: the hold is lifted only by a host pop. Whatever comes first
on the agenda, but a DESC_POP write or a reset, and so for any number of steps under an agenda without
them: STALL, BUSY, the FIFO and the held push stay as they are. A host that only waits for BUSY = 0 waits
forever. That the machine then takes steps without change is the model's form of "stuck" (log entry
6). -/
def Obligations.UnpoppedHoldIsStuck : Prop :=
  ∀ s : State, s.stall = true →
    ((∀ e ∈ s.agenda.head?, e.endsHold = false) → ∃ t : State, step s = .next t ∧
      t.stall = true ∧ t.busy = true ∧ t.fifo = s.fifo ∧ t.engine = s.engine) ∧
    ((∀ e ∈ s.agenda, e.endsHold = false) → ∀ n, ∃ t : State,
      Host.Core.run Sys2Proof.core n s = .next t ∧
      t.stall = true ∧ t.busy = true ∧ t.fifo = s.fifo ∧ t.engine = s.engine) ∧
    (s.agenda = [] → step s = .next s) ∧
    (s.agenda = [.wait] → ∀ n, ∃ t : State, Host.Core.run Sys2Proof.core n s = .next t ∧
      t.stall = true ∧ t.busy = true ∧ t.fifo = s.fifo ∧ t.agenda ≠ [])

/-! ### Errors -/

/-- 30_encoding R119: the eight commands that need CFG_OK raise CFG_NOT_VALID without it and change
nothing else; the other five never raise it. -/
def Obligations.CfgOkGatesEightCommands : Prop :=
  (∀ (i : Instr) (s : State), needsCfgOk i = true → s.cfgOk = false →
    exec i s = .next { s with err := true, errCode := 2, engine := .idle, done := true }) ∧
  (∀ (i : Instr) (s t : State), needsCfgOk i = false → s.errCode = 0 → exec i s = .next t →
    t.errCode ≠ 2)

/-- 60_exceptions R262, R263: a command that ends with an error records one of the eight codes and
leaves everything else as it was at acceptance, except that INIT clears CFG_OK. -/
def Obligations.ErrorsArePrecise : Prop :=
  ∀ (i : Instr) (s t : State), s.err = false → exec i s = .next t → t.err = true →
    t = { s with
      err := true, errCode := t.errCode, cfgOk := t.cfgOk, engine := .idle, done := true } ∧
    1 ≤ t.errCode.toNat ∧ t.errCode.toNat ≤ 8 ∧
    (i ≠ .init → t.cfgOk = s.cfgOk) ∧ (i = .init → t.cfgOk = false)

/-- 10_state R39, 60_exceptions R266: a write to STATUS clears exactly the sticky bits written as 1;
clearing ERR sets ERRCODE to 0 and restores nothing else; BUSY does not matter and DROP is not set. -/
def Obligations.StatusWriteClearsStickyBits : Prop :=
  ∀ (s : State) (v : Word),
    s.hostAccess (.write 8 0x028 v) = { s with
      done := if v.getLsbD 1 then false else s.done
      err := if v.getLsbD 2 then false else s.err
      errCode := if v.getLsbD 2 then 0 else s.errCode
      drop := if v.getLsbD 5 then false else s.drop
      busErr := if v.getLsbD 6 then false else s.busErr
      response := ⟨0, false⟩ }

/-! ### Frames of all commands -/

/-- 30_encoding R120, 20_memory R82: no command writes the buffer, CFG, BUF_LEN, IE, the CMD readback,
DROP, BUSERR or the host's side of the run. -/
def Obligations.CommandsKeepTheirInputs : Prop :=
  ∀ (i : Instr) (s t : State), exec i s = .next t →
    (∀ a, t.bufByte a = s.bufByte a) ∧ t.buffer = s.buffer ∧ t.engineId = s.engineId ∧ t.epoch = s.epoch ∧
    t.params = s.params ∧ t.cfg = s.cfg ∧ t.bufLen = s.bufLen ∧ t.ie = s.ie ∧
    t.cmdReadback = s.cmdReadback ∧ t.drop = s.drop ∧ t.busErr = s.busErr ∧
    t.agenda = s.agenda ∧ t.draws = s.draws ∧ t.response = s.response ∧ t.popped = s.popped

/-- 10_state R30: a command writes no general register but the one its RD field names. -/
def Obligations.CommandsWriteOnlyRd : Prop :=
  ∀ (i : Instr) (s t : State) (r : Reg), exec i s = .next t → destReg i ≠ some r →
    t.reg r = s.reg r

/-- 30_encoding R121: a command that has not stopped in a hold leaves BUSY = 0 and DONE = 1. -/
def Obligations.CommandsCompleteOrHold : Prop :=
  ∀ (i : Instr) (s t : State), exec i s = .next t →
    (t.engine = .idle ∧ t.done = true) ∨ (t.stall = true ∧ t.done = s.done)

/-! ### Host accesses -/

/-- 30_encoding R116: a write to CMD is accepted while BUSY = 0 and ERR = 0: BUSY rises, the readback
takes bits [31:0] and nothing else of the block changes. Otherwise it is dropped: only DROP is set. -/
def Obligations.CmdWriteIsAcceptedOrDropped : Prop :=
  ∀ (s : State) (v : Word),
    (s.busy = false → s.err = false → ∃ t : State,
      s.hostAccess (.write 8 0x020 v) = t ∧ t.busy = true ∧
      t = { s with
        engine := .accepted v, cmdReadback := v.extractLsb' 0 32, response := ⟨0, false⟩ }) ∧
    (s.busy = true ∨ s.err = true →
      s.hostAccess (.write 8 0x020 v) = { s with drop := true, response := ⟨0, false⟩ })

/-- 10_state R31, R57: while BUSY = 1, a valid write to CFG, BUF_LEN, CMD, a general register or the
aperture sets DROP and changes nothing else of the block. A write to a read-only or reserved register
changes nothing, busy or not. -/
def Obligations.BusyWritesAreDropped : Prop :=
  ∀ (s : State) (v : Word),
    (s.busy = true →
      (∀ addr ∈ ([0x010, 0x018, 0x020] : List (BitVec 25)),
        s.hostAccess (.write 8 addr v) = { s with drop := true, response := ⟨0, false⟩ }) ∧
      (∀ r : Reg, s.hostAccess (.write 8 (BitVec.ofNat 25 (0x080 + 8 * r.val)) v) =
        { s with drop := true, response := ⟨0, false⟩ }) ∧
      ∀ width addr off, ApertureAccess s.params width addr off →
        s.hostAccess (.write width addr v) = { s with drop := true, response := ⟨0, false⟩ }) ∧
    (∀ addr : BitVec 25,
      addr ∈ ([0x000, 0x008, 0x030, 0x040, 0x048, 0x050, 0x058, 0x060, 0x068, 0x070, 0x078, 0x0C0,
        0x0C8, 0x0D0, 0x0E0] : List (BitVec 25)) ∨
        (0x0E8 ≤ addr.toNat ∧ addr.toNat < 0x1000 ∧ 8 ∣ addr.toNat) →
      s.hostAccess (.write 8 addr v) = { s with response := ⟨0, false⟩ })

/-- 10_state R30, R35, R36, R41, 70_reset_and_hazards R313: what an idle engine stores for a write to
CFG (reserved bits 0, CFG_OK cleared), BUF_LEN (CFG_OK cleared), IE (five bits, busy or not) and Ri. -/
def Obligations.RegisterWritesStore : Prop :=
  ∀ (s : State) (v : Word),
    (s.busy = false →
      s.hostAccess (.write 8 0x010 v) =
        { s with cfg := v &&& 0xFFFFFFFF017F3F3F, cfgOk := false, response := ⟨0, false⟩ } ∧
      s.hostAccess (.write 8 0x018 v) =
        { s with bufLen := v, cfgOk := false, response := ⟨0, false⟩ } ∧
      ∀ r : Reg, s.hostAccess (.write 8 (BitVec.ofNat 25 (0x080 + 8 * r.val)) v) =
        { s with regs := s.regs.set r v, response := ⟨0, false⟩ }) ∧
    s.hostAccess (.write 8 0x038 v) =
      { s with ie := BitVec.ofNat 5 v.toNat, response := ⟨0, false⟩ }

/-- 20_memory R81, R83: a register access that is not 8 bytes wide and aligned, an access to an unmapped
range, and an aperture access of another width, misaligned or past BUF_CAP are not performed: only
BUSERR is set, and a read returns 0. Whether the bus answers with an error is an open parameter (log
entry 9); that a bad write sets no DROP while BUSY = 1 is the model's reading (log entry 10). -/
def Obligations.BadAccessesSetBuserr : Prop :=
  ∀ (s : State) (width : Nat) (addr : BitVec 25) (v : Word),
    (addr.toNat < 0x1000 ∧ ¬(width = 8 ∧ 8 ∣ addr.toNat)) ∨
    (0x1000 ≤ addr.toNat ∧ addr.toNat < 0x1000000) ∨
    (0x1000000 ≤ addr.toNat ∧
      ¬(width ∈ [1, 2, 4, 8] ∧ width ∣ (addr.toNat - 0x1000000) ∧
        addr.toNat - 0x1000000 + width ≤ s.params.bufCap)) →
    s.hostAccess (.read width addr) =
      { s with busErr := true, response := ⟨0, Config.busErrorResponse⟩ } ∧
    s.hostAccess (.write width addr v) =
      { s with busErr := true, response := ⟨0, Config.busErrorResponse⟩ }

/-- 20_memory R84, at every access that R80 and R83 call valid: address 0x01000000 + a is buffer offset a,
and every access of 1, 2, 4 or 8 bytes, aligned and below BUF_CAP, is performed. The aperture is
little-endian: an idle engine's write of n bytes at a stores byte `v[8k+7:8k]` at a + k and nothing else,
and a read returns the sum of `byte[a + k] * 2^(8k)` and changes nothing. -/
def Obligations.ApertureIsLittleEndian : Prop :=
  ∀ (s : State) (width : Nat) (addr : BitVec 25) (v : Word) (off : Nat),
    (width = 1 ∨ width = 2 ∨ width = 4 ∨ width = 8) → width ∣ off → off + width ≤ s.params.bufCap →
    addr.toNat = 0x1000000 + off →
    (s.busy = false → ∃ t : State, s.hostAccess (.write width addr v) = t ∧
      t = { s with buffer := t.buffer, response := ⟨0, false⟩ } ∧
      (∀ k < width, t.bufByte (off + k) = v.extractLsb' (8 * k) 8) ∧
      ∀ a, a < off ∨ off + width ≤ a → t.bufByte a = s.bufByte a) ∧
    ∃ data : Word, s.hostAccess (.read width addr) = { s with response := ⟨data, false⟩ } ∧
      data.toNat = ∑ k ∈ Finset.range width, (s.bufByte (off + k)).toNat * 2 ^ (8 * k)

/-- 10_state R31, R58, 20_memory R88: a valid read changes nothing of the block. At its offset each
register reads its own value. While BUSY = 1 the general registers, the scan registers and the counters,
and no others, return a fresh draw, which is a free value (log entry 2). A read of the aperture returns
data without any other effect, busy or not. -/
def Obligations.ReadsChangeNothing : Prop :=
  ∀ s : State,
    (∀ row ∈ ([(0x000, 0x00000001484D444C), (0x008, Params.word s.params), (0x010, s.cfg),
        (0x018, s.bufLen), (0x020, s.cmdReadback.setWidth 64), (0x028, s.status),
        (0x030, s.errCode.setWidth 64), (0x038, s.ie.setWidth 64), (0x078, 0),
        (0x0C0, (s.fifo.head?.map Desc.src).getD 0), (0x0C8, (s.fifo.head?.map Desc.dst).getD 0),
        (0x0D0, (s.fifo.head?.map Desc.len).getD 0), (0x0D8, 0),
        (0x0E0, BitVec.ofNat 64 s.fifo.length)] : List (BitVec 25 × Word)),
      s.hostAccess (.read 8 row.1) = { s with response := ⟨row.2, false⟩ }) ∧
    (∀ addr : BitVec 25, 0x0E8 ≤ addr.toNat → addr.toNat < 0x1000 → 8 ∣ addr.toNat →
      s.hostAccess (.read 8 addr) = { s with response := ⟨0, false⟩ }) ∧
    (∀ row ∈ ([(0x040, s.hash), (0x048, s.pos), (0x050, s.cstart), (0x058, s.prevEnd),
        (0x060, s.bcount), (0x068, s.hcount), (0x070, s.mcount), (0x080, s.reg 0), (0x088, s.reg 1),
        (0x090, s.reg 2), (0x098, s.reg 3), (0x0A0, s.reg 4), (0x0A8, s.reg 5), (0x0B0, s.reg 6),
        (0x0B8, s.reg 7)] : List (BitVec 25 × Word)),
      (s.busy = false → s.hostAccess (.read 8 row.1) = { s with response := ⟨row.2, false⟩ }) ∧
      (s.busy = true → s.hostAccess (.read 8 row.1) =
        { s with draws := s.draws + 1, response := ⟨Config.busyRead s.engineId s.draws, false⟩ })) ∧
    (∀ width addr off, ApertureAccess s.params width addr off →
      ∃ data : Word, s.hostAccess (.read width addr) = { s with response := ⟨data, false⟩ })

/-- 10_state R33, R34: ID always reads its constant, and PARAMS reports the six parameters of an engine
with legal parameters; this hardware's value is the one the rule gives. -/
def Obligations.IdentificationReads : Prop :=
  (∀ s : State, (s.hostAccess (.read 8 0x000)).response.data = 0x00000001484D444C) ∧
  (∀ s : State, s.params.wf = true →
    let w := (s.hostAccess (.read 8 0x008)).response.data.toNat
    w % 2 ^ 6 = s.params.hlogMin ∧ w / 2 ^ 8 % 2 ^ 6 = s.params.hlogMax ∧
    w / 2 ^ 16 % 2 ^ 6 = s.params.wlogMin ∧ w / 2 ^ 24 % 2 ^ 6 = s.params.wlogMax ∧
    w / 2 ^ 32 % 2 ^ 6 = s.params.bufCapLog ∧ w / 2 ^ 40 % 2 ^ 8 = s.params.fifoDepth ∧
    w &&& 0x0000FF3F3F3F3F3F = w) ∧
  (State.reset.hostAccess (.read 8 0x008)).response.data = 0x0000101414041404

/-- 10_state R38, R42: each bit of STATUS reads its flag, IRQ reads the formula of R42, and bits [63:10]
read 0. -/
def Obligations.StatusReadsItsFlags : Prop :=
  ∀ s : State,
    let w := (s.hostAccess (.read 8 0x028)).response.data
    let count := s.fifo.length
    w.getLsbD 0 = s.busy ∧ w.getLsbD 1 = s.done ∧ w.getLsbD 2 = s.err ∧ w.getLsbD 3 = s.cfgOk ∧
    w.getLsbD 4 = s.eob ∧ w.getLsbD 5 = s.drop ∧ w.getLsbD 6 = s.busErr ∧
    (w.getLsbD 7 = true ↔ s.params.fifoDepth ≤ count) ∧ w.getLsbD 8 = s.stall ∧
    (w.getLsbD 9 = true ↔
      (s.done = true ∧ s.ie.getLsbD 0 = true) ∨ (s.err = true ∧ s.ie.getLsbD 1 = true) ∨
      (0 < count ∧ s.ie.getLsbD 2 = true) ∨
      (s.params.fifoDepth ≤ count ∧ s.ie.getLsbD 3 = true) ∨
      (s.busErr = true ∧ s.ie.getLsbD 4 = true)) ∧
    ∀ k, 10 ≤ k → w.getLsbD k = false

/-- 10_state R49 to R51: a write to DESC_POP takes the head off the FIFO, or does nothing if it is
empty, busy or not; the DESC registers read the head's fields or 0, and FIFO_COUNT the length. That a pop
under a hold leaves just the tail, the held descriptor following with the engine's next turn, is the
model's reading of R50 and R52 (log entry 8), and the list of popped descriptors is its own (log entry
15). -/
def Obligations.DescriptorsReadAndPop : Prop :=
  ∀ (s : State) (v : Word), s.Inv →
    (s.hostAccess (.write 8 0x0D8 v)).fifo = s.fifo.tail ∧
    (s.hostAccess (.write 8 0x0D8 v)) = { s with
      fifo := s.fifo.tail, popped := s.popped ++ s.fifo.take 1, response := ⟨0, false⟩ } ∧
    (s.hostAccess (.read 8 0x0C0)).response.data = (s.fifo.head?.map Desc.src).getD 0 ∧
    (s.hostAccess (.read 8 0x0C8)).response.data = (s.fifo.head?.map Desc.dst).getD 0 ∧
    (s.hostAccess (.read 8 0x0D0)).response.data = (s.fifo.head?.map Desc.len).getD 0 ∧
    (s.hostAccess (.read 8 0x0E0)).response.data.toNat = s.fifo.length

/-! ### Reset -/

/-- 70_reset_and_hazards R300: reset takes every register, flag and counter to 0 and empties the FIFO,
at power-on and at any time later; a command in progress is abandoned. The table's content is
unspecified and is not stated. -/
def Obligations.ResetZeroesEveryRegister : Prop :=
  (∀ s : State, s.params.wf = true →
    ∃ t : State, step { s with agenda := [.reset] } = .next t ∧ t.params = s.params ∧
    (∀ r, t.reg r = 0) ∧ t.cfg = 0 ∧ t.bufLen = 0 ∧ t.cmdReadback = 0 ∧ t.status = 0 ∧
    t.errCode = 0 ∧ t.ie = 0 ∧ t.irq = false ∧ t.engine = .idle ∧ t.hash = 0 ∧ t.pos = 0 ∧
    t.cstart = 0 ∧ t.prevEnd = 0 ∧ t.bcount = 0 ∧ t.hcount = 0 ∧ t.mcount = 0 ∧ t.fifo = []) ∧
  (∀ r, State.reset.reg r = 0) ∧ State.reset.status = 0 ∧ State.reset.cfg = 0 ∧
  State.reset.bufLen = 0 ∧ State.reset.cmdReadback = 0 ∧ State.reset.errCode = 0 ∧
  State.reset.ie = 0 ∧ State.reset.hash = 0 ∧ State.reset.pos = 0 ∧ State.reset.cstart = 0 ∧
  State.reset.prevEnd = 0 ∧ State.reset.bcount = 0 ∧ State.reset.hcount = 0 ∧
  State.reset.mcount = 0 ∧ State.reset.fifo = []

/-- 70_reset_and_hazards R301: after reset exactly NOP, INIT, TCLR, GEAR and HADV can run; the other
commands raise CFG_NOT_VALID, and INIT fails with HLOG_RANGE. -/
def Obligations.AfterResetFiveCommandsRun : Prop :=
  State.reset.cfgOk = false ∧
  (∀ i : Instr, ∃ t : State, exec i State.reset = .next t ∧
    (t.errCode = 2 ↔ i ∉ [.nop, .init, .tclr] ∧ (∀ rd rs1, i ≠ .gear rd rs1) ∧
      ∀ rd rs1 rs2, i ≠ .hadv rd rs1 rs2) ∧
    (t.errCode = 3 ↔ i = .init) ∧ (t.err = true ↔ t.errCode ≠ 0))

/-! ### The whole machine -/

/-- The invariant holds at reset (00_scope R8, 70_reset_and_hazards R300). -/
def Obligations.ResetMeetsInvariant : Prop := State.reset.Inv

/-- Every step, of the engine, of the host or of reset, keeps the invariant: 00_scope R8, 10_state R35,
R40, R45, R51, 42_match_table R189, 43_match_emitter R206, 44_scan_control R232. -/
def Obligations.StepKeepsInvariant : Prop :=
  ∀ s t : State, s.Inv → step s = .next t → t.Inv

/-- 60_exceptions R260, R264, 43_match_emitter R207: under the invariant no step stops with a fault or a
refusal, whatever the host does. -/
def Obligations.StepNeverStops : Prop :=
  ∀ s : State, s.Inv → ∃ t : State, step s = .next t

/-- The model's two faults (log entry 7): with BUF_LEN above BUF_CAP or HLOG above HLOG_MAX, which
CFG_OK = 1 rules out (20_memory R82, 42_match_table R180), a command that would reach outside its
memory stops by name. -/
def Obligations.UncheckedConfigurationFaults : Prop :=
  ∀ (s : State) (rd rs1 rs2 rs3 : Reg), s.cfgOk = true →
    (s.params.bufCap < s.bufN →
      exec (.vfwd rd rs1 rs2) s = .fault .bufferBeyondCapacity ∧
      exec (.xbwd rd rs1 rs2 rs3) s = .fault .bufferBeyondCapacity ∧
      exec (.matchEmit rd rs1 rs2) s = .fault .bufferBeyondCapacity ∧
      exec .step s = .fault .bufferBeyondCapacity ∧ exec .scan s = .fault .bufferBeyondCapacity) ∧
    (s.params.hlogMax < s.hlog →
      exec (.tins rs1 rs2) s = .fault .tableBeyondStorage ∧
      exec (.tlkp rd rs1) s = .fault .tableBeyondStorage ∧
      (s.bufN ≤ s.params.bufCap →
        exec .step s = .fault .tableBeyondStorage ∧ exec .scan s = .fault .tableBeyondStorage))

/-! ### Runs -/

/-- 44_scan_control R245: a run has at most one end. In it nothing moves any more, turns of the engine
included, and the observation stays, whatever registers it names; a read of a register there answers the
value that the observation gives it. The agenda's form is the model's choice (log entry 5). -/
def Obligations.EndOfRunIsFinal : Prop :=
  (∀ s t t' : State, EndOfRun s t → EndOfRun s t' → t = t') ∧
  (∀ s : State, s.atEnd = true → s.agenda.head? ≠ some .reset →
    ∃ t : State, step s = .next t ∧ t = { s with agenda := s.agenda.tail } ∧ t.atEnd = true ∧
      ∀ reads, t.observation reads = s.observation reads) ∧
  (∀ (s : State) (width : Nat) (addr : BitVec 25) (r : HostReg), s.atEnd = true →
    Params.target s.params width addr = .register r →
    (s.observation [r]).registers = [(r, (s.hostAccess (.read width addr)).response.data)])
end

