-- ==== Sys2Proof/Laws/State.lean ====
section
/-! SUPPORT. One lemma per field of `State` per named update: what the update leaves alone and what it
writes. All hold by `rfl` and are simp lemmas, so that no proof unfolds a record update. -/

namespace Sys2Proof.Machine

open Sys2Proof

/-! ### `State.setReg` -/

@[simp] theorem State.setReg_params (s : State) (r : Reg) (v : Word) :
    (s.setReg r v).params = s.params := rfl
@[simp] theorem State.setReg_regs (s : State) (r : Reg) (v : Word) :
    (s.setReg r v).regs = s.regs.set r v := rfl
@[simp] theorem State.setReg_cfg (s : State) (r : Reg) (v : Word) :
    (s.setReg r v).cfg = s.cfg := rfl
@[simp] theorem State.setReg_bufLen (s : State) (r : Reg) (v : Word) :
    (s.setReg r v).bufLen = s.bufLen := rfl
@[simp] theorem State.setReg_cmdReadback (s : State) (r : Reg) (v : Word) :
    (s.setReg r v).cmdReadback = s.cmdReadback := rfl
@[simp] theorem State.setReg_done (s : State) (r : Reg) (v : Word) :
    (s.setReg r v).done = s.done := rfl
@[simp] theorem State.setReg_err (s : State) (r : Reg) (v : Word) :
    (s.setReg r v).err = s.err := rfl
@[simp] theorem State.setReg_drop (s : State) (r : Reg) (v : Word) :
    (s.setReg r v).drop = s.drop := rfl
@[simp] theorem State.setReg_busErr (s : State) (r : Reg) (v : Word) :
    (s.setReg r v).busErr = s.busErr := rfl
@[simp] theorem State.setReg_errCode (s : State) (r : Reg) (v : Word) :
    (s.setReg r v).errCode = s.errCode := rfl
@[simp] theorem State.setReg_ie (s : State) (r : Reg) (v : Word) :
    (s.setReg r v).ie = s.ie := rfl
@[simp] theorem State.setReg_cfgOk (s : State) (r : Reg) (v : Word) :
    (s.setReg r v).cfgOk = s.cfgOk := rfl
@[simp] theorem State.setReg_eob (s : State) (r : Reg) (v : Word) :
    (s.setReg r v).eob = s.eob := rfl
@[simp] theorem State.setReg_engine (s : State) (r : Reg) (v : Word) :
    (s.setReg r v).engine = s.engine := rfl
@[simp] theorem State.setReg_hash (s : State) (r : Reg) (v : Word) :
    (s.setReg r v).hash = s.hash := rfl
@[simp] theorem State.setReg_pos (s : State) (r : Reg) (v : Word) :
    (s.setReg r v).pos = s.pos := rfl
@[simp] theorem State.setReg_cstart (s : State) (r : Reg) (v : Word) :
    (s.setReg r v).cstart = s.cstart := rfl
@[simp] theorem State.setReg_prevEnd (s : State) (r : Reg) (v : Word) :
    (s.setReg r v).prevEnd = s.prevEnd := rfl
@[simp] theorem State.setReg_bcount (s : State) (r : Reg) (v : Word) :
    (s.setReg r v).bcount = s.bcount := rfl
@[simp] theorem State.setReg_hcount (s : State) (r : Reg) (v : Word) :
    (s.setReg r v).hcount = s.hcount := rfl
@[simp] theorem State.setReg_mcount (s : State) (r : Reg) (v : Word) :
    (s.setReg r v).mcount = s.mcount := rfl
@[simp] theorem State.setReg_fifo (s : State) (r : Reg) (v : Word) :
    (s.setReg r v).fifo = s.fifo := rfl
@[simp] theorem State.setReg_table (s : State) (r : Reg) (v : Word) :
    (s.setReg r v).table = s.table := rfl
@[simp] theorem State.setReg_buffer (s : State) (r : Reg) (v : Word) :
    (s.setReg r v).buffer = s.buffer := rfl
@[simp] theorem State.setReg_engineId (s : State) (r : Reg) (v : Word) :
    (s.setReg r v).engineId = s.engineId := rfl
@[simp] theorem State.setReg_epoch (s : State) (r : Reg) (v : Word) :
    (s.setReg r v).epoch = s.epoch := rfl
@[simp] theorem State.setReg_draws (s : State) (r : Reg) (v : Word) :
    (s.setReg r v).draws = s.draws := rfl
@[simp] theorem State.setReg_agenda (s : State) (r : Reg) (v : Word) :
    (s.setReg r v).agenda = s.agenda := rfl
@[simp] theorem State.setReg_response (s : State) (r : Reg) (v : Word) :
    (s.setReg r v).response = s.response := rfl
@[simp] theorem State.setReg_popped (s : State) (r : Reg) (v : Word) :
    (s.setReg r v).popped = s.popped := rfl

/-! ### `State.tableWrite` -/

@[simp] theorem State.tableWrite_params (s : State) (k : Nat) (off : BitVec 32) :
    (s.tableWrite k off).params = s.params := rfl
@[simp] theorem State.tableWrite_regs (s : State) (k : Nat) (off : BitVec 32) :
    (s.tableWrite k off).regs = s.regs := rfl
@[simp] theorem State.tableWrite_cfg (s : State) (k : Nat) (off : BitVec 32) :
    (s.tableWrite k off).cfg = s.cfg := rfl
@[simp] theorem State.tableWrite_bufLen (s : State) (k : Nat) (off : BitVec 32) :
    (s.tableWrite k off).bufLen = s.bufLen := rfl
@[simp] theorem State.tableWrite_cmdReadback (s : State) (k : Nat) (off : BitVec 32) :
    (s.tableWrite k off).cmdReadback = s.cmdReadback := rfl
@[simp] theorem State.tableWrite_done (s : State) (k : Nat) (off : BitVec 32) :
    (s.tableWrite k off).done = s.done := rfl
@[simp] theorem State.tableWrite_err (s : State) (k : Nat) (off : BitVec 32) :
    (s.tableWrite k off).err = s.err := rfl
@[simp] theorem State.tableWrite_drop (s : State) (k : Nat) (off : BitVec 32) :
    (s.tableWrite k off).drop = s.drop := rfl
@[simp] theorem State.tableWrite_busErr (s : State) (k : Nat) (off : BitVec 32) :
    (s.tableWrite k off).busErr = s.busErr := rfl
@[simp] theorem State.tableWrite_errCode (s : State) (k : Nat) (off : BitVec 32) :
    (s.tableWrite k off).errCode = s.errCode := rfl
@[simp] theorem State.tableWrite_ie (s : State) (k : Nat) (off : BitVec 32) :
    (s.tableWrite k off).ie = s.ie := rfl
@[simp] theorem State.tableWrite_cfgOk (s : State) (k : Nat) (off : BitVec 32) :
    (s.tableWrite k off).cfgOk = s.cfgOk := rfl
@[simp] theorem State.tableWrite_eob (s : State) (k : Nat) (off : BitVec 32) :
    (s.tableWrite k off).eob = s.eob := rfl
@[simp] theorem State.tableWrite_engine (s : State) (k : Nat) (off : BitVec 32) :
    (s.tableWrite k off).engine = s.engine := rfl
@[simp] theorem State.tableWrite_hash (s : State) (k : Nat) (off : BitVec 32) :
    (s.tableWrite k off).hash = s.hash := rfl
@[simp] theorem State.tableWrite_pos (s : State) (k : Nat) (off : BitVec 32) :
    (s.tableWrite k off).pos = s.pos := rfl
@[simp] theorem State.tableWrite_cstart (s : State) (k : Nat) (off : BitVec 32) :
    (s.tableWrite k off).cstart = s.cstart := rfl
@[simp] theorem State.tableWrite_prevEnd (s : State) (k : Nat) (off : BitVec 32) :
    (s.tableWrite k off).prevEnd = s.prevEnd := rfl
@[simp] theorem State.tableWrite_bcount (s : State) (k : Nat) (off : BitVec 32) :
    (s.tableWrite k off).bcount = s.bcount := rfl
@[simp] theorem State.tableWrite_hcount (s : State) (k : Nat) (off : BitVec 32) :
    (s.tableWrite k off).hcount = s.hcount := rfl
@[simp] theorem State.tableWrite_mcount (s : State) (k : Nat) (off : BitVec 32) :
    (s.tableWrite k off).mcount = s.mcount := rfl
@[simp] theorem State.tableWrite_fifo (s : State) (k : Nat) (off : BitVec 32) :
    (s.tableWrite k off).fifo = s.fifo := rfl
@[simp] theorem State.tableWrite_table (s : State) (k : Nat) (off : BitVec 32) :
    (s.tableWrite k off).table = sparseSet k off s.table := rfl
@[simp] theorem State.tableWrite_buffer (s : State) (k : Nat) (off : BitVec 32) :
    (s.tableWrite k off).buffer = s.buffer := rfl
@[simp] theorem State.tableWrite_engineId (s : State) (k : Nat) (off : BitVec 32) :
    (s.tableWrite k off).engineId = s.engineId := rfl
@[simp] theorem State.tableWrite_epoch (s : State) (k : Nat) (off : BitVec 32) :
    (s.tableWrite k off).epoch = s.epoch := rfl
@[simp] theorem State.tableWrite_draws (s : State) (k : Nat) (off : BitVec 32) :
    (s.tableWrite k off).draws = s.draws := rfl
@[simp] theorem State.tableWrite_agenda (s : State) (k : Nat) (off : BitVec 32) :
    (s.tableWrite k off).agenda = s.agenda := rfl
@[simp] theorem State.tableWrite_response (s : State) (k : Nat) (off : BitVec 32) :
    (s.tableWrite k off).response = s.response := rfl
@[simp] theorem State.tableWrite_popped (s : State) (k : Nat) (off : BitVec 32) :
    (s.tableWrite k off).popped = s.popped := rfl

/-! ### `State.push` -/

@[simp] theorem State.push_params (s : State) (e : Emission) :
    (s.push e).params = s.params := rfl
@[simp] theorem State.push_regs (s : State) (e : Emission) :
    (s.push e).regs = s.regs := rfl
@[simp] theorem State.push_cfg (s : State) (e : Emission) :
    (s.push e).cfg = s.cfg := rfl
@[simp] theorem State.push_bufLen (s : State) (e : Emission) :
    (s.push e).bufLen = s.bufLen := rfl
@[simp] theorem State.push_cmdReadback (s : State) (e : Emission) :
    (s.push e).cmdReadback = s.cmdReadback := rfl
@[simp] theorem State.push_done (s : State) (e : Emission) :
    (s.push e).done = s.done := rfl
@[simp] theorem State.push_err (s : State) (e : Emission) :
    (s.push e).err = s.err := rfl
@[simp] theorem State.push_drop (s : State) (e : Emission) :
    (s.push e).drop = s.drop := rfl
@[simp] theorem State.push_busErr (s : State) (e : Emission) :
    (s.push e).busErr = s.busErr := rfl
@[simp] theorem State.push_errCode (s : State) (e : Emission) :
    (s.push e).errCode = s.errCode := rfl
@[simp] theorem State.push_ie (s : State) (e : Emission) :
    (s.push e).ie = s.ie := rfl
@[simp] theorem State.push_cfgOk (s : State) (e : Emission) :
    (s.push e).cfgOk = s.cfgOk := rfl
@[simp] theorem State.push_eob (s : State) (e : Emission) :
    (s.push e).eob = s.eob := rfl
@[simp] theorem State.push_engine (s : State) (e : Emission) :
    (s.push e).engine = s.engine := rfl
@[simp] theorem State.push_hash (s : State) (e : Emission) :
    (s.push e).hash = s.hash := rfl
@[simp] theorem State.push_pos (s : State) (e : Emission) :
    (s.push e).pos = s.pos := rfl
@[simp] theorem State.push_cstart (s : State) (e : Emission) :
    (s.push e).cstart = s.cstart := rfl
@[simp] theorem State.push_prevEnd (s : State) (e : Emission) :
    (s.push e).prevEnd = e.stop := rfl
@[simp] theorem State.push_bcount (s : State) (e : Emission) :
    (s.push e).bcount = s.bcount := rfl
@[simp] theorem State.push_hcount (s : State) (e : Emission) :
    (s.push e).hcount = s.hcount := rfl
@[simp] theorem State.push_mcount (s : State) (e : Emission) :
    (s.push e).mcount = s.mcount + 1 := rfl
@[simp] theorem State.push_fifo (s : State) (e : Emission) :
    (s.push e).fifo = s.fifo ++ [e.desc] := rfl
@[simp] theorem State.push_table (s : State) (e : Emission) :
    (s.push e).table = s.table := rfl
@[simp] theorem State.push_buffer (s : State) (e : Emission) :
    (s.push e).buffer = s.buffer := rfl
@[simp] theorem State.push_engineId (s : State) (e : Emission) :
    (s.push e).engineId = s.engineId := rfl
@[simp] theorem State.push_epoch (s : State) (e : Emission) :
    (s.push e).epoch = s.epoch := rfl
@[simp] theorem State.push_draws (s : State) (e : Emission) :
    (s.push e).draws = s.draws := rfl
@[simp] theorem State.push_agenda (s : State) (e : Emission) :
    (s.push e).agenda = s.agenda := rfl
@[simp] theorem State.push_response (s : State) (e : Emission) :
    (s.push e).response = s.response := rfl
@[simp] theorem State.push_popped (s : State) (e : Emission) :
    (s.push e).popped = s.popped := rfl

/-! ### `State.complete` -/

@[simp] theorem State.complete_params (s : State) :
    s.complete.params = s.params := rfl
@[simp] theorem State.complete_regs (s : State) :
    s.complete.regs = s.regs := rfl
@[simp] theorem State.complete_cfg (s : State) :
    s.complete.cfg = s.cfg := rfl
@[simp] theorem State.complete_bufLen (s : State) :
    s.complete.bufLen = s.bufLen := rfl
@[simp] theorem State.complete_cmdReadback (s : State) :
    s.complete.cmdReadback = s.cmdReadback := rfl
@[simp] theorem State.complete_done (s : State) :
    s.complete.done = true := rfl
@[simp] theorem State.complete_err (s : State) :
    s.complete.err = s.err := rfl
@[simp] theorem State.complete_drop (s : State) :
    s.complete.drop = s.drop := rfl
@[simp] theorem State.complete_busErr (s : State) :
    s.complete.busErr = s.busErr := rfl
@[simp] theorem State.complete_errCode (s : State) :
    s.complete.errCode = s.errCode := rfl
@[simp] theorem State.complete_ie (s : State) :
    s.complete.ie = s.ie := rfl
@[simp] theorem State.complete_cfgOk (s : State) :
    s.complete.cfgOk = s.cfgOk := rfl
@[simp] theorem State.complete_eob (s : State) :
    s.complete.eob = s.eob := rfl
@[simp] theorem State.complete_engine (s : State) :
    s.complete.engine = .idle := rfl
@[simp] theorem State.complete_hash (s : State) :
    s.complete.hash = s.hash := rfl
@[simp] theorem State.complete_pos (s : State) :
    s.complete.pos = s.pos := rfl
@[simp] theorem State.complete_cstart (s : State) :
    s.complete.cstart = s.cstart := rfl
@[simp] theorem State.complete_prevEnd (s : State) :
    s.complete.prevEnd = s.prevEnd := rfl
@[simp] theorem State.complete_bcount (s : State) :
    s.complete.bcount = s.bcount := rfl
@[simp] theorem State.complete_hcount (s : State) :
    s.complete.hcount = s.hcount := rfl
@[simp] theorem State.complete_mcount (s : State) :
    s.complete.mcount = s.mcount := rfl
@[simp] theorem State.complete_fifo (s : State) :
    s.complete.fifo = s.fifo := rfl
@[simp] theorem State.complete_table (s : State) :
    s.complete.table = s.table := rfl
@[simp] theorem State.complete_buffer (s : State) :
    s.complete.buffer = s.buffer := rfl
@[simp] theorem State.complete_engineId (s : State) :
    s.complete.engineId = s.engineId := rfl
@[simp] theorem State.complete_epoch (s : State) :
    s.complete.epoch = s.epoch := rfl
@[simp] theorem State.complete_draws (s : State) :
    s.complete.draws = s.draws := rfl
@[simp] theorem State.complete_agenda (s : State) :
    s.complete.agenda = s.agenda := rfl
@[simp] theorem State.complete_response (s : State) :
    s.complete.response = s.response := rfl
@[simp] theorem State.complete_popped (s : State) :
    s.complete.popped = s.popped := rfl

/-! ### `State.hold` -/

@[simp] theorem State.hold_params (s : State) (e : Emission) (k : Continuation) :
    (s.hold e k).params = s.params := rfl
@[simp] theorem State.hold_regs (s : State) (e : Emission) (k : Continuation) :
    (s.hold e k).regs = s.regs := rfl
@[simp] theorem State.hold_cfg (s : State) (e : Emission) (k : Continuation) :
    (s.hold e k).cfg = s.cfg := rfl
@[simp] theorem State.hold_bufLen (s : State) (e : Emission) (k : Continuation) :
    (s.hold e k).bufLen = s.bufLen := rfl
@[simp] theorem State.hold_cmdReadback (s : State) (e : Emission) (k : Continuation) :
    (s.hold e k).cmdReadback = s.cmdReadback := rfl
@[simp] theorem State.hold_done (s : State) (e : Emission) (k : Continuation) :
    (s.hold e k).done = s.done := rfl
@[simp] theorem State.hold_err (s : State) (e : Emission) (k : Continuation) :
    (s.hold e k).err = s.err := rfl
@[simp] theorem State.hold_drop (s : State) (e : Emission) (k : Continuation) :
    (s.hold e k).drop = s.drop := rfl
@[simp] theorem State.hold_busErr (s : State) (e : Emission) (k : Continuation) :
    (s.hold e k).busErr = s.busErr := rfl
@[simp] theorem State.hold_errCode (s : State) (e : Emission) (k : Continuation) :
    (s.hold e k).errCode = s.errCode := rfl
@[simp] theorem State.hold_ie (s : State) (e : Emission) (k : Continuation) :
    (s.hold e k).ie = s.ie := rfl
@[simp] theorem State.hold_cfgOk (s : State) (e : Emission) (k : Continuation) :
    (s.hold e k).cfgOk = s.cfgOk := rfl
@[simp] theorem State.hold_eob (s : State) (e : Emission) (k : Continuation) :
    (s.hold e k).eob = s.eob := rfl
@[simp] theorem State.hold_engine (s : State) (e : Emission) (k : Continuation) :
    (s.hold e k).engine = .held e k := rfl
@[simp] theorem State.hold_hash (s : State) (e : Emission) (k : Continuation) :
    (s.hold e k).hash = s.hash := rfl
@[simp] theorem State.hold_pos (s : State) (e : Emission) (k : Continuation) :
    (s.hold e k).pos = s.pos := rfl
@[simp] theorem State.hold_cstart (s : State) (e : Emission) (k : Continuation) :
    (s.hold e k).cstart = s.cstart := rfl
@[simp] theorem State.hold_prevEnd (s : State) (e : Emission) (k : Continuation) :
    (s.hold e k).prevEnd = s.prevEnd := rfl
@[simp] theorem State.hold_bcount (s : State) (e : Emission) (k : Continuation) :
    (s.hold e k).bcount = s.bcount := rfl
@[simp] theorem State.hold_hcount (s : State) (e : Emission) (k : Continuation) :
    (s.hold e k).hcount = s.hcount := rfl
@[simp] theorem State.hold_mcount (s : State) (e : Emission) (k : Continuation) :
    (s.hold e k).mcount = s.mcount := rfl
@[simp] theorem State.hold_fifo (s : State) (e : Emission) (k : Continuation) :
    (s.hold e k).fifo = s.fifo := rfl
@[simp] theorem State.hold_table (s : State) (e : Emission) (k : Continuation) :
    (s.hold e k).table = s.table := rfl
@[simp] theorem State.hold_buffer (s : State) (e : Emission) (k : Continuation) :
    (s.hold e k).buffer = s.buffer := rfl
@[simp] theorem State.hold_engineId (s : State) (e : Emission) (k : Continuation) :
    (s.hold e k).engineId = s.engineId := rfl
@[simp] theorem State.hold_epoch (s : State) (e : Emission) (k : Continuation) :
    (s.hold e k).epoch = s.epoch := rfl
@[simp] theorem State.hold_draws (s : State) (e : Emission) (k : Continuation) :
    (s.hold e k).draws = s.draws := rfl
@[simp] theorem State.hold_agenda (s : State) (e : Emission) (k : Continuation) :
    (s.hold e k).agenda = s.agenda := rfl
@[simp] theorem State.hold_response (s : State) (e : Emission) (k : Continuation) :
    (s.hold e k).response = s.response := rfl
@[simp] theorem State.hold_popped (s : State) (e : Emission) (k : Continuation) :
    (s.hold e k).popped = s.popped := rfl

/-! ### `State.raise` -/

@[simp] theorem State.raise_params (s : State) (c : CmdError) :
    (s.raise c).params = s.params := rfl
@[simp] theorem State.raise_regs (s : State) (c : CmdError) :
    (s.raise c).regs = s.regs := rfl
@[simp] theorem State.raise_cfg (s : State) (c : CmdError) :
    (s.raise c).cfg = s.cfg := rfl
@[simp] theorem State.raise_bufLen (s : State) (c : CmdError) :
    (s.raise c).bufLen = s.bufLen := rfl
@[simp] theorem State.raise_cmdReadback (s : State) (c : CmdError) :
    (s.raise c).cmdReadback = s.cmdReadback := rfl
@[simp] theorem State.raise_done (s : State) (c : CmdError) :
    (s.raise c).done = true := rfl
@[simp] theorem State.raise_err (s : State) (c : CmdError) :
    (s.raise c).err = true := rfl
@[simp] theorem State.raise_drop (s : State) (c : CmdError) :
    (s.raise c).drop = s.drop := rfl
@[simp] theorem State.raise_busErr (s : State) (c : CmdError) :
    (s.raise c).busErr = s.busErr := rfl
@[simp] theorem State.raise_errCode (s : State) (c : CmdError) :
    (s.raise c).errCode = c.code := rfl
@[simp] theorem State.raise_ie (s : State) (c : CmdError) :
    (s.raise c).ie = s.ie := rfl
@[simp] theorem State.raise_cfgOk (s : State) (c : CmdError) :
    (s.raise c).cfgOk = s.cfgOk := rfl
@[simp] theorem State.raise_eob (s : State) (c : CmdError) :
    (s.raise c).eob = s.eob := rfl
@[simp] theorem State.raise_engine (s : State) (c : CmdError) :
    (s.raise c).engine = .idle := rfl
@[simp] theorem State.raise_hash (s : State) (c : CmdError) :
    (s.raise c).hash = s.hash := rfl
@[simp] theorem State.raise_pos (s : State) (c : CmdError) :
    (s.raise c).pos = s.pos := rfl
@[simp] theorem State.raise_cstart (s : State) (c : CmdError) :
    (s.raise c).cstart = s.cstart := rfl
@[simp] theorem State.raise_prevEnd (s : State) (c : CmdError) :
    (s.raise c).prevEnd = s.prevEnd := rfl
@[simp] theorem State.raise_bcount (s : State) (c : CmdError) :
    (s.raise c).bcount = s.bcount := rfl
@[simp] theorem State.raise_hcount (s : State) (c : CmdError) :
    (s.raise c).hcount = s.hcount := rfl
@[simp] theorem State.raise_mcount (s : State) (c : CmdError) :
    (s.raise c).mcount = s.mcount := rfl
@[simp] theorem State.raise_fifo (s : State) (c : CmdError) :
    (s.raise c).fifo = s.fifo := rfl
@[simp] theorem State.raise_table (s : State) (c : CmdError) :
    (s.raise c).table = s.table := rfl
@[simp] theorem State.raise_buffer (s : State) (c : CmdError) :
    (s.raise c).buffer = s.buffer := rfl
@[simp] theorem State.raise_engineId (s : State) (c : CmdError) :
    (s.raise c).engineId = s.engineId := rfl
@[simp] theorem State.raise_epoch (s : State) (c : CmdError) :
    (s.raise c).epoch = s.epoch := rfl
@[simp] theorem State.raise_draws (s : State) (c : CmdError) :
    (s.raise c).draws = s.draws := rfl
@[simp] theorem State.raise_agenda (s : State) (c : CmdError) :
    (s.raise c).agenda = s.agenda := rfl
@[simp] theorem State.raise_response (s : State) (c : CmdError) :
    (s.raise c).response = s.response := rfl
@[simp] theorem State.raise_popped (s : State) (c : CmdError) :
    (s.raise c).popped = s.popped := rfl

/-! ### `State.failInit` -/

@[simp] theorem State.failInit_params (s : State) (c : CmdError) :
    (s.failInit c).params = s.params := rfl
@[simp] theorem State.failInit_regs (s : State) (c : CmdError) :
    (s.failInit c).regs = s.regs := rfl
@[simp] theorem State.failInit_cfg (s : State) (c : CmdError) :
    (s.failInit c).cfg = s.cfg := rfl
@[simp] theorem State.failInit_bufLen (s : State) (c : CmdError) :
    (s.failInit c).bufLen = s.bufLen := rfl
@[simp] theorem State.failInit_cmdReadback (s : State) (c : CmdError) :
    (s.failInit c).cmdReadback = s.cmdReadback := rfl
@[simp] theorem State.failInit_done (s : State) (c : CmdError) :
    (s.failInit c).done = true := rfl
@[simp] theorem State.failInit_err (s : State) (c : CmdError) :
    (s.failInit c).err = true := rfl
@[simp] theorem State.failInit_drop (s : State) (c : CmdError) :
    (s.failInit c).drop = s.drop := rfl
@[simp] theorem State.failInit_busErr (s : State) (c : CmdError) :
    (s.failInit c).busErr = s.busErr := rfl
@[simp] theorem State.failInit_errCode (s : State) (c : CmdError) :
    (s.failInit c).errCode = c.code := rfl
@[simp] theorem State.failInit_ie (s : State) (c : CmdError) :
    (s.failInit c).ie = s.ie := rfl
@[simp] theorem State.failInit_cfgOk (s : State) (c : CmdError) :
    (s.failInit c).cfgOk = false := rfl
@[simp] theorem State.failInit_eob (s : State) (c : CmdError) :
    (s.failInit c).eob = s.eob := rfl
@[simp] theorem State.failInit_engine (s : State) (c : CmdError) :
    (s.failInit c).engine = .idle := rfl
@[simp] theorem State.failInit_hash (s : State) (c : CmdError) :
    (s.failInit c).hash = s.hash := rfl
@[simp] theorem State.failInit_pos (s : State) (c : CmdError) :
    (s.failInit c).pos = s.pos := rfl
@[simp] theorem State.failInit_cstart (s : State) (c : CmdError) :
    (s.failInit c).cstart = s.cstart := rfl
@[simp] theorem State.failInit_prevEnd (s : State) (c : CmdError) :
    (s.failInit c).prevEnd = s.prevEnd := rfl
@[simp] theorem State.failInit_bcount (s : State) (c : CmdError) :
    (s.failInit c).bcount = s.bcount := rfl
@[simp] theorem State.failInit_hcount (s : State) (c : CmdError) :
    (s.failInit c).hcount = s.hcount := rfl
@[simp] theorem State.failInit_mcount (s : State) (c : CmdError) :
    (s.failInit c).mcount = s.mcount := rfl
@[simp] theorem State.failInit_fifo (s : State) (c : CmdError) :
    (s.failInit c).fifo = s.fifo := rfl
@[simp] theorem State.failInit_table (s : State) (c : CmdError) :
    (s.failInit c).table = s.table := rfl
@[simp] theorem State.failInit_buffer (s : State) (c : CmdError) :
    (s.failInit c).buffer = s.buffer := rfl
@[simp] theorem State.failInit_engineId (s : State) (c : CmdError) :
    (s.failInit c).engineId = s.engineId := rfl
@[simp] theorem State.failInit_epoch (s : State) (c : CmdError) :
    (s.failInit c).epoch = s.epoch := rfl
@[simp] theorem State.failInit_draws (s : State) (c : CmdError) :
    (s.failInit c).draws = s.draws := rfl
@[simp] theorem State.failInit_agenda (s : State) (c : CmdError) :
    (s.failInit c).agenda = s.agenda := rfl
@[simp] theorem State.failInit_response (s : State) (c : CmdError) :
    (s.failInit c).response = s.response := rfl
@[simp] theorem State.failInit_popped (s : State) (c : CmdError) :
    (s.failInit c).popped = s.popped := rfl

/-! ### `State.startJob` -/

@[simp] theorem State.startJob_params (s : State) :
    s.startJob.params = s.params := rfl
@[simp] theorem State.startJob_regs (s : State) :
    s.startJob.regs = s.regs := rfl
@[simp] theorem State.startJob_cfg (s : State) :
    s.startJob.cfg = s.cfg := rfl
@[simp] theorem State.startJob_bufLen (s : State) :
    s.startJob.bufLen = s.bufLen := rfl
@[simp] theorem State.startJob_cmdReadback (s : State) :
    s.startJob.cmdReadback = s.cmdReadback := rfl
@[simp] theorem State.startJob_done (s : State) :
    s.startJob.done = s.done := rfl
@[simp] theorem State.startJob_err (s : State) :
    s.startJob.err = s.err := rfl
@[simp] theorem State.startJob_drop (s : State) :
    s.startJob.drop = s.drop := rfl
@[simp] theorem State.startJob_busErr (s : State) :
    s.startJob.busErr = s.busErr := rfl
@[simp] theorem State.startJob_errCode (s : State) :
    s.startJob.errCode = s.errCode := rfl
@[simp] theorem State.startJob_ie (s : State) :
    s.startJob.ie = s.ie := rfl
@[simp] theorem State.startJob_cfgOk (s : State) :
    s.startJob.cfgOk = true := rfl
@[simp] theorem State.startJob_eob (s : State) :
    s.startJob.eob = false := rfl
@[simp] theorem State.startJob_engine (s : State) :
    s.startJob.engine = s.engine := rfl
@[simp] theorem State.startJob_hash (s : State) :
    s.startJob.hash = 0 := rfl
@[simp] theorem State.startJob_pos (s : State) :
    s.startJob.pos = 0 := rfl
@[simp] theorem State.startJob_cstart (s : State) :
    s.startJob.cstart = 0 := rfl
@[simp] theorem State.startJob_prevEnd (s : State) :
    s.startJob.prevEnd = 0 := rfl
@[simp] theorem State.startJob_bcount (s : State) :
    s.startJob.bcount = 0 := rfl
@[simp] theorem State.startJob_hcount (s : State) :
    s.startJob.hcount = 0 := rfl
@[simp] theorem State.startJob_mcount (s : State) :
    s.startJob.mcount = 0 := rfl
@[simp] theorem State.startJob_fifo (s : State) :
    s.startJob.fifo = [] := rfl
@[simp] theorem State.startJob_table (s : State) :
    s.startJob.table = [] := rfl
@[simp] theorem State.startJob_buffer (s : State) :
    s.startJob.buffer = s.buffer := rfl
@[simp] theorem State.startJob_engineId (s : State) :
    s.startJob.engineId = s.engineId := rfl
@[simp] theorem State.startJob_epoch (s : State) :
    s.startJob.epoch = s.epoch := rfl
@[simp] theorem State.startJob_draws (s : State) :
    s.startJob.draws = s.draws := rfl
@[simp] theorem State.startJob_agenda (s : State) :
    s.startJob.agenda = s.agenda := rfl
@[simp] theorem State.startJob_response (s : State) :
    s.startJob.response = s.response := rfl
@[simp] theorem State.startJob_popped (s : State) :
    s.startJob.popped = s.popped := rfl

/-! ### `State.hashByte` -/

@[simp] theorem State.hashByte_params (s : State) :
    s.hashByte.params = s.params := rfl
@[simp] theorem State.hashByte_regs (s : State) :
    s.hashByte.regs = s.regs := rfl
@[simp] theorem State.hashByte_cfg (s : State) :
    s.hashByte.cfg = s.cfg := rfl
@[simp] theorem State.hashByte_bufLen (s : State) :
    s.hashByte.bufLen = s.bufLen := rfl
@[simp] theorem State.hashByte_cmdReadback (s : State) :
    s.hashByte.cmdReadback = s.cmdReadback := rfl
@[simp] theorem State.hashByte_done (s : State) :
    s.hashByte.done = s.done := rfl
@[simp] theorem State.hashByte_err (s : State) :
    s.hashByte.err = s.err := rfl
@[simp] theorem State.hashByte_drop (s : State) :
    s.hashByte.drop = s.drop := rfl
@[simp] theorem State.hashByte_busErr (s : State) :
    s.hashByte.busErr = s.busErr := rfl
@[simp] theorem State.hashByte_errCode (s : State) :
    s.hashByte.errCode = s.errCode := rfl
@[simp] theorem State.hashByte_ie (s : State) :
    s.hashByte.ie = s.ie := rfl
@[simp] theorem State.hashByte_cfgOk (s : State) :
    s.hashByte.cfgOk = s.cfgOk := rfl
@[simp] theorem State.hashByte_eob (s : State) :
    s.hashByte.eob = s.eob := rfl
@[simp] theorem State.hashByte_engine (s : State) :
    s.hashByte.engine = s.engine := rfl
@[simp] theorem State.hashByte_hash (s : State) :
    s.hashByte.hash = advance s.params s.hash (s.bufByte s.pos.toNat) := rfl
@[simp] theorem State.hashByte_pos (s : State) :
    s.hashByte.pos = s.pos + 1 := rfl
@[simp] theorem State.hashByte_cstart (s : State) :
    s.hashByte.cstart = s.cstart := rfl
@[simp] theorem State.hashByte_prevEnd (s : State) :
    s.hashByte.prevEnd = s.prevEnd := rfl
@[simp] theorem State.hashByte_bcount (s : State) :
    s.hashByte.bcount = s.bcount := rfl
@[simp] theorem State.hashByte_hcount (s : State) :
    s.hashByte.hcount = s.hcount := rfl
@[simp] theorem State.hashByte_mcount (s : State) :
    s.hashByte.mcount = s.mcount := rfl
@[simp] theorem State.hashByte_fifo (s : State) :
    s.hashByte.fifo = s.fifo := rfl
@[simp] theorem State.hashByte_table (s : State) :
    s.hashByte.table = s.table := rfl
@[simp] theorem State.hashByte_buffer (s : State) :
    s.hashByte.buffer = s.buffer := rfl
@[simp] theorem State.hashByte_engineId (s : State) :
    s.hashByte.engineId = s.engineId := rfl
@[simp] theorem State.hashByte_epoch (s : State) :
    s.hashByte.epoch = s.epoch := rfl
@[simp] theorem State.hashByte_draws (s : State) :
    s.hashByte.draws = s.draws := rfl
@[simp] theorem State.hashByte_agenda (s : State) :
    s.hashByte.agenda = s.agenda := rfl
@[simp] theorem State.hashByte_response (s : State) :
    s.hashByte.response = s.response := rfl
@[simp] theorem State.hashByte_popped (s : State) :
    s.hashByte.popped = s.popped := rfl

/-! ### `State.markBoundary` -/

@[simp] theorem State.markBoundary_params (s : State) :
    s.markBoundary.params = s.params := rfl
@[simp] theorem State.markBoundary_regs (s : State) :
    s.markBoundary.regs = s.regs := rfl
@[simp] theorem State.markBoundary_cfg (s : State) :
    s.markBoundary.cfg = s.cfg := rfl
@[simp] theorem State.markBoundary_bufLen (s : State) :
    s.markBoundary.bufLen = s.bufLen := rfl
@[simp] theorem State.markBoundary_cmdReadback (s : State) :
    s.markBoundary.cmdReadback = s.cmdReadback := rfl
@[simp] theorem State.markBoundary_done (s : State) :
    s.markBoundary.done = s.done := rfl
@[simp] theorem State.markBoundary_err (s : State) :
    s.markBoundary.err = s.err := rfl
@[simp] theorem State.markBoundary_drop (s : State) :
    s.markBoundary.drop = s.drop := rfl
@[simp] theorem State.markBoundary_busErr (s : State) :
    s.markBoundary.busErr = s.busErr := rfl
@[simp] theorem State.markBoundary_errCode (s : State) :
    s.markBoundary.errCode = s.errCode := rfl
@[simp] theorem State.markBoundary_ie (s : State) :
    s.markBoundary.ie = s.ie := rfl
@[simp] theorem State.markBoundary_cfgOk (s : State) :
    s.markBoundary.cfgOk = s.cfgOk := rfl
@[simp] theorem State.markBoundary_eob (s : State) :
    s.markBoundary.eob = s.eob := rfl
@[simp] theorem State.markBoundary_engine (s : State) :
    s.markBoundary.engine = s.engine := rfl
@[simp] theorem State.markBoundary_hash (s : State) :
    s.markBoundary.hash = s.hash := rfl
@[simp] theorem State.markBoundary_pos (s : State) :
    s.markBoundary.pos = s.pos := rfl
@[simp] theorem State.markBoundary_cstart (s : State) :
    s.markBoundary.cstart = s.pos := rfl
@[simp] theorem State.markBoundary_prevEnd (s : State) :
    s.markBoundary.prevEnd = s.prevEnd := rfl
@[simp] theorem State.markBoundary_bcount (s : State) :
    s.markBoundary.bcount = s.bcount + 1 := rfl
@[simp] theorem State.markBoundary_hcount (s : State) :
    s.markBoundary.hcount = s.hcount := rfl
@[simp] theorem State.markBoundary_mcount (s : State) :
    s.markBoundary.mcount = s.mcount := rfl
@[simp] theorem State.markBoundary_fifo (s : State) :
    s.markBoundary.fifo = s.fifo := rfl
@[simp] theorem State.markBoundary_table (s : State) :
    s.markBoundary.table = sparseSet (s.key s.hash) (BitVec.ofNat 32 s.pos.toNat) s.table := rfl
@[simp] theorem State.markBoundary_buffer (s : State) :
    s.markBoundary.buffer = s.buffer := rfl
@[simp] theorem State.markBoundary_engineId (s : State) :
    s.markBoundary.engineId = s.engineId := rfl
@[simp] theorem State.markBoundary_epoch (s : State) :
    s.markBoundary.epoch = s.epoch := rfl
@[simp] theorem State.markBoundary_draws (s : State) :
    s.markBoundary.draws = s.draws := rfl
@[simp] theorem State.markBoundary_agenda (s : State) :
    s.markBoundary.agenda = s.agenda := rfl
@[simp] theorem State.markBoundary_response (s : State) :
    s.markBoundary.response = s.response := rfl
@[simp] theorem State.markBoundary_popped (s : State) :
    s.markBoundary.popped = s.popped := rfl

/-! ### `State.countHit` -/

@[simp] theorem State.countHit_params (s : State) :
    s.countHit.params = s.params := rfl
@[simp] theorem State.countHit_regs (s : State) :
    s.countHit.regs = s.regs := rfl
@[simp] theorem State.countHit_cfg (s : State) :
    s.countHit.cfg = s.cfg := rfl
@[simp] theorem State.countHit_bufLen (s : State) :
    s.countHit.bufLen = s.bufLen := rfl
@[simp] theorem State.countHit_cmdReadback (s : State) :
    s.countHit.cmdReadback = s.cmdReadback := rfl
@[simp] theorem State.countHit_done (s : State) :
    s.countHit.done = s.done := rfl
@[simp] theorem State.countHit_err (s : State) :
    s.countHit.err = s.err := rfl
@[simp] theorem State.countHit_drop (s : State) :
    s.countHit.drop = s.drop := rfl
@[simp] theorem State.countHit_busErr (s : State) :
    s.countHit.busErr = s.busErr := rfl
@[simp] theorem State.countHit_errCode (s : State) :
    s.countHit.errCode = s.errCode := rfl
@[simp] theorem State.countHit_ie (s : State) :
    s.countHit.ie = s.ie := rfl
@[simp] theorem State.countHit_cfgOk (s : State) :
    s.countHit.cfgOk = s.cfgOk := rfl
@[simp] theorem State.countHit_eob (s : State) :
    s.countHit.eob = s.eob := rfl
@[simp] theorem State.countHit_engine (s : State) :
    s.countHit.engine = s.engine := rfl
@[simp] theorem State.countHit_hash (s : State) :
    s.countHit.hash = s.hash := rfl
@[simp] theorem State.countHit_pos (s : State) :
    s.countHit.pos = s.pos := rfl
@[simp] theorem State.countHit_cstart (s : State) :
    s.countHit.cstart = s.cstart := rfl
@[simp] theorem State.countHit_prevEnd (s : State) :
    s.countHit.prevEnd = s.prevEnd := rfl
@[simp] theorem State.countHit_bcount (s : State) :
    s.countHit.bcount = s.bcount := rfl
@[simp] theorem State.countHit_hcount (s : State) :
    s.countHit.hcount = s.hcount + 1 := rfl
@[simp] theorem State.countHit_mcount (s : State) :
    s.countHit.mcount = s.mcount := rfl
@[simp] theorem State.countHit_fifo (s : State) :
    s.countHit.fifo = s.fifo := rfl
@[simp] theorem State.countHit_table (s : State) :
    s.countHit.table = s.table := rfl
@[simp] theorem State.countHit_buffer (s : State) :
    s.countHit.buffer = s.buffer := rfl
@[simp] theorem State.countHit_engineId (s : State) :
    s.countHit.engineId = s.engineId := rfl
@[simp] theorem State.countHit_epoch (s : State) :
    s.countHit.epoch = s.epoch := rfl
@[simp] theorem State.countHit_draws (s : State) :
    s.countHit.draws = s.draws := rfl
@[simp] theorem State.countHit_agenda (s : State) :
    s.countHit.agenda = s.agenda := rfl
@[simp] theorem State.countHit_response (s : State) :
    s.countHit.response = s.response := rfl
@[simp] theorem State.countHit_popped (s : State) :
    s.countHit.popped = s.popped := rfl

/-! ### `State.jumpTo` -/

@[simp] theorem State.jumpTo_params (s : State) (p : Word) :
    (s.jumpTo p).params = s.params := rfl
@[simp] theorem State.jumpTo_regs (s : State) (p : Word) :
    (s.jumpTo p).regs = s.regs := rfl
@[simp] theorem State.jumpTo_cfg (s : State) (p : Word) :
    (s.jumpTo p).cfg = s.cfg := rfl
@[simp] theorem State.jumpTo_bufLen (s : State) (p : Word) :
    (s.jumpTo p).bufLen = s.bufLen := rfl
@[simp] theorem State.jumpTo_cmdReadback (s : State) (p : Word) :
    (s.jumpTo p).cmdReadback = s.cmdReadback := rfl
@[simp] theorem State.jumpTo_done (s : State) (p : Word) :
    (s.jumpTo p).done = s.done := rfl
@[simp] theorem State.jumpTo_err (s : State) (p : Word) :
    (s.jumpTo p).err = s.err := rfl
@[simp] theorem State.jumpTo_drop (s : State) (p : Word) :
    (s.jumpTo p).drop = s.drop := rfl
@[simp] theorem State.jumpTo_busErr (s : State) (p : Word) :
    (s.jumpTo p).busErr = s.busErr := rfl
@[simp] theorem State.jumpTo_errCode (s : State) (p : Word) :
    (s.jumpTo p).errCode = s.errCode := rfl
@[simp] theorem State.jumpTo_ie (s : State) (p : Word) :
    (s.jumpTo p).ie = s.ie := rfl
@[simp] theorem State.jumpTo_cfgOk (s : State) (p : Word) :
    (s.jumpTo p).cfgOk = s.cfgOk := rfl
@[simp] theorem State.jumpTo_eob (s : State) (p : Word) :
    (s.jumpTo p).eob = s.eob := rfl
@[simp] theorem State.jumpTo_engine (s : State) (p : Word) :
    (s.jumpTo p).engine = s.engine := rfl
@[simp] theorem State.jumpTo_hash (s : State) (p : Word) :
    (s.jumpTo p).hash = 0 := rfl
@[simp] theorem State.jumpTo_pos (s : State) (p : Word) :
    (s.jumpTo p).pos = p := rfl
@[simp] theorem State.jumpTo_cstart (s : State) (p : Word) :
    (s.jumpTo p).cstart = p := rfl
@[simp] theorem State.jumpTo_prevEnd (s : State) (p : Word) :
    (s.jumpTo p).prevEnd = s.prevEnd := rfl
@[simp] theorem State.jumpTo_bcount (s : State) (p : Word) :
    (s.jumpTo p).bcount = s.bcount := rfl
@[simp] theorem State.jumpTo_hcount (s : State) (p : Word) :
    (s.jumpTo p).hcount = s.hcount := rfl
@[simp] theorem State.jumpTo_mcount (s : State) (p : Word) :
    (s.jumpTo p).mcount = s.mcount := rfl
@[simp] theorem State.jumpTo_fifo (s : State) (p : Word) :
    (s.jumpTo p).fifo = s.fifo := rfl
@[simp] theorem State.jumpTo_table (s : State) (p : Word) :
    (s.jumpTo p).table = s.table := rfl
@[simp] theorem State.jumpTo_buffer (s : State) (p : Word) :
    (s.jumpTo p).buffer = s.buffer := rfl
@[simp] theorem State.jumpTo_engineId (s : State) (p : Word) :
    (s.jumpTo p).engineId = s.engineId := rfl
@[simp] theorem State.jumpTo_epoch (s : State) (p : Word) :
    (s.jumpTo p).epoch = s.epoch := rfl
@[simp] theorem State.jumpTo_draws (s : State) (p : Word) :
    (s.jumpTo p).draws = s.draws := rfl
@[simp] theorem State.jumpTo_agenda (s : State) (p : Word) :
    (s.jumpTo p).agenda = s.agenda := rfl
@[simp] theorem State.jumpTo_response (s : State) (p : Word) :
    (s.jumpTo p).response = s.response := rfl
@[simp] theorem State.jumpTo_popped (s : State) (p : Word) :
    (s.jumpTo p).popped = s.popped := rfl

/-! ### `State.forceClose` -/

@[simp] theorem State.forceClose_params (s : State) :
    s.forceClose.params = s.params := rfl
@[simp] theorem State.forceClose_regs (s : State) :
    s.forceClose.regs = s.regs := rfl
@[simp] theorem State.forceClose_cfg (s : State) :
    s.forceClose.cfg = s.cfg := rfl
@[simp] theorem State.forceClose_bufLen (s : State) :
    s.forceClose.bufLen = s.bufLen := rfl
@[simp] theorem State.forceClose_cmdReadback (s : State) :
    s.forceClose.cmdReadback = s.cmdReadback := rfl
@[simp] theorem State.forceClose_done (s : State) :
    s.forceClose.done = s.done := rfl
@[simp] theorem State.forceClose_err (s : State) :
    s.forceClose.err = s.err := rfl
@[simp] theorem State.forceClose_drop (s : State) :
    s.forceClose.drop = s.drop := rfl
@[simp] theorem State.forceClose_busErr (s : State) :
    s.forceClose.busErr = s.busErr := rfl
@[simp] theorem State.forceClose_errCode (s : State) :
    s.forceClose.errCode = s.errCode := rfl
@[simp] theorem State.forceClose_ie (s : State) :
    s.forceClose.ie = s.ie := rfl
@[simp] theorem State.forceClose_cfgOk (s : State) :
    s.forceClose.cfgOk = s.cfgOk := rfl
@[simp] theorem State.forceClose_eob (s : State) :
    s.forceClose.eob = (s.eob || s.pos == s.bufLen) := rfl
@[simp] theorem State.forceClose_engine (s : State) :
    s.forceClose.engine = s.engine := rfl
@[simp] theorem State.forceClose_hash (s : State) :
    s.forceClose.hash = s.hash := rfl
@[simp] theorem State.forceClose_pos (s : State) :
    s.forceClose.pos = s.pos := rfl
@[simp] theorem State.forceClose_cstart (s : State) :
    s.forceClose.cstart = s.cstart := rfl
@[simp] theorem State.forceClose_prevEnd (s : State) :
    s.forceClose.prevEnd = s.prevEnd := rfl
@[simp] theorem State.forceClose_bcount (s : State) :
    s.forceClose.bcount = s.bcount := rfl
@[simp] theorem State.forceClose_hcount (s : State) :
    s.forceClose.hcount = s.hcount := rfl
@[simp] theorem State.forceClose_mcount (s : State) :
    s.forceClose.mcount = s.mcount := rfl
@[simp] theorem State.forceClose_fifo (s : State) :
    s.forceClose.fifo = s.fifo := rfl
@[simp] theorem State.forceClose_table (s : State) :
    s.forceClose.table = s.table := rfl
@[simp] theorem State.forceClose_buffer (s : State) :
    s.forceClose.buffer = s.buffer := rfl
@[simp] theorem State.forceClose_engineId (s : State) :
    s.forceClose.engineId = s.engineId := rfl
@[simp] theorem State.forceClose_epoch (s : State) :
    s.forceClose.epoch = s.epoch := rfl
@[simp] theorem State.forceClose_draws (s : State) :
    s.forceClose.draws = s.draws := rfl
@[simp] theorem State.forceClose_agenda (s : State) :
    s.forceClose.agenda = s.agenda := rfl
@[simp] theorem State.forceClose_response (s : State) :
    s.forceClose.response = s.response := rfl
@[simp] theorem State.forceClose_popped (s : State) :
    s.forceClose.popped = s.popped := rfl

end Sys2Proof.Machine
end

