-- ==== Sys2Proof/Laws/Storage.lean ====
section
/-! SUPPORT. The laws of sparse storage: reading after writing, the canonical form and that every write
keeps it, and that equal contents in canonical form are equal data. Then the same for the buffer
memory and the match table. -/

namespace Sys2Proof.Machine

open Sys2Proof

variable {α : Type}

@[simp] theorem sparseGet_nil (k : Nat) : sparseGet k ([] : List (Nat × α)) = none := rfl

theorem sparseGet_cons (k j : Nat) (v : α) (m : List (Nat × α)) :
    sparseGet k ((j, v) :: m) = if j = k then some v else sparseGet k m := rfl

/-- Reading where a write went gives the value written. -/
@[simp] theorem sparseGet_set_self (k : Nat) (v : α) (m : List (Nat × α)) :
    sparseGet k (sparseSet k v m) = some v := by
  induction m with
  | nil => simp [sparseSet, sparseGet]
  | cons c m ih =>
    obtain ⟨j, w⟩ := c
    by_cases h1 : k < j
    · simp [sparseSet, h1, sparseGet]
    · by_cases h2 : k = j
      · simp [sparseSet, h2, sparseGet]
      · simp [sparseSet, h1, h2, sparseGet, Ne.symm h2, ih]

/-- A write leaves every other place alone. -/
theorem sparseGet_set_ne {k a : Nat} (h : a ≠ k) (v : α) (m : List (Nat × α)) :
    sparseGet a (sparseSet k v m) = sparseGet a m := by
  induction m with
  | nil => simp [sparseSet, sparseGet, Ne.symm h]
  | cons c m ih =>
    obtain ⟨j, w⟩ := c
    by_cases h1 : k < j
    · simp [sparseSet, h1, sparseGet, Ne.symm h]
    · by_cases h2 : k = j
      · subst h2; simp [sparseSet, sparseGet, Ne.symm h]
      · simp [sparseSet, h1, h2, sparseGet, ih]

theorem sparseGet_set (k a : Nat) (v : α) (m : List (Nat × α)) :
    sparseGet a (sparseSet k v m) = if a = k then some v else sparseGet a m := by
  by_cases h : a = k
  · subst h; simp
  · simp [h, sparseGet_set_ne h]

/-! ### The canonical form -/

theorem sparseWf_cons (lo bound j : Nat) (v : α) (m : List (Nat × α)) :
    sparseWf lo bound ((j, v) :: m) = true ↔ lo ≤ j ∧ j < bound ∧ sparseWf (j + 1) bound m = true := by
  simp [sparseWf, and_assoc]

theorem sparseWf_weaken {lo lo' bound : Nat} (h : lo' ≤ lo) {m : List (Nat × α)}
    (hm : sparseWf lo bound m = true) : sparseWf lo' bound m = true := by
  cases m with
  | nil => rfl
  | cons c m =>
    obtain ⟨j, w⟩ := c
    rw [sparseWf_cons] at hm ⊢
    exact ⟨h.trans hm.1, hm.2⟩

theorem sparseWf_widen {lo bound bound' : Nat} (h : bound ≤ bound') {m : List (Nat × α)}
    (hm : sparseWf lo bound m = true) : sparseWf lo bound' m = true := by
  induction m generalizing lo with
  | nil => rfl
  | cons c m ih =>
    obtain ⟨j, w⟩ := c
    rw [sparseWf_cons] at hm ⊢
    exact ⟨hm.1, hm.2.1.trans_le h, ih hm.2.2⟩

/-- A write keeps the canonical form. -/
theorem sparseWf_set {lo bound k : Nat} (v : α) {m : List (Nat × α)} (hlo : lo ≤ k) (hk : k < bound)
    (hm : sparseWf lo bound m = true) : sparseWf lo bound (sparseSet k v m) = true := by
  induction m generalizing lo with
  | nil => simp [sparseSet, sparseWf, hlo, hk]
  | cons c m ih =>
    obtain ⟨j, w⟩ := c
    rw [sparseWf_cons] at hm
    by_cases h1 : k < j
    · simp only [sparseSet, h1, if_true, sparseWf_cons]
      exact ⟨hlo, hk, by omega, hm.2⟩
    · by_cases h2 : k = j
      · subst h2
        simp only [sparseSet, h1, if_true, if_false, sparseWf_cons]
        exact ⟨hlo, hk, hm.2.2⟩
      · simp only [sparseSet, h1, h2, if_false, sparseWf_cons]
        exact ⟨hm.1, hm.2.1, ih (by omega) hm.2.2⟩

/-- In canonical form nothing is listed below the lower bound. -/
theorem sparseGet_of_lt {lo bound a : Nat} {m : List (Nat × α)} (hm : sparseWf lo bound m = true)
    (ha : a < lo) : sparseGet a m = none := by
  induction m generalizing lo with
  | nil => rfl
  | cons c m ih =>
    obtain ⟨j, w⟩ := c
    rw [sparseWf_cons] at hm
    rw [sparseGet_cons, if_neg (by omega)]
    exact ih hm.2.2 (by omega)

/-- In canonical form nothing is listed from the bound on. -/
theorem sparseGet_of_ge {lo bound a : Nat} {m : List (Nat × α)} (hm : sparseWf lo bound m = true)
    (ha : bound ≤ a) : sparseGet a m = none := by
  induction m generalizing lo with
  | nil => rfl
  | cons c m ih =>
    obtain ⟨j, w⟩ := c
    rw [sparseWf_cons] at hm
    rw [sparseGet_cons, if_neg (by omega)]
    exact ih hm.2.2

/-- Equal contents in canonical form are equal data. -/
theorem sparse_ext {lo bound : Nat} {m n : List (Nat × α)} (hm : sparseWf lo bound m = true)
    (hn : sparseWf lo bound n = true) (h : ∀ a, sparseGet a m = sparseGet a n) : m = n := by
  induction m generalizing n lo with
  | nil =>
    cases n with
    | nil => rfl
    | cons d n => have := h d.1; simp [sparseGet] at this
  | cons c m ih =>
    obtain ⟨j, v⟩ := c
    cases n with
    | nil => have := h j; simp [sparseGet] at this
    | cons d n =>
      obtain ⟨i, w⟩ := d
      rw [sparseWf_cons] at hm hn
      have hji : j = i := by
        rcases Nat.lt_trichotomy j i with hlt | heq | hlt
        · have := h j
          rw [sparseGet_cons, if_pos rfl, sparseGet_cons, if_neg (by omega),
            sparseGet_of_lt hn.2.2 (by omega)] at this
          cases this
        · exact heq
        · have := h i
          rw [sparseGet_cons, if_neg (by omega), sparseGet_of_lt hm.2.2 (by omega),
            sparseGet_cons, if_pos rfl] at this
          cases this
      subst hji
      have hvw : v = w := by have := h j; simpa [sparseGet_cons] using this
      subst hvw
      refine congrArg _ (ih hm.2.2 hn.2.2 fun a => ?_)
      have := h a
      rw [sparseGet_cons, sparseGet_cons] at this
      by_cases ha : j = a
      · subst ha
        rw [sparseGet_of_lt hm.2.2 (by omega), sparseGet_of_lt hn.2.2 (by omega)]
      · simpa [ha] using this

/-! ### Buffer memory -/

/-- What a byte lists after `MemWrite(a, n, v)` (20_memory R84). -/
theorem sparseGet_memWrite (a : Nat) (v : Word) (n : Nat) (m : Memory) (b : Nat) :
    sparseGet b (memWrite a v n m) =
      if a ≤ b ∧ b < a + n then some (v.extractLsb' (8 * (b - a)) 8) else sparseGet b m := by
  induction n with
  | zero => simp [memWrite]
  | succ k ih =>
    rw [memWrite, sparseGet_set, ih]
    by_cases h : b = a + k
    · subst h
      simp
    · by_cases h1 : a ≤ b ∧ b < a + k
      · simp [h, h1, show b < a + (k + 1) by omega]
      · rw [if_neg h, if_neg h1, if_neg (by omega)]

/-- A write inside the buffer keeps the memory's canonical form. -/
theorem memWrite_wf {cap a : Nat} (v : Word) {n : Nat} {m : Memory} (h : a + n ≤ cap)
    (hm : Memory.wf cap m = true) : Memory.wf cap (memWrite a v n m) = true := by
  induction n with
  | zero => exact hm
  | succ k ih => exact sparseWf_set _ (Nat.zero_le _) (by omega) (ih (by omega))

/-- Two canonical memories with the same listed bytes are the same data. -/
theorem memory_ext {cap : Nat} {m n : Memory} (hm : Memory.wf cap m = true)
    (hn : Memory.wf cap n = true) (h : ∀ a, sparseGet a m = sparseGet a n) : m = n :=
  sparse_ext hm hn h

/-- The memory of an engine just reset has the canonical form. -/
theorem resetOf_buffer_wf (p : Params) : Memory.wf p.bufCap (State.resetOf p).buffer = true := rfl

/-- A byte depends on the memory, the engine and the count of its resets only. -/
theorem bufByte_congr {s t : State} (hb : s.buffer = t.buffer) (hi : s.engineId = t.engineId)
    (he : s.epoch = t.epoch) (a : Nat) :
    s.bufByte a = t.bufByte a := by
  rw [State.bufByte, State.bufByte, hb, hi, he]

/-! ### Match table -/

/-- Reading the table after a write (42_match_table R180). -/
theorem tableRead_tableWrite (s : State) (k j : Nat) (off : BitVec 32) :
    (s.tableWrite k off).tableRead j = if j = k then some off else s.tableRead j :=
  sparseGet_set k j off s.table

theorem table_set_wf {size k : Nat} (off : BitVec 32) {t : Table} (hk : k < size)
    (ht : Table.wf size t = true) : Table.wf size (sparseSet k off t) = true :=
  sparseWf_set off (Nat.zero_le _) hk ht

/-- A cleared table reads `none` everywhere (42_match_table R187). -/
@[simp] theorem tableRead_tableClear (s : State) (k : Nat) : s.tableClear.tableRead k = none := rfl

/-- A table index is below the size of the active table (42_match_table R181). -/
theorem key_lt (s : State) (h : Word) : s.key h < 2 ^ s.hlog := by
  have : s.key h ≤ 2 ^ s.hlog - 1 := Nat.and_le_right
  have : 0 < 2 ^ s.hlog := Nat.two_pow_pos _
  omega

end Sys2Proof.Machine
end

