-- ==== Sys2Proof/Laws/Emitter.lean ====
section
/-! SUPPORT. What the counting loops, `fwdLen`, `bwdLen` and `emit` answer, once and for all
(43_match_emitter R200 to R206), and on which parts of the state they depend. -/

namespace Sys2Proof.Machine

open Sys2Proof

/-! ### The counting loop -/

theorem countWhile_ge (p : Nat → Bool) (fuel k : Nat) : k ≤ countWhile p fuel k := by
  induction fuel generalizing k with
  | zero => exact le_rfl
  | succ n ih =>
    rw [countWhile]
    split
    · exact (Nat.le_succ k).trans (ih (k + 1))
    · exact le_rfl

theorem countWhile_holds (p : Nat → Bool) (fuel k j : Nat) (hk : k ≤ j)
    (hj : j < countWhile p fuel k) : p j = true := by
  induction fuel generalizing k with
  | zero => simp only [countWhile] at hj; omega
  | succ n ih =>
    rw [countWhile] at hj
    split at hj
    · rename_i hp
      rcases Nat.eq_or_lt_of_le hk with rfl | h
      · exact hp
      · exact ih (k + 1) h hj
    · omega

/-- Once the test fails from `k + fuel` on, the loop stops where the test fails. -/
theorem countWhile_stops (p : Nat → Bool) (fuel k : Nat) (h : ∀ j, k + fuel ≤ j → p j = false) :
    p (countWhile p fuel k) = false := by
  induction fuel generalizing k with
  | zero => exact h k le_rfl
  | succ n ih =>
    rw [countWhile]
    split
    · exact ih (k + 1) fun j hj => h j (by omega)
    · rename_i hp; simpa using hp

/-- The number of turns is the first place where the test fails. -/
theorem countWhile_unique (p : Nat → Bool) (fuel n : Nat) (h : ∀ j, fuel ≤ j → p j = false)
    (hlt : ∀ j < n, p j = true) (hn : p n = false) : countWhile p fuel 0 = n := by
  have hs := countWhile_stops p fuel 0 (by simpa using h)
  rcases Nat.lt_trichotomy (countWhile p fuel 0) n with hl | he | hg
  · rw [hlt _ hl] at hs; cases hs
  · exact he
  · rw [countWhile_holds p fuel 0 n (Nat.zero_le _) hg] at hn; cases hn

/-! ### Forward and backward lengths -/

theorem fwdEq_iff (s : State) (a b k : Nat) :
    s.fwdEq a b k = true ↔
      a + k < s.bufN ∧ b + k < s.bufN ∧ s.bufByte (a + k) = s.bufByte (b + k) := by
  simp [State.fwdEq, and_assoc]

theorem bwdEq_iff (s : State) (a b lo k : Nat) :
    s.bwdEq a b lo k = true ↔
      k + 1 ≤ a ∧ k + 1 + lo ≤ b ∧ a - 1 - k < s.bufN ∧ b - 1 - k < s.bufN ∧
        s.bufByte (a - 1 - k) = s.bufByte (b - 1 - k) := by
  simp [State.bwdEq, and_assoc]

theorem fwdEq_of_lt_fwdLen {s : State} {a b j : Nat} (h : j < s.fwdLen a b) :
    s.fwdEq a b j = true :=
  countWhile_holds _ _ 0 j (Nat.zero_le _) h

theorem fwdEq_beyond (s : State) (a b j : Nat) (h : s.bufN ≤ j) : s.fwdEq a b j = false := by
  rw [← Bool.not_eq_true, fwdEq_iff]; omega

theorem fwdEq_fwdLen (s : State) (a b : Nat) : s.fwdEq a b (s.fwdLen a b) = false :=
  countWhile_stops _ _ _ fun j h => fwdEq_beyond s a b j (by simpa using h)

/-- `fwdLen` is the first place where its test fails (43_match_emitter R200). -/
theorem fwdLen_eq_iff (s : State) (a b n : Nat) :
    s.fwdLen a b = n ↔ (∀ j < n, s.fwdEq a b j = true) ∧ s.fwdEq a b n = false := by
  constructor
  · rintro rfl
    exact ⟨fun j => fwdEq_of_lt_fwdLen, fwdEq_fwdLen s a b⟩
  · rintro ⟨h1, h2⟩
    exact countWhile_unique _ _ _ (fwdEq_beyond s a b) h1 h2

theorem fwdLen_inside {s : State} {a b : Nat} (hb : b ≤ s.bufN) : b + s.fwdLen a b ≤ s.bufN := by
  rcases Nat.eq_zero_or_pos (s.fwdLen a b) with h | h
  · omega
  · have := (fwdEq_iff s a b _).1 (fwdEq_of_lt_fwdLen (Nat.sub_lt h one_pos))
    omega

theorem bwdEq_of_lt_bwdLen {s : State} {a b lo j : Nat} (h : j < s.bwdLen a b lo) :
    s.bwdEq a b lo j = true :=
  countWhile_holds _ _ 0 j (Nat.zero_le _) h

theorem bwdEq_beyond (s : State) (a b lo j : Nat) (h : a ≤ j) : s.bwdEq a b lo j = false := by
  rw [← Bool.not_eq_true, bwdEq_iff]; omega

theorem bwdEq_bwdLen (s : State) (a b lo : Nat) : s.bwdEq a b lo (s.bwdLen a b lo) = false :=
  countWhile_stops _ _ _ fun j h => bwdEq_beyond s a b lo j (by simpa using h)

/-- `bwdLen` is the first place where its test fails (43_match_emitter R201). -/
theorem bwdLen_eq_iff (s : State) (a b lo n : Nat) :
    s.bwdLen a b lo = n ↔ (∀ j < n, s.bwdEq a b lo j = true) ∧ s.bwdEq a b lo n = false := by
  constructor
  · rintro rfl
    exact ⟨fun j => bwdEq_of_lt_bwdLen, bwdEq_bwdLen s a b lo⟩
  · rintro ⟨h1, h2⟩
    exact countWhile_unique _ _ _ (bwdEq_beyond s a b lo) h1 h2

/-- The backward length reaches neither below offset 0 of the source nor below `lo`. -/
theorem bwdLen_bounds {s : State} {a b lo : Nat} (h : lo ≤ b) :
    s.bwdLen a b lo ≤ a ∧ s.bwdLen a b lo + lo ≤ b := by
  rcases Nat.eq_zero_or_pos (s.bwdLen a b lo) with h0 | h0
  · omega
  · have := (bwdEq_iff s a b lo _).1 (bwdEq_of_lt_bwdLen (Nat.sub_lt h0 one_pos))
    omega

/-! ### The emitter -/

theorem emitRejects_iff (s : State) (cand cur : Nat) :
    s.emitRejects cand cur = false ↔
      cand ≠ empty.toNat ∧ cand < cur ∧ cur ≤ s.bufN ∧ s.prevEnd.toNat ≤ cur ∧
        cur - cand ≤ 2 ^ s.wlog := by
  simp [State.emitRejects, and_assoc]

/-- What an accepted candidate is (43_match_emitter R203). -/
theorem emit_eq_some {s : State} {cand cur : Nat} {e : Emission} (h : s.emit cand cur = some e) :
    s.emitRejects cand cur = false ∧
      s.minm ≤ s.fwdLen cand cur + s.bwdLen cand cur s.prevEnd.toNat ∧
      e.desc.src = BitVec.ofNat 64 (cand - s.bwdLen cand cur s.prevEnd.toNat) ∧
      e.desc.dst = BitVec.ofNat 64 (cur - s.bwdLen cand cur s.prevEnd.toNat) ∧
      e.desc.len = BitVec.ofNat 64 (s.fwdLen cand cur + s.bwdLen cand cur s.prevEnd.toNat) ∧
      e.stop = BitVec.ofNat 64 (cur + s.fwdLen cand cur) := by
  rw [State.emit] at h
  split at h
  · cases h
  · rename_i hr
    dsimp only at h
    split at h
    · cases h
    · rename_i hm
      cases h
      exact ⟨by simpa using hr, by omega, rfl, rfl, rfl, rfl⟩

/-- Every descriptor that the emitter accepts is good (43_match_emitter R206): it has the shape, it
verifies, it starts at or after PREV_END, and it ends inside the buffer, at or after `cur`. -/
theorem emit_good {s : State} {cand cur : Nat} {e : Emission} (h : s.emit cand cur = some e) :
    e.desc.Shaped s ∧ e.desc.Verified s ∧ s.prevEnd.toNat ≤ e.desc.dst.toNat ∧
      e.desc.stop = e.stop.toNat ∧ e.stop.toNat ≤ s.bufN ∧ cur ≤ e.stop.toNat := by
  obtain ⟨hr, hm, hsrc, hdst, hlen, hstop⟩ := emit_eq_some h
  obtain ⟨-, hlt, hN, hprev, hwin⟩ := (emitRejects_iff s cand cur).1 hr
  obtain ⟨hb1, hb2⟩ := bwdLen_bounds (s := s) (a := cand) hprev
  have hf := fwdLen_inside (s := s) (a := cand) hN
  have hf' : ∀ j < s.fwdLen cand cur, _ := fun j hj => (fwdEq_iff s cand cur j).1 (fwdEq_of_lt_fwdLen hj)
  have hb' : ∀ j < s.bwdLen cand cur s.prevEnd.toNat, _ :=
    fun j hj => (bwdEq_iff s cand cur s.prevEnd.toNat j).1 (bwdEq_of_lt_bwdLen hj)
  have hbig : s.bufN < 2 ^ 64 := s.bufLen.isLt
  generalize s.fwdLen cand cur = f at *
  generalize s.bwdLen cand cur s.prevEnd.toNat = bk at *
  have esrc : e.desc.src.toNat = cand - bk := by
    rw [hsrc, BitVec.toNat_ofNat, Nat.mod_eq_of_lt (by omega)]
  have edst : e.desc.dst.toNat = cur - bk := by
    rw [hdst, BitVec.toNat_ofNat, Nat.mod_eq_of_lt (by omega)]
  have elen : e.desc.len.toNat = f + bk := by
    rw [hlen, BitVec.toNat_ofNat, Nat.mod_eq_of_lt (by omega)]
  have estop : e.stop.toNat = cur + f := by
    rw [hstop, BitVec.toNat_ofNat, Nat.mod_eq_of_lt (by omega)]
  refine ⟨⟨by omega, by omega, by omega⟩, fun j hj => ?_, by omega, ?_, by omega, by omega⟩
  · rw [esrc, edst]
    rcases Nat.lt_or_ge j bk with h1 | h1
    · have := (hb' (bk - 1 - j) (by omega)).2.2.2.2
      rwa [show cand - 1 - (bk - 1 - j) = cand - bk + j by omega,
        show cur - 1 - (bk - 1 - j) = cur - bk + j by omega] at this
    · have := (hf' (j - bk) (by omega)).2.2
      rwa [show cand + (j - bk) = cand - bk + j by omega,
        show cur + (j - bk) = cur - bk + j by omega] at this
  · rw [Desc.stop, edst, elen, estop]; omega

/-! ### What they depend on -/

/-- Two states agree on what a scan reads of the job: CFG, BUF_LEN, and the bytes below N. -/
structure SameInput (s t : State) : Prop where
  params : s.params = t.params
  cfg : s.cfg = t.cfg
  bufLen : s.bufLen = t.bufLen
  bytes : ∀ a < s.bufN, s.bufByte a = t.bufByte a

namespace SameInput

variable {s t : State}

theorem refl (s : State) : SameInput s s := ⟨rfl, rfl, rfl, fun _ _ => rfl⟩

theorem symm (h : SameInput s t) : SameInput t s :=
  ⟨h.params.symm, h.cfg.symm, h.bufLen.symm, fun a ha => (h.bytes a (by
    rwa [State.bufN, ← h.bufLen] at ha)).symm⟩

theorem trans {u : State} (h : SameInput s t) (g : SameInput t u) : SameInput s u :=
  ⟨h.params.trans g.params, h.cfg.trans g.cfg, h.bufLen.trans g.bufLen, fun a ha =>
    (h.bytes a ha).trans (g.bytes a (by rwa [State.bufN, ← h.bufLen]))⟩

/-- States with the same buffer, resets, parameters and configuration agree. -/
theorem of_eq (hp : s.params = t.params) (hc : s.cfg = t.cfg) (hl : s.bufLen = t.bufLen)
    (hb : s.buffer = t.buffer) (hi : s.engineId = t.engineId) (he : s.epoch = t.epoch) :
    SameInput s t :=
  ⟨hp, hc, hl, fun a _ => bufByte_congr hb hi he a⟩

theorem bufN (h : SameInput s t) : s.bufN = t.bufN := by rw [State.bufN, h.bufLen, State.bufN]
theorem wlog (h : SameInput s t) : s.wlog = t.wlog := by rw [State.wlog, h.cfg, State.wlog]
theorem hlog (h : SameInput s t) : s.hlog = t.hlog := by rw [State.hlog, h.cfg, State.hlog]
theorem hrl (h : SameInput s t) : s.hrl = t.hrl := by rw [State.hrl, h.cfg, State.hrl]
theorem bmode (h : SameInput s t) : s.bmode = t.bmode := by rw [State.bmode, h.cfg, State.bmode]
theorem minm (h : SameInput s t) : s.minm = t.minm := by rw [State.minm, h.cfg, State.minm]

theorem isBoundary (h : SameInput s t) (w : Word) : s.isBoundary w = t.isBoundary w := by
  simp only [State.isBoundary, h.hrl, h.bmode]

theorem key (h : SameInput s t) (w : Word) : s.key w = t.key w := by
  simp only [State.key, h.hlog]

theorem fwdEq (h : SameInput s t) (a b k : Nat) : s.fwdEq a b k = t.fwdEq a b k := by
  rw [Bool.eq_iff_iff, fwdEq_iff, fwdEq_iff, ← h.bufN]
  constructor
  · rintro ⟨h1, h2, h3⟩; exact ⟨h1, h2, by rw [← h.bytes _ h1, ← h.bytes _ h2, h3]⟩
  · rintro ⟨h1, h2, h3⟩; exact ⟨h1, h2, by rw [h.bytes _ h1, h.bytes _ h2, h3]⟩

theorem fwdLen (h : SameInput s t) (a b : Nat) : s.fwdLen a b = t.fwdLen a b := by
  rw [State.fwdLen, State.fwdLen, h.bufN]
  exact congrArg (fun p => countWhile p t.bufN 0) (funext fun k => h.fwdEq a b k)

theorem bwdEq (h : SameInput s t) (a b lo k : Nat) : s.bwdEq a b lo k = t.bwdEq a b lo k := by
  rw [Bool.eq_iff_iff, bwdEq_iff, bwdEq_iff, ← h.bufN]
  constructor
  · rintro ⟨h0, h0', h1, h2, h3⟩
    exact ⟨h0, h0', h1, h2, by rw [← h.bytes _ h1, ← h.bytes _ h2, h3]⟩
  · rintro ⟨h0, h0', h1, h2, h3⟩
    exact ⟨h0, h0', h1, h2, by rw [h.bytes _ h1, h.bytes _ h2, h3]⟩

theorem bwdLen (h : SameInput s t) (a b lo : Nat) : s.bwdLen a b lo = t.bwdLen a b lo :=
  congrArg (fun p => countWhile p a 0) (funext fun k => h.bwdEq a b lo k)

/-- `emit` reads N, CFG, the bytes below N and PREV_END, and nothing else (43_match_emitter R203). -/
theorem emit (h : SameInput s t) (hp : s.prevEnd = t.prevEnd) (cand cur : Nat) :
    s.emit cand cur = t.emit cand cur := by
  have hr : s.emitRejects cand cur = t.emitRejects cand cur := by
    simp only [State.emitRejects, h.bufN, h.wlog, hp]
  simp only [State.emit, hr, h.fwdLen, h.bwdLen, h.minm, hp]

/-- The shape of a descriptor is a matter of CFG. -/
theorem shaped (h : SameInput s t) {d : Desc} (hd : d.Shaped s) : d.Shaped t :=
  ⟨h.minm ▸ hd.long, hd.backward, h.wlog ▸ hd.near⟩

end SameInput

end Sys2Proof.Machine
end

