-- ==== Sys2Proof/Laws/Scan.lean ====
section
/-! SUPPORT. What one STEP_BODY and SCAN's loop can do (44_scan_control R236, R238): the cases of the
body once, what a scan leaves alone, and that POS rises to N. -/

namespace Sys2Proof.Machine

open Sys2Proof

/-! ### What a scan leaves alone -/

/-- `t` differs from `s` at most in the scan registers, the counters, EOB, the FIFO and the table. -/
def ScanFrame (s t : State) : Prop :=
  t = { s with
    eob := t.eob, hash := t.hash, pos := t.pos, cstart := t.cstart, prevEnd := t.prevEnd
    bcount := t.bcount, hcount := t.hcount, mcount := t.mcount, fifo := t.fifo, table := t.table }

theorem ScanFrame.refl (s : State) : ScanFrame s s := rfl

theorem ScanFrame.trans {s t u : State} (h : ScanFrame s t) (g : ScanFrame t u) : ScanFrame s u := by
  unfold ScanFrame at *
  rw [g, h]

theorem ScanFrame.sameInput {s t : State} (h : ScanFrame s t) : SameInput s t := by
  rw [h]; exact .of_eq rfl rfl rfl rfl rfl rfl

theorem ScanFrame.params {s t : State} (h : ScanFrame s t) : t.params = s.params := by rw [h]
theorem ScanFrame.cfgOk {s t : State} (h : ScanFrame s t) : t.cfgOk = s.cfgOk := by rw [h]
theorem ScanFrame.engine {s t : State} (h : ScanFrame s t) : t.engine = s.engine := by rw [h]
theorem ScanFrame.done {s t : State} (h : ScanFrame s t) : t.done = s.done := by rw [h]
theorem ScanFrame.regs {s t : State} (h : ScanFrame s t) : t.regs = s.regs := by rw [h]

theorem hashByte_scanFrame (s : State) : ScanFrame s s.hashByte := rfl
theorem markBoundary_scanFrame (s : State) : ScanFrame s s.markBoundary := rfl
theorem countHit_scanFrame (s : State) : ScanFrame s s.countHit := rfl
theorem forceClose_scanFrame (s : State) : ScanFrame s s.forceClose := rfl
theorem finishJump_scanFrame (s : State) (e : Emission) : ScanFrame s (s.finishJump e) := rfl

@[simp] theorem finishJump_pos (s : State) (e : Emission) : (s.finishJump e).pos = e.stop := rfl
@[simp] theorem finishJump_hash (s : State) (e : Emission) : (s.finishJump e).hash = 0 := rfl
@[simp] theorem finishJump_cstart (s : State) (e : Emission) : (s.finishJump e).cstart = e.stop := rfl
@[simp] theorem finishJump_prevEnd (s : State) (e : Emission) : (s.finishJump e).prevEnd = e.stop := rfl
@[simp] theorem finishJump_fifo (s : State) (e : Emission) :
    (s.finishJump e).fifo = s.fifo ++ [e.desc] := rfl
@[simp] theorem finishJump_table (s : State) (e : Emission) : (s.finishJump e).table = s.table := rfl
@[simp] theorem finishJump_eob (s : State) (e : Emission) :
    (s.finishJump e).eob = (s.eob || e.stop == s.bufLen) := rfl

/-! ### One STEP_BODY -/

/-- The state in which a STEP_BODY leaves the machine, run or held. -/
def BodyEnd.state : BodyEnd → State
  | .ran t => t
  | .held _ t => t

/-- The state of a STEP_BODY that found a boundary, with the hit counted if there was one. -/
def State.afterBoundary (s : State) (hit : Bool) : State :=
  if hit then s.hashByte.markBoundary.countHit else s.hashByte.markBoundary

/-- Everything that one STEP_BODY can do (44_scan_control R236). -/
theorem stepBody_cases (s : State) :
    (s.eob = true ∧ s.stepBody = .ran s) ∨
    (s.eob = false ∧ s.bufN ≤ s.pos.toNat ∧ s.stepBody = .ran { s with eob := true }) ∨
    (s.eob = false ∧ s.pos.toNat < s.bufN ∧ s.hashByte.atBoundary s.pos.toNat = false ∧
      s.stepBody = .ran s.hashByte.forceClose) ∨
    (s.eob = false ∧ s.pos.toNat < s.bufN ∧ s.hashByte.atBoundary s.pos.toNat = true ∧
      ∃ hit, s.stepBody = .ran (s.afterBoundary hit).forceClose) ∨
    (s.eob = false ∧ s.pos.toNat < s.bufN ∧ s.hashByte.atBoundary s.pos.toNat = true ∧
      ∃ (c : BitVec 32) (e : Emission),
        (s.afterBoundary true).emit c.toNat (s.afterBoundary true).pos.toNat = some e ∧
        (((s.afterBoundary true).fifoFull = false ∧
            s.stepBody = .ran ((s.afterBoundary true).finishJump e)) ∨
          ((s.afterBoundary true).fifoFull = true ∧
            s.stepBody = .held e (s.afterBoundary true)))) := by
  cases he : s.eob with
  | true => exact .inl ⟨rfl, by simp [State.stepBody, he]⟩
  | false =>
    right
    rcases Nat.lt_or_ge s.pos.toNat s.bufN with hp | hp
    · right
      cases hb : s.hashByte.atBoundary s.pos.toNat with
      | false => exact .inl ⟨rfl, hp, rfl, by simp [State.stepBody, he, Nat.not_le.2 hp, hb]⟩
      | true =>
        right
        cases ht : s.hashByte.tableRead (s.hashByte.key s.hashByte.hash) with
        | none =>
          refine .inl ⟨rfl, hp, rfl, false, ?_⟩
          simp only [State.stepBody, he, Nat.not_le.2 hp, hb, ht, Bool.false_eq_true, if_false, if_true]
          rfl
        | some c =>
          have hbody : s.stepBody = (s.afterBoundary true).bodyAtHit c := by
            simp only [State.stepBody, he, Nat.not_le.2 hp, hb, ht, Bool.false_eq_true, if_false,
              if_true]
            rfl
          cases hm : (s.afterBoundary true).emit c.toNat (s.afterBoundary true).pos.toNat with
          | none => exact .inl ⟨rfl, hp, rfl, true, by rw [hbody, State.bodyAtHit, hm]⟩
          | some e =>
            refine .inr ⟨rfl, hp, rfl, c, e, hm, ?_⟩
            cases hf : (s.afterBoundary true).fifoFull with
            | false => exact .inl ⟨rfl, by simp [hbody, State.bodyAtHit, hm, hf]⟩
            | true => exact .inr ⟨rfl, by simp [hbody, State.bodyAtHit, hm, hf]⟩
    · exact .inl ⟨rfl, hp, by simp [State.stepBody, he, hp]⟩

theorem afterBoundary_scanFrame (s : State) (hit : Bool) : ScanFrame s (s.afterBoundary hit) := by
  cases hit <;> rfl

/-- A STEP_BODY leaves everything but the scan state, the FIFO and the table alone. -/
theorem stepBody_scanFrame (s : State) : ScanFrame s s.stepBody.state := by
  rcases stepBody_cases s with ⟨-, h⟩ | ⟨-, -, h⟩ | ⟨-, -, -, h⟩ | ⟨-, -, -, hit, h⟩ |
    ⟨-, -, -, c, e, -, ⟨-, h⟩ | ⟨-, h⟩⟩ <;> rw [h]
  · rfl
  · rfl
  · rfl
  · exact (afterBoundary_scanFrame s hit).trans (forceClose_scanFrame _)
  · exact (afterBoundary_scanFrame s true).trans (finishJump_scanFrame _ e)
  · exact afterBoundary_scanFrame s true

/-- The position just past the byte at POS. -/
theorem hashByte_pos_toNat {s : State} (h : s.pos.toNat < s.bufN) :
    s.hashByte.pos.toNat = s.pos.toNat + 1 := by
  have : s.bufN < 2 ^ 64 := s.bufLen.isLt
  rw [State.hashByte_pos, BitVec.toNat_add]
  exact Nat.mod_eq_of_lt (by simpa using (by omega : s.pos.toNat + 1 < 2 ^ 64))

@[simp] theorem afterBoundary_pos (s : State) (hit : Bool) :
    (s.afterBoundary hit).pos = s.hashByte.pos := by cases hit <;> rfl

theorem pos_eq_bufLen_iff (s : State) : (s.pos == s.bufLen) = decide (s.pos.toNat = s.bufN) := by
  rw [Bool.eq_iff_iff, beq_iff_eq, decide_eq_true_iff, State.bufN]
  exact BitVec.toNat_inj.symm

/-- POS after a STEP_BODY with EOB = 0 and POS below N: higher, at most N, and EOB is then exactly
POS = N, unless the body holds before its jump (44_scan_control R236, R241). -/
theorem stepBody_pos {s : State} (he : s.eob = false) (hp : s.pos.toNat < s.bufN) :
    (∀ t, s.stepBody = .ran t → s.pos.toNat < t.pos.toNat ∧ t.pos.toNat ≤ s.bufN ∧
      (t.eob = true ↔ t.pos.toNat = s.bufN)) ∧
    (∀ e t, s.stepBody = .held e t → t.pos.toNat = s.pos.toNat + 1 ∧ t.eob = false ∧
      t.fifoFull = true) := by
  have h1 := hashByte_pos_toNat hp
  rcases stepBody_cases s with ⟨h, -⟩ | ⟨-, h, -⟩ | ⟨-, -, -, h⟩ | ⟨-, -, -, hit, h⟩ |
    ⟨-, -, -, c, e, hm, ⟨-, h⟩ | ⟨hf, h⟩⟩
  · rw [he] at h; cases h
  · omega
  · rw [h]
    refine ⟨fun t ht => ?_, fun e t ht => (nomatch ht)⟩
    cases ht
    rw [State.forceClose_pos, State.forceClose_eob, pos_eq_bufLen_iff, h1, State.hashByte_eob, he]
    exact ⟨by omega, by omega, by simp only [Bool.false_or, decide_eq_true_iff]; rfl⟩
  · rw [h]
    refine ⟨fun t ht => ?_, fun e t ht => (nomatch ht)⟩
    cases ht
    rw [State.forceClose_pos, State.forceClose_eob, pos_eq_bufLen_iff, afterBoundary_pos, h1,
      show (s.afterBoundary hit).eob = false by cases hit <;> exact he,
      show (s.afterBoundary hit).bufN = s.bufN by cases hit <;> rfl]
    exact ⟨by omega, by omega, by simp⟩
  · rw [h]
    refine ⟨fun t ht => ?_, fun e t ht => (nomatch ht)⟩
    cases ht
    have hg := emit_good hm
    rw [afterBoundary_pos, h1, show (s.afterBoundary true).bufN = s.bufN from rfl] at hg
    have hb : (s.afterBoundary true).eob = false := he
    have hl : (s.afterBoundary true).bufLen = s.bufLen := rfl
    rw [finishJump_pos, finishJump_eob, hb, hl, Bool.false_or, beq_iff_eq, State.bufN]
    exact ⟨by omega, hg.2.2.2.2.1, BitVec.toNat_inj.symm⟩
  · rw [h]
    refine ⟨fun t ht => (nomatch ht), fun e' t ht => ?_⟩
    cases ht
    exact ⟨by rw [afterBoundary_pos, h1], he, hf⟩

/-! ### SCAN's loop -/

/-- What the loop preserves: whatever holds of a state that a STEP_BODY ran from, with EOB = 0, and is
kept by the body. -/
theorem scanLoop_induction {P : State → Prop} {Q : Emission → State → Prop}
    (hran : ∀ s t, P s → s.eob = false → s.stepBody = .ran t → P t)
    (hheld : ∀ s e t, P s → s.eob = false → s.stepBody = .held e t → Q e t) :
    ∀ (fuel : Nat) (s : State), P s →
      (∀ t, scanLoop fuel s = .ran t → P t) ∧ (∀ e t, scanLoop fuel s = .held e t → Q e t) := by
  intro fuel
  induction fuel with
  | zero =>
    intro s hs
    exact ⟨fun t h => by cases h; exact hs, fun e t h => (nomatch h)⟩
  | succ n ih =>
    intro s hs
    cases he : s.eob with
    | true =>
      simp only [scanLoop, he, if_true]
      exact ⟨fun t h => by cases h; exact hs, fun e t h => (nomatch h)⟩
    | false =>
      simp only [scanLoop, he, Bool.false_eq_true, if_false]
      cases hb : s.stepBody with
      | ran t => exact ih t (hran s t hs he hb)
      | held e t =>
        exact ⟨fun u h => (nomatch h), fun e' u h => by cases h; exact hheld s e t hs he hb⟩

theorem scanLoop_scanFrame (fuel : Nat) (s : State) : ScanFrame s (scanLoop fuel s).state := by
  have := scanLoop_induction (P := ScanFrame s) (Q := fun _ t => ScanFrame s t)
    (fun u t hu _ hb => hu.trans (by have := stepBody_scanFrame u; rwa [hb] at this))
    (fun u e t hu _ hb => hu.trans (by have := stepBody_scanFrame u; rwa [hb] at this))
    fuel s (.refl s)
  cases h : scanLoop fuel s with
  | ran t => exact this.1 t h
  | held e t => exact this.2 e t h

/-- With fuel for the bytes that are left and one more turn, the loop ends with EOB = 1, or it holds
with the FIFO full (44_scan_control R238, R241). -/
theorem scanLoop_ends (fuel : Nat) (s : State) (hf : s.bufN - s.pos.toNat < fuel) :
    (∀ t, scanLoop fuel s = .ran t → t.eob = true) ∧
    (∀ e t, scanLoop fuel s = .held e t → t.fifoFull = true) := by
  induction fuel generalizing s with
  | zero => omega
  | succ n ih =>
    cases he : s.eob with
    | true =>
      simp only [scanLoop, he, if_true]
      exact ⟨fun t h => by cases h; exact he, fun e t h => (nomatch h)⟩
    | false =>
      simp only [scanLoop, he, Bool.false_eq_true, if_false]
      rcases Nat.lt_or_ge s.pos.toNat s.bufN with hp | hp
      · have hpos := stepBody_pos he hp
        cases hb : s.stepBody with
        | ran t =>
          obtain ⟨h1, h2, h3⟩ := hpos.1 t hb
          have hN : t.bufN = s.bufN := by
            have := stepBody_scanFrame s
            rw [hb] at this
            exact this.sameInput.bufN.symm
          exact ih t (by rw [hN]; omega)
        | held e t =>
          refine ⟨fun u h => (nomatch h), fun e' u h => ?_⟩
          cases h
          exact (hpos.2 e t hb).2.2
      · have hb : s.stepBody = .ran { s with eob := true } := by simp [State.stepBody, he, hp]
        rw [hb]
        cases n with
        | zero =>
          exact ⟨fun t h => by cases h; rfl, fun e t h => (nomatch h)⟩
        | succ n =>
          exact ⟨fun t h => by cases h; rfl, fun e t h => (nomatch h)⟩

/-- More fuel than needed changes nothing. -/
theorem scanLoop_fuel (fuel fuel' : Nat) (s : State) (hf : s.bufN - s.pos.toNat < fuel)
    (hf' : s.bufN - s.pos.toNat < fuel') : scanLoop fuel s = scanLoop fuel' s := by
  induction fuel generalizing s fuel' with
  | zero => omega
  | succ n ih =>
    cases fuel' with
    | zero => omega
    | succ n' =>
      cases he : s.eob with
      | true => simp only [scanLoop, he, if_true]
      | false =>
        simp only [scanLoop, he, Bool.false_eq_true, if_false]
        rcases Nat.lt_or_ge s.pos.toNat s.bufN with hp | hp
        · cases hb : s.stepBody with
          | ran t =>
            obtain ⟨h1, h2, h3⟩ := (stepBody_pos he hp).1 t hb
            have hN : t.bufN = s.bufN := by
              have := stepBody_scanFrame s
              rw [hb] at this
              exact this.sameInput.bufN.symm
            exact ih n' t (by rw [hN]; omega) (by rw [hN]; omega)
          | held e t => rfl
        · have hb : s.stepBody = .ran { s with eob := true } := by simp [State.stepBody, he, hp]
          rw [hb]
          cases n <;> cases n' <;> rfl

/-- SCAN from a state with EOB = 0 is one STEP_BODY and then SCAN (44_scan_control R238). -/
theorem scanToEnd_step {s t : State} (he : s.eob = false) (hb : s.stepBody = .ran t) :
    s.scanToEnd = t.scanToEnd := by
  have hN : t.bufN = s.bufN := by
    have := stepBody_scanFrame s
    rw [hb] at this
    exact this.sameInput.bufN.symm
  have h0 : s.scanToEnd = scanLoop (s.bufN - s.pos.toNat) t := by
    rw [State.scanToEnd, scanLoop, he, hb]; rfl
  rcases Nat.lt_or_ge s.pos.toNat s.bufN with hp | hp
  · obtain ⟨h1, h2, -⟩ := (stepBody_pos he hp).1 t hb
    rw [h0, State.scanToEnd, hN]
    rcases Nat.lt_or_ge t.pos.toNat s.bufN with hlt | hge
    · exact scanLoop_fuel _ _ t (by rw [hN]; omega) (by rw [hN]; omega)
    · have ht : t.eob = true := ((stepBody_pos he hp).1 t hb).2.2.2 (by omega)
      obtain ⟨m, hm⟩ := Nat.exists_eq_add_one.2 (show 0 < s.bufN - s.pos.toNat by omega)
      rw [hm, scanLoop, scanLoop, ht]; rfl
  · have ht : t = { s with eob := true } := by
      have : s.stepBody = .ran { s with eob := true } := by simp [State.stepBody, he, hp]
      rw [this] at hb; cases hb; rfl
    have h1 : s.bufN - s.pos.toNat = 0 := by omega
    rw [h0, State.scanToEnd, hN, show t.pos = s.pos by rw [ht], h1, scanLoop, scanLoop,
      show t.eob = true by rw [ht]]
    rfl

theorem scanToEnd_of_eob {s : State} (he : s.eob = true) : s.scanToEnd = .ran s := by
  rw [State.scanToEnd, scanLoop, he]; rfl

theorem scanToEnd_of_held {s t : State} {e : Emission} (he : s.eob = false)
    (hb : s.stepBody = .held e t) : s.scanToEnd = .held e t := by
  rw [State.scanToEnd, scanLoop, he, hb]; rfl

/-! ### The engine's own state -/

/-- `s` with another engine state. -/
def State.withEngine (g : Engine) (s : State) : State := { s with engine := g }

/-- The same end, with another engine state. -/
def BodyEnd.withEngine (g : Engine) : BodyEnd → BodyEnd
  | .ran t => .ran (t.withEngine g)
  | .held e t => .held e (t.withEngine g)

theorem withEngine_emit (g : Engine) (s : State) (cand cur : Nat) :
    (s.withEngine g).emit cand cur = s.emit cand cur := rfl

/-- A STEP_BODY neither reads nor writes the engine's own state. -/
theorem stepBody_withEngine (g : Engine) (s : State) :
    (s.withEngine g).stepBody = s.stepBody.withEngine g := by
  have hw : (s.withEngine g).stepBody =
      if s.eob then .ran (s.withEngine g)
      else if s.bufN ≤ s.pos.toNat then .ran (State.withEngine g { s with eob := true })
      else if s.hashByte.atBoundary s.pos.toNat then
        match s.hashByte.tableRead (s.hashByte.key s.hashByte.hash) with
        | none => .ran (s.hashByte.markBoundary.forceClose.withEngine g)
        | some c => (s.hashByte.markBoundary.countHit.withEngine g).bodyAtHit c
      else .ran (s.hashByte.forceClose.withEngine g) := rfl
  rw [hw, State.stepBody]
  split
  · rfl
  · split
    · rfl
    · split
      · cases s.hashByte.tableRead (s.hashByte.key s.hashByte.hash) with
        | none => rfl
        | some c =>
          generalize s.hashByte.markBoundary.countHit = v
          simp only [State.bodyAtHit]
          rw [withEngine_emit, show (v.withEngine g).pos = v.pos from rfl,
            show (v.withEngine g).fifoFull = v.fifoFull from rfl]
          cases v.emit c.toNat v.pos.toNat with
          | none => rfl
          | some e => cases v.fifoFull <;> rfl
      · rfl

theorem scanLoop_withEngine (g : Engine) (fuel : Nat) (s : State) :
    scanLoop fuel (s.withEngine g) = (scanLoop fuel s).withEngine g := by
  induction fuel generalizing s with
  | zero => rfl
  | succ n ih =>
    rw [scanLoop, scanLoop, show (s.withEngine g).eob = s.eob from rfl]
    split
    · rfl
    · rw [stepBody_withEngine]
      cases s.stepBody with
      | ran t => exact ih t
      | held e t => rfl

/-- SCAN goes on alike, whatever the engine's state was before. -/
theorem runScan_withEngine (g : Engine) (s : State) : (s.withEngine g).runScan = s.runScan := by
  have h : (s.withEngine g).scanToEnd = s.scanToEnd.withEngine g := scanLoop_withEngine g _ s
  rw [State.runScan, State.runScan, h]
  cases s.scanToEnd <;> rfl

end Sys2Proof.Machine
end

