-- ==== Sys2Proof/Laws/Depth.lean ====
section
/-! SUPPORT. The same engine with another FIFO (10_state R52): nothing that a scan computes depends on the
FIFO's depth or content, so a scan that holds and the same scan with a FIFO that never fills go through the
same states. -/

namespace Sys2Proof.Machine

open Sys2Proof

/-- `s` with a FIFO of depth `depth` that holds `queue`, after the host has popped `popped`. -/
def State.withFifo (depth : Nat) (queue popped : List Desc) (s : State) : State :=
  { s with params := { s.params with fifoDepth := depth }, fifo := queue, popped := popped }

theorem withFifo_emit (depth : Nat) (queue popped : List Desc) (s : State) (cand cur : Nat) :
    (s.withFifo depth queue popped).emit cand cur = s.emit cand cur := rfl

theorem withFifo_fifoFull {depth : Nat} {queue : List Desc} (h : queue.length < depth)
    (popped : List Desc) (s : State) : (s.withFifo depth queue popped).fifoFull = false :=
  decide_eq_false (by show ¬depth ≤ queue.length; omega)

/-- One STEP_BODY with a FIFO that has room: where the narrow FIFO lets the body run, the wide one does
the same and queues the same descriptor, if any; where the narrow one holds, the wide one pushes. -/
theorem stepBody_withFifo {depth : Nat} {queue : List Desc} (popped : List Desc) (s : State)
    (hroom : queue.length < depth) :
    (∀ t, s.stepBody = .ran t → ∃ q : List Desc, q.length ≤ 1 ∧ t.fifo = s.fifo ++ q ∧
      (s.withFifo depth queue popped).stepBody = .ran (t.withFifo depth (queue ++ q) popped)) ∧
    (∀ e t, s.stepBody = .held e t → t.fifo = s.fifo ∧
      (s.withFifo depth queue popped).stepBody =
        .ran ((t.finishJump e).withFifo depth (queue ++ [e.desc]) popped)) := by
  have hw : (s.withFifo depth queue popped).stepBody =
      if s.eob then .ran (s.withFifo depth queue popped)
      else if s.bufN ≤ s.pos.toNat then
        .ran (State.withFifo depth queue popped { s with eob := true })
      else if s.hashByte.atBoundary s.pos.toNat then
        match s.hashByte.tableRead (s.hashByte.key s.hashByte.hash) with
        | none => .ran (s.hashByte.markBoundary.forceClose.withFifo depth queue popped)
        | some c => (s.hashByte.markBoundary.countHit.withFifo depth queue popped).bodyAtHit c
      else .ran (s.hashByte.forceClose.withFifo depth queue popped) := rfl
  -- a body that pushes nothing
  have quiet : ∀ v : State, v.fifo = s.fifo →
      (∀ t, BodyEnd.ran v = .ran t → ∃ q : List Desc, q.length ≤ 1 ∧ t.fifo = s.fifo ++ q ∧
        BodyEnd.ran (v.withFifo depth queue popped) =
          .ran (t.withFifo depth (queue ++ q) popped)) ∧
      (∀ e t, BodyEnd.ran v = .held e t → t.fifo = s.fifo ∧
        BodyEnd.ran (v.withFifo depth queue popped) =
          .ran ((t.finishJump e).withFifo depth (queue ++ [e.desc]) popped)) := by
    intro v hv
    exact ⟨fun t h => by cases h; exact ⟨[], by simp, by simpa using hv, by simp⟩,
      fun e t h => (nomatch h)⟩
  rw [hw, State.stepBody]
  split
  · exact quiet s rfl
  · split
    · exact quiet _ rfl
    · split
      · cases s.hashByte.tableRead (s.hashByte.key s.hashByte.hash) with
        | none => exact quiet _ rfl
        | some c =>
          generalize hv : s.hashByte.markBoundary.countHit = v
          have hvf : v.fifo = s.fifo := by rw [← hv]; rfl
          simp only [State.bodyAtHit]
          rw [withFifo_emit, show (v.withFifo depth queue popped).pos = v.pos from rfl]
          cases v.emit c.toNat v.pos.toNat with
          | none => exact quiet _ hvf
          | some e =>
            simp only [withFifo_fifoFull hroom, Bool.false_eq_true, if_false]
            cases v.fifoFull with
            | true => exact ⟨fun t h => (nomatch h), fun e' t h => by cases h; exact ⟨hvf, rfl⟩⟩
            | false =>
              exact ⟨fun t h => by cases h; exact ⟨[e.desc], by simp, by simp [hvf], rfl⟩,
                fun e t h => (nomatch h)⟩
      · exact quiet _ rfl

/-- How far one STEP_BODY with EOB = 0 gets: EOB rises, or POS rises; a hold comes before a jump that
raises POS (44_scan_control R236, R241). -/
theorem stepBody_advance {s : State} (he : s.eob = false) :
    (∀ t, s.stepBody = .ran t → t.bufN = s.bufN ∧
      (t.eob = true ∨ s.pos.toNat < t.pos.toNat ∧ t.pos.toNat ≤ s.bufN)) ∧
    (∀ e t, s.stepBody = .held e t → t.bufN = s.bufN ∧ t.fifoFull = true ∧
      s.pos.toNat < e.stop.toNat ∧ e.stop.toNat ≤ s.bufN) := by
  have hN : s.stepBody.state.bufN = s.bufN := (stepBody_scanFrame s).sameInput.bufN.symm
  rcases Nat.lt_or_ge s.pos.toNat s.bufN with hp | hp
  · constructor
    · intro t h
      rw [h] at hN
      have := (stepBody_pos he hp).1 t h
      exact ⟨hN, .inr ⟨this.1, this.2.1⟩⟩
    · intro e t h
      rw [h] at hN
      refine ⟨hN, ((stepBody_pos he hp).2 e t h).2.2, ?_⟩
      rcases stepBody_cases s with ⟨-, h'⟩ | ⟨-, -, h'⟩ | ⟨-, -, -, h'⟩ | ⟨-, -, -, hit, h'⟩ |
        ⟨-, -, -, c, e', hm, ⟨-, h'⟩ | ⟨-, h'⟩⟩ <;> rw [h'] at h <;> cases h
      obtain ⟨-, -, -, -, hstop, hcur⟩ := emit_good hm
      rw [afterBoundary_pos, hashByte_pos_toNat hp] at hcur
      exact ⟨by omega, hstop⟩
  · have hb : s.stepBody = .ran { s with eob := true } := by simp [State.stepBody, he, hp]
    rw [hb]
    exact ⟨fun t h => by cases h; exact ⟨rfl, .inl rfl⟩, fun e t h => (nomatch h)⟩

/-- SCAN with a FIFO that has room for a descriptor at every byte that is left: where the narrow FIFO
lets the scan end, the wide one ends alike; where the narrow one holds, the wide one has come as far and
scans on past the held push. -/
theorem scanToEnd_withFifo (depth : Nat) (popped : List Desc) (n : Nat) :
    ∀ (s : State) (queue : List Desc), s.bufN - s.pos.toNat ≤ n → queue.length + n < depth →
    (∀ t, s.scanToEnd = .ran t → ∃ q : List Desc, t.fifo = s.fifo ++ q ∧
      (s.withFifo depth queue popped).scanToEnd = .ran (t.withFifo depth (queue ++ q) popped)) ∧
    (∀ e t, s.scanToEnd = .held e t → ∃ q : List Desc, t.fifo = s.fifo ++ q ∧
      (s.withFifo depth queue popped).scanToEnd =
        ((t.finishJump e).withFifo depth (queue ++ q ++ [e.desc]) popped).scanToEnd ∧
      (queue ++ q ++ [e.desc]).length + (s.bufN - e.stop.toNat) ≤ queue.length + n ∧
      t.bufN = s.bufN ∧ t.fifoFull = true ∧
      s.pos.toNat < e.stop.toNat ∧ e.stop.toNat ≤ s.bufN) := by
  induction n using Nat.strong_induction_on with
  | _ n ih =>
    intro s queue hn hroom
    cases he : s.eob with
    | true =>
      rw [scanToEnd_of_eob he, scanToEnd_of_eob (s := s.withFifo depth queue popped) he]
      exact ⟨fun t h => by cases h; exact ⟨[], by simp, by simp⟩, fun e t h => (nomatch h)⟩
    | false =>
      have hbody := stepBody_withFifo popped s (show queue.length < depth by omega)
      cases hb : s.stepBody with
      | ran t =>
        obtain ⟨q, h1, h2, h3⟩ := hbody.1 t hb
        rw [scanToEnd_step he hb, scanToEnd_step (s := s.withFifo depth queue popped) he h3]
        obtain ⟨hN, h | ⟨g1, g2⟩⟩ := (stepBody_advance he).1 t hb
        · rw [scanToEnd_of_eob h,
            scanToEnd_of_eob (s := t.withFifo depth (queue ++ q) popped) h]
          exact ⟨fun t h => by cases h; exact ⟨q, h2, rfl⟩, fun e t h => (nomatch h)⟩
        · have i := ih (n - 1) (by omega) t (queue ++ q) (by omega)
            (by rw [List.length_append]; omega)
          constructor
          · intro u hu
            obtain ⟨r, k1, k2⟩ := i.1 u hu
            exact ⟨q ++ r, by rw [k1, h2, List.append_assoc], by rw [k2, List.append_assoc]⟩
          · intro e u hu
            obtain ⟨r, k1, k2, k3, k4, k5, k6, k7⟩ := i.2 e u hu
            refine ⟨q ++ r, by rw [k1, h2, List.append_assoc],
              by rw [k2]; simp only [List.append_assoc], ?_, k4.trans hN, k5, by omega, by omega⟩
            simp only [List.length_append] at k3 ⊢
            omega
      | held e t =>
        obtain ⟨h1, h2⟩ := hbody.2 e t hb
        rw [scanToEnd_of_held he hb, scanToEnd_step (s := s.withFifo depth queue popped) he h2]
        obtain ⟨k1, k2, k3, k4⟩ := (stepBody_advance he).2 e t hb
        refine ⟨fun t h => (nomatch h), fun e' t' h => ?_⟩
        cases h
        refine ⟨[], by simp [h1], by simp, ?_, k1, k2, k3, k4⟩
        simp only [List.length_append, List.length_singleton, List.length_nil]
        omega

end Sys2Proof.Machine
end

