-- ==== Sys2Proof/Laws/Encoding.lean ====
section
/-! SUPPORT. The fields of a word and the word of some fields are inverse to each other (30_encoding
R111), and the value of a CMD write carries its word (R110). -/

namespace Sys2Proof

/-- The fields of the word made from some fields are those fields. -/
@[simp] theorem Fields.ofWord_toWord (f : Fields) : Fields.ofWord f.toWord = f := by
  obtain ⟨op, rd, rs1, rs2, rs3, res⟩ := f
  simp only [Fields.ofWord, Fields.toWord, Fields.mk.injEq]
  refine ⟨?_, ?_, ?_, ?_, ?_, ?_⟩ <;>
  · apply BitVec.eq_of_getLsbD_eq
    intro i hi
    simp only [BitVec.getLsbD_extractLsb', BitVec.getLsbD_append, hi, decide_true, Bool.true_and]
    repeat' split
    all_goals first | omega | (congr 1; omega)

/-- The word made from the fields of a word is that word: no bit is dropped. -/
@[simp] theorem Fields.toWord_ofWord (w : BitVec 32) : (Fields.ofWord w).toWord = w := by
  apply BitVec.eq_of_getLsbD_eq
  intro i hi
  simp only [Fields.ofWord, Fields.toWord, BitVec.getLsbD_append, BitVec.getLsbD_extractLsb']
  split_ifs <;> rw [decide_eq_true (by omega), Bool.true_and] <;> congr 1 <;> omega

/-- The low half of a command's CMD value is its word. -/
theorem encodeCmd_low (i : Instr) : (encodeCmd i).extractLsb' 0 32 = encode i := by
  apply BitVec.eq_of_getLsbD_eq
  intro k hk
  simp [encodeCmd, BitVec.getLsbD_setWidth, hk]
  omega

/-- The high half of a command's CMD value is 0. -/
theorem encodeCmd_high (i : Instr) : (encodeCmd i).extractLsb' 32 32 = 0 := by
  apply BitVec.eq_of_getLsbD_eq
  intro k hk
  simp [encodeCmd, BitVec.getLsbD_extractLsb', BitVec.getLsbD_setWidth]

/-- A CMD value decodes by its low half when its high half is 0 (30_encoding R117). -/
theorem decodeCmd_of_high {v : Word} (h : v.extractLsb' 32 32 = 0) :
    decodeCmd v = decodeWord (v.extractLsb' 0 32) := if_pos h

end Sys2Proof
end

