-- ==== Sys2Proof/Laws/Exec.lean ====
section
/-! SUPPORT. What executing a command can lead to: one inversion lemma for `exec`, so that a proof about
all commands is a case split on `Executed` and unfolds no meaning. -/

namespace Sys2Proof.Machine

open Sys2Proof

/-! ### The checks before a rule -/

theorem needCfg_next {s t : State} {r : Result} (h : s.needCfg r = .next t) :
    (s.cfgOk = true ∧ r = .next t) ∨ (s.cfgOk = false ∧ t = s.raise .cfgNotValid) := by
  rw [State.needCfg] at h
  cases hc : s.cfgOk with
  | true => rw [hc] at h; exact .inl ⟨rfl, h⟩
  | false => rw [hc] at h; cases h; exact .inr ⟨rfl, rfl⟩

theorem needBuffer_next {s t : State} {r : Result} (h : s.needBuffer r = .next t) :
    s.bufN ≤ s.params.bufCap ∧ r = .next t := by
  rw [State.needBuffer] at h
  split at h
  · rename_i hb; exact ⟨hb, h⟩
  · cases h

theorem needTable_next {s t : State} {r : Result} (h : s.needTable r = .next t) :
    s.hlog ≤ s.params.hlogMax ∧ r = .next t := by
  rw [State.needTable] at h
  split at h
  · rename_i hb; exact ⟨hb, h⟩
  · cases h

/-! ### The inversion lemma -/

/-- What executing a command from `s` can lead to. -/
inductive Executed (s : State) : Instr → State → Prop where
  /-- CFG_NOT_VALID -/
  | gated {i : Instr} (hi : needsCfgOk i = true) (hc : s.cfgOk = false) :
      Executed s i (s.raise .cfgNotValid)
  | nop : Executed s .nop s.complete
  | initFails {c : CmdError} (h : s.configError = some c) : Executed s .init (s.failInit c)
  | initStarts (h : s.configError = none) : Executed s .init s.startJob.complete
  | tclr : Executed s .tclr s.tableClear.complete
  | tins {rs1 rs2 : Reg} (hc : s.cfgOk = true) (ht : s.hlog ≤ s.params.hlogMax) :
      Executed s (.tins rs1 rs2)
        (s.tableWrite (s.key (s.reg rs1)) ((s.reg rs2).extractLsb' 0 32)).complete
  /-- GEAR, HADV, BTEST, TLKP, VFWD, XBWD, and MATCH on a reject -/
  | reg {i : Instr} {rd : Reg} (hi : destReg i = some rd)
      (hc : needsCfgOk i = true → s.cfgOk = true) (v : Word) :
      Executed s i (s.setReg rd v).complete
  | matchPush {rd rs1 rs2 : Reg} {e : Emission} (hc : s.cfgOk = true)
      (hb : s.bufN ≤ s.params.bufCap)
      (he : s.emit (s.offsetOperand rs1) (s.offsetOperand rs2) = some e) (hf : s.fifoFull = false) :
      Executed s (.matchEmit rd rs1 rs2) (s.finishMatch rd e)
  | matchHold {rd rs1 rs2 : Reg} {e : Emission} (hc : s.cfgOk = true)
      (hb : s.bufN ≤ s.params.bufCap)
      (he : s.emit (s.offsetOperand rs1) (s.offsetOperand rs2) = some e) (hf : s.fifoFull = true) :
      Executed s (.matchEmit rd rs1 rs2) (s.hold e (.matchResult rd))
  | stepRan {u : State} (hc : s.cfgOk = true) (hb : s.bufN ≤ s.params.bufCap)
      (ht : s.hlog ≤ s.params.hlogMax) (h : s.stepBody = .ran u) : Executed s .step u.complete
  | stepHold {u : State} {e : Emission} (hc : s.cfgOk = true) (hb : s.bufN ≤ s.params.bufCap)
      (ht : s.hlog ≤ s.params.hlogMax) (h : s.stepBody = .held e u) :
      Executed s .step (u.hold e .stepJump)
  | scanRan {u : State} (hc : s.cfgOk = true) (hb : s.bufN ≤ s.params.bufCap)
      (ht : s.hlog ≤ s.params.hlogMax) (h : s.scanToEnd = .ran u) : Executed s .scan u.complete
  | scanHold {u : State} {e : Emission} (hc : s.cfgOk = true) (hb : s.bufN ≤ s.params.bufCap)
      (ht : s.hlog ≤ s.params.hlogMax) (h : s.scanToEnd = .held e u) :
      Executed s .scan (u.hold e .scanJump)

/-- A command that answers a next state leads there in one of the ways of `Executed`. -/
theorem exec_next {i : Instr} {s t : State} (h : exec i s = .next t) : Executed s i t := by
  cases i with
  | nop => cases h; exact .nop
  | init =>
    rw [exec, execInit] at h
    split at h <;> cases h
    · rename_i c hc; exact .initFails hc
    · rename_i hc; exact .initStarts hc
  | tclr => cases h; exact .tclr
  | scan =>
    rcases needCfg_next h with ⟨hc, h⟩ | ⟨hc, rfl⟩
    · obtain ⟨hb, h⟩ := needBuffer_next h
      obtain ⟨ht, h⟩ := needTable_next h
      rw [State.runScan] at h
      cases hu : s.scanToEnd with
      | ran u => rw [hu] at h; cases h; exact .scanRan hc hb ht hu
      | held e u => rw [hu] at h; cases h; exact .scanHold hc hb ht hu
    · exact .gated rfl hc
  | step =>
    rcases needCfg_next h with ⟨hc, h⟩ | ⟨hc, rfl⟩
    · obtain ⟨hb, h⟩ := needBuffer_next h
      obtain ⟨ht, h⟩ := needTable_next h
      cases hu : s.stepBody with
      | ran u => rw [hu] at h; cases h; exact .stepRan hc hb ht hu
      | held e u => rw [hu] at h; cases h; exact .stepHold hc hb ht hu
    · exact .gated rfl hc
  | gear rd rs1 => cases h; exact .reg rfl (fun hn => by cases hn) _
  | hadv rd rs1 rs2 => cases h; exact .reg rfl (fun hn => by cases hn) _
  | btest rd rs1 =>
    rcases needCfg_next h with ⟨hc, h⟩ | ⟨hc, rfl⟩
    · cases h; exact .reg rfl (fun _ => hc) _
    · exact .gated rfl hc
  | tins rs1 rs2 =>
    rcases needCfg_next h with ⟨hc, h⟩ | ⟨hc, rfl⟩
    · obtain ⟨ht, h⟩ := needTable_next h
      cases h; exact .tins hc ht
    · exact .gated rfl hc
  | tlkp rd rs1 =>
    rcases needCfg_next h with ⟨hc, h⟩ | ⟨hc, rfl⟩
    · obtain ⟨ht, h⟩ := needTable_next h
      cases h; exact .reg rfl (fun _ => hc) _
    · exact .gated rfl hc
  | vfwd rd rs1 rs2 =>
    rcases needCfg_next h with ⟨hc, h⟩ | ⟨hc, rfl⟩
    · obtain ⟨hb, h⟩ := needBuffer_next h
      cases h; exact .reg rfl (fun _ => hc) _
    · exact .gated rfl hc
  | xbwd rd rs1 rs2 rs3 =>
    rcases needCfg_next h with ⟨hc, h⟩ | ⟨hc, rfl⟩
    · obtain ⟨hb, h⟩ := needBuffer_next h
      cases h; exact .reg rfl (fun _ => hc) _
    · exact .gated rfl hc
  | matchEmit rd rs1 rs2 =>
    rcases needCfg_next h with ⟨hc, h⟩ | ⟨hc, rfl⟩
    · obtain ⟨hb, h⟩ := needBuffer_next h
      cases he : s.emit (s.offsetOperand rs1) (s.offsetOperand rs2) with
      | none => rw [he] at h; cases h; exact .reg rfl (fun _ => hc) _
      | some e =>
        cases hf : s.fifoFull with
        | true => simp only [he, hf, if_true] at h; cases h; exact .matchHold hc hb he hf
        | false =>
          simp only [he, hf, Bool.false_eq_true, if_false] at h
          cases h; exact .matchPush hc hb he hf
    · exact .gated rfl hc

/-- The checks pass, so the rule runs. -/
theorem needCfg_of {s : State} (hc : s.cfgOk = true) (r : Result) : s.needCfg r = r := by
  rw [State.needCfg, hc]; rfl

theorem needBuffer_of {s : State} (hb : s.bufN ≤ s.params.bufCap) (r : Result) :
    s.needBuffer r = r := if_pos hb

theorem needTable_of {s : State} (ht : s.hlog ≤ s.params.hlogMax) (r : Result) :
    s.needTable r = r := if_pos ht

/-! ### The hold -/

theorem stall_hold (s : State) (e : Emission) (k : Continuation) :
    (s.hold e k).stall = s.fifoFull := rfl

@[simp] theorem stall_complete (s : State) : s.complete.stall = false := rfl
@[simp] theorem busy_complete (s : State) : s.complete.busy = false := rfl
@[simp] theorem busy_hold (s : State) (e : Emission) (k : Continuation) :
    (s.hold e k).busy = true := rfl

/-- A stalled engine holds a push, and the FIFO is full. -/
theorem stall_iff (s : State) :
    s.stall = true ↔ (∃ e k, s.engine = .held e k) ∧ s.fifoFull = true := by
  rw [State.stall]
  split
  · rename_i e k h; simp [h]
  · rename_i h
    constructor
    · nofun
    · rintro ⟨⟨e, k, he⟩, -⟩; exact absurd he (h e k)

end Sys2Proof.Machine
end

