-- ==== Sys2Proof/Laws/Host.lean ====
section
/-! SUPPORT. What the host's accesses can do: where a valid access goes (20_memory R80 to R83), what an
aperture read returns (R84), and what a pop does (10_state R50). -/

namespace Sys2Proof.Machine

open Sys2Proof

/-! ### Where an access goes -/

/-- A valid register access is 8 bytes wide, aligned and below 0x1000 (20_memory R81). -/
theorem target_register {p : Params} {width : Nat} {addr : BitVec 25} {r : HostReg}
    (h : Params.target p width addr = .register r) :
    addr.toNat < 0x1000 ∧ width = 8 ∧ addr.toNat % 8 = 0 ∧ r = hostRegAt addr.toNat := by
  simp only [Params.target] at h
  split at h
  · rename_i h1
    split at h
    · rename_i h2
      injection h with h3
      exact ⟨h1, h2.1, h2.2, h3.symm⟩
    · cases h
  · split at h
    · cases h
    · split at h <;> cases h

/-- A valid aperture access has a legal width, is aligned and lies inside the buffer (20_memory R83). -/
theorem target_aperture {p : Params} {width : Nat} {addr : BitVec 25} {off : Nat}
    (h : Params.target p width addr = .aperture off) :
    (width = 1 ∨ width = 2 ∨ width = 4 ∨ width = 8) ∧ addr.toNat = 0x1000000 + off ∧
      off % width = 0 ∧ off + width ≤ p.bufCap := by
  simp only [Params.target] at h
  split at h
  · split at h <;> cases h
  · split at h
    · cases h
    · split at h
      · rename_i h1 h2 h3
        have h4 := Target.aperture.inj h
        rw [h4] at h3
        exact ⟨h3.1, by omega, h3.2⟩
      · cases h

/-- An aligned 8-byte access below 0x1000 reaches the register at its offset (20_memory R81). -/
theorem target_of_register (p : Params) {addr : BitVec 25} (hlt : addr.toNat < 0x1000)
    (h8 : 8 ∣ addr.toNat) : Params.target p 8 addr = .register (hostRegAt addr.toNat) := by
  simp only [Params.target]
  rw [if_pos hlt, if_pos ⟨trivial, Nat.mod_eq_zero_of_dvd h8⟩]

/-- Every access that 20_memory R80 and R83 call valid is performed, at its buffer offset. -/
theorem target_of_aperture {p : Params} {width : Nat} {addr : BitVec 25} {off : Nat}
    (h : ApertureAccess p width addr off) : Params.target p width addr = .aperture off := by
  simp only [Params.target, h.address]
  rw [if_neg (by omega), if_neg (by omega), Nat.add_sub_cancel_left,
    if_pos ⟨h.legalWidth, Nat.mod_eq_zero_of_dvd h.aligned, h.inside⟩]

/-- The registers end at 0x0E0; what follows is reserved (10_state R31, R44). -/
theorem hostRegAt_reserved {off : Nat} (h : 0x0E8 ≤ off) : hostRegAt off = .reserved := by
  unfold hostRegAt
  split <;> first | omega | rfl

/-- Only offset 0x0D8 pops (10_state R31, R50). -/
theorem hostRegAt_descPop {off : Nat} (h : hostRegAt off = .descPop) : off = 0x0D8 := by
  unfold hostRegAt at h
  split at h <;> first | rfl | cases h

/-! ### Reads of the aperture -/

/-- A read of `n` bytes is below `2^(8n)`, so that it fits the bus (20_memory R84). -/
theorem memRead_lt (s : State) (a n : Nat) : s.memRead a n < 2 ^ (8 * n) := by
  induction n with
  | zero => simp [State.memRead]
  | succ n ih =>
    rw [State.memRead, show 8 * (n + 1) = 8 * n + 8 by ring, pow_add]
    have := (s.bufByte (a + n)).isLt
    nlinarith

/-- What a byte reads as after a host write of the buffer (20_memory R84). -/
theorem bufByte_write (s : State) (a n : Nat) (v : Word) (b : Nat) :
    ({ s with buffer := memWrite a v n s.buffer } : State).bufByte b =
      if a ≤ b ∧ b < a + n then v.extractLsb' (8 * (b - a)) 8 else s.bufByte b := by
  simp only [State.bufByte, sparseGet_memWrite]
  split <;> rfl

/-! ### Pops -/

/-- A pop takes the head, if there is one, and changes nothing else (10_state R50). -/
theorem popHead_eq (s : State) :
    s.popHead = { s with fifo := s.fifo.tail, popped := s.popped ++ s.fifo.take 1 } := by
  rw [State.popHead]
  split
  · rename_i h; rw [h, List.take_nil, List.append_nil, List.tail_nil, ← h]
  · rename_i d rest h; rw [h]; rfl

/-- A pop moves a descriptor and loses none: popped and queued ones together stay as they are. -/
theorem popHead_output (s : State) : s.popHead.popped ++ s.popHead.fifo = s.popped ++ s.fifo := by
  rw [popHead_eq]
  cases s.fifo <;> simp

/-! ### Idle and busy -/

/-- BUSY = 0 says that no command is in progress (10_state R53). -/
theorem busy_eq_false (s : State) : s.busy = false ↔ s.engine = .idle := by
  simp [State.busy]

/-- A write that only an idle engine takes sets DROP while busy (10_state R57). -/
theorem whenIdle_busy {s t : State} (h : s.busy = true) : s.whenIdle t = s.setDrop := if_pos h

theorem whenIdle_idle {s t : State} (h : s.busy = false) : s.whenIdle t = t := by
  rw [State.whenIdle, h]; rfl

end Sys2Proof.Machine
end

