-- ==== Sys2Proof/Laws/Output.lean ====
section
/-! SUPPORT. What the output of a job covers (44_scan_control R240): literal spans and destinations as
lists of ranges. -/

namespace Sys2Proof.Machine

open Sys2Proof

@[simp] theorem timesCovered_append (a : Nat) (xs ys : List (Nat × Nat)) :
    timesCovered a (xs ++ ys) = timesCovered a xs + timesCovered a ys := List.countP_append

/-- A span covers each of its offsets once. -/
theorem timesCovered_span (a lo hi : Nat) :
    timesCovered a (span lo hi) = if lo ≤ a ∧ a < hi then 1 else 0 := by
  unfold timesCovered span
  split
  · simp
  · simp; omega

theorem timesCovered_destinations_cons (a : Nat) (d : Desc) (rest : List Desc) :
    timesCovered a (destinations (d :: rest)) =
      (if d.dst.toNat ≤ a ∧ a < d.stop then 1 else 0) + timesCovered a (destinations rest) := by
  simp only [timesCovered, destinations, List.map_cons, List.countP_cons, Bool.and_eq_true,
    decide_eq_true_eq]
  omega

/-- Rising destinations inside `[lo, n)` and the literal spans between them cover each offset of `[lo, n)`
once and nothing else. -/
theorem timesCovered_output {ds : List Desc} {lo n : Nat} (hlo : ∀ d ∈ ds, lo ≤ d.dst.toNat)
    (hrise : DestinationsRise ds) (hn : ∀ d ∈ ds, d.stop ≤ n) (h : lo ≤ n) (a : Nat) :
    timesCovered a (literalSpans lo n ds ++ destinations ds) = if lo ≤ a ∧ a < n then 1 else 0 := by
  induction ds generalizing lo with
  | nil => rw [literalSpans, destinations, List.map_nil, List.append_nil, timesCovered_span]
  | cons d rest ih =>
    obtain ⟨hd, hr⟩ := List.pairwise_cons.1 hrise
    have hstop : d.stop = d.dst.toNat + d.len.toNat := rfl
    have h1 := hlo d (List.mem_cons_self ..)
    have h2 := hn d (List.mem_cons_self ..)
    have i := ih hd hr (fun d' h' => hn d' (List.mem_cons_of_mem _ h')) h2
    rw [timesCovered_append] at i
    rw [literalSpans, timesCovered_append, timesCovered_append, timesCovered_span,
      timesCovered_destinations_cons]
    split_ifs at * <;> omega

end Sys2Proof.Machine
end

