-- ==== Sys2Proof/Laws/PerInstr.lean ====
section
/-! SUPPORT. Statements about each command as syntax, one lemma per constructor of `Instr`. -/

namespace Sys2Proof.Laws.EncodedFields

open Sys2Proof

/-- The word of a command carries exactly the command's fields, with RES at 0 (30_encoding R111,
R124). -/
def Statement (i : Instr) : Prop := Fields.ofWord (encode i) = i.fields ∧ i.fields.res = 0

theorem nop : Statement .nop := ⟨Fields.ofWord_toWord _, rfl⟩
theorem init : Statement .init := ⟨Fields.ofWord_toWord _, rfl⟩
theorem tclr : Statement .tclr := ⟨Fields.ofWord_toWord _, rfl⟩
theorem scan : Statement .scan := ⟨Fields.ofWord_toWord _, rfl⟩
theorem step : Statement .step := ⟨Fields.ofWord_toWord _, rfl⟩
theorem gear (rd rs1 : Reg) : Statement (.gear rd rs1) := ⟨Fields.ofWord_toWord _, rfl⟩
theorem hadv (rd rs1 rs2 : Reg) : Statement (.hadv rd rs1 rs2) := ⟨Fields.ofWord_toWord _, rfl⟩
theorem btest (rd rs1 : Reg) : Statement (.btest rd rs1) := ⟨Fields.ofWord_toWord _, rfl⟩
theorem tins (rs1 rs2 : Reg) : Statement (.tins rs1 rs2) := ⟨Fields.ofWord_toWord _, rfl⟩
theorem tlkp (rd rs1 : Reg) : Statement (.tlkp rd rs1) := ⟨Fields.ofWord_toWord _, rfl⟩
theorem vfwd (rd rs1 rs2 : Reg) : Statement (.vfwd rd rs1 rs2) := ⟨Fields.ofWord_toWord _, rfl⟩
theorem xbwd (rd rs1 rs2 rs3 : Reg) : Statement (.xbwd rd rs1 rs2 rs3) :=
  ⟨Fields.ofWord_toWord _, rfl⟩
theorem matchEmit (rd rs1 rs2 : Reg) : Statement (.matchEmit rd rs1 rs2) :=
  ⟨Fields.ofWord_toWord _, rfl⟩

end Sys2Proof.Laws.EncodedFields
end

