-- ==== Sys2Proof/Machine/Assembler.lean ====
section
/-! DEFINITION. The assembler of command words (30_encoding R122): the mnemonic, all in upper or all in
lower case, then the operands, separated by commas, in the order of R113. -/

namespace Sys2Proof.Machine

open Sys2Proof

/-- The mnemonics, in both spellings (30_encoding R113, R122). -/
def mnemonicTable : List (String × String × Opcode) :=
  [("NOP", "nop", .nop), ("INIT", "init", .init), ("TCLR", "tclr", .tclr), ("SCAN", "scan", .scan),
   ("STEP", "step", .step), ("GEAR", "gear", .gear), ("HADV", "hadv", .hadv), ("BTEST", "btest", .btest),
   ("TINS", "tins", .tins), ("TLKP", "tlkp", .tlkp), ("VFWD", "vfwd", .vfwd), ("XBWD", "xbwd", .xbwd),
   ("MATCH", "match", .matchEmit)]

/-- The opcode that a token spells. -/
def opcodeNamed (token : List Char) : Option Opcode :=
  (mnemonicTable.find? fun row => row.1.toList == token || row.2.1.toList == token).map fun row => row.2.2

/-- The register that a token names: `r0` to `r7`. -/
def regNamed (token : List Char) : Option Reg :=
  ["r0", "r1", "r2", "r3", "r4", "r5", "r6", "r7"].findFinIdx? fun name => name.toList == token

/-- The command of an opcode with the given operands; a wrong count is refused. -/
def Opcode.assemble : Opcode → List Reg → Option Instr
  | .nop, [] => some .nop
  | .init, [] => some .init
  | .tclr, [] => some .tclr
  | .scan, [] => some .scan
  | .step, [] => some .step
  | .gear, [rd, rs1] => some (.gear rd rs1)
  | .hadv, [rd, rs1, rs2] => some (.hadv rd rs1 rs2)
  | .btest, [rd, rs1] => some (.btest rd rs1)
  | .tins, [rs1, rs2] => some (.tins rs1 rs2)
  | .tlkp, [rd, rs1] => some (.tlkp rd rs1)
  | .vfwd, [rd, rs1, rs2] => some (.vfwd rd rs1 rs2)
  | .xbwd, [rd, rs1, rs2, rs3] => some (.xbwd rd rs1 rs2 rs3)
  | .matchEmit, [rd, rs1, rs2] => some (.matchEmit rd rs1 rs2)
  | _, _ => none

/-- The parts of a line between separators. -/
def splitAt (sep : Char) : List Char → List (List Char)
  | [] => [[]]
  | c :: rest =>
    match splitAt sep rest with
    | [] => [[c]]
    | part :: parts => if c = sep then [] :: part :: parts else (c :: part) :: parts

/-- One line of assembly, for example `hadv r2, r2, r3` (30_encoding R122). -/
def assembleLine (line : String) : Option Instr :=
  let token := line.toList.takeWhile (· != ' ')
  let operands := (line.toList.dropWhile (· != ' ')).filter (· != ' ')
  match opcodeNamed token with
  | none => none
  | some o =>
    let regs := if operands.isEmpty then some [] else (splitAt ',' operands).mapM regNamed
    regs.bind fun rs => Opcode.assemble o rs

end Sys2Proof.Machine
end

