-- ==== Sys2Proof/Machine/Platform.lean ====
section
/-! DEFINITION. Several engines side by side (60_exceptions R285): each has its own full state, nothing
is shared but the gear table, and a step of the platform is a step of one of them. -/

namespace Sys2Proof.Machine

open Sys2Proof

/-- The engines of a platform, in the order of their base addresses. -/
structure Platform where
  engines : List State
  deriving DecidableEq, Repr

/-- Every engine of a platform has the same gear table (40_rolling_hash R141). -/
def Platform.sameGear (p : Platform) : Bool :=
  p.engines.all fun s => p.engines.all fun t => s.params.gear == t.params.gear

/-- Every engine of a platform has the same parameters, so that all read the same PARAMS, as
60_exceptions R285 says of the instances of one hardware. -/
def Platform.sameParams (p : Platform) : Bool :=
  p.engines.all fun s => p.engines.all fun t => s.params == t.params

/-- The engines are told apart, so that each has unknown values of its own (60_exceptions R285), and
have one gear table (40_rolling_hash R141). DESIGN CHOICE (log entry 21): the engines of one platform
may have different parameters. 00_scope R4 lets instances vary in the parameters of R8, and R285 says
that ID and PARAMS are the same in every instance of this hardware; a platform with instances of one
hardware alone is one that meets `Platform.sameParams` as well. -/
def Platform.wf (p : Platform) : Bool :=
  p.sameGear && decide (p.engines.map State.engineId).Nodup

/-- One step of engine `n`. A platform without that engine stays as it is. -/
def Platform.stepAt (n : Nat) (p : Platform) : Host.Outcome Platform Fault Refusal :=
  match p.engines[n]? with
  | none => .next p
  | some s =>
    match step s with
    | .next t => .next { p with engines := p.engines.set n t }
    | .fault f => .fault f
    | .refused r => .refused r

end Sys2Proof.Machine
end

