-- ==== Sys2Proof/Tests/Slice0.lean ====
section
/-! SUPPORT. Small tests by evaluation. Expected values come from the spec: its encoding tables, the
examples of the command rules and 95_test_vectors. After them one witness for each obligation with
hypotheses. -/

-- One theorem at a time: many kernel evaluations side by side would each take a thread's stack.
set_option Elab.async false

namespace Sys2Proof.Tests

open Sys2Proof Sys2Proof.Machine

/-! ### Ill-formed words (30_encoding R113, R114) -/

theorem test_ill_formed_opcode : (Fields.mk 0x05 0 0 0 0 0).wellFormed = false := by decide
theorem test_ill_formed_opcode_high : (Fields.mk 0x18 0 0 0 0 0).wellFormed = false := by decide
theorem test_ill_formed_f0_rd : (Fields.mk 0x00 1 0 0 0 0).wellFormed = false := by decide
theorem test_ill_formed_fr_rs2 : (Fields.mk 0x10 1 0 1 0 0).wellFormed = false := by decide
theorem test_ill_formed_frr_rs3 : (Fields.mk 0x11 1 0 1 1 0).wellFormed = false := by decide
theorem test_ill_formed_fs_rd : (Fields.mk 0x13 1 0 1 0 0).wellFormed = false := by decide
theorem test_ill_formed_f0_rs1 : (Fields.mk 0x03 0 1 0 0 0).wellFormed = false := by decide
theorem test_ill_formed_res : (Fields.mk 0x16 3 0 1 2 1).wellFormed = false := by decide
theorem test_well_formed_all_registers : (Fields.mk 0x16 7 7 7 7 0).wellFormed = true := by decide

/-! ### Decoding, one word for each command, written out field by field: RES, RS3, RS2, RS1, RD, OP
(30_encoding R111, R113) -/

theorem test_decode_nop : decodeWord 0b000000000000_000_000_000_000_00000000 = .ok .nop := rfl
theorem test_decode_init : decodeWord 0b000000000000_000_000_000_000_00000001 = .ok .init := rfl
theorem test_decode_tclr : decodeWord 0b000000000000_000_000_000_000_00000010 = .ok .tclr := rfl
theorem test_decode_scan : decodeWord 0b000000000000_000_000_000_000_00000011 = .ok .scan := rfl
theorem test_decode_step : decodeWord 0b000000000000_000_000_000_000_00000100 = .ok .step := rfl
theorem test_decode_gear :
    decodeWord 0b000000000000_000_000_110_011_00010000 = .ok (.gear 3 6) := rfl
theorem test_decode_hadv :
    decodeWord 0b000000000000_000_101_110_011_00010001 = .ok (.hadv 3 6 5) := rfl
theorem test_decode_btest :
    decodeWord 0b000000000000_000_000_001_111_00010010 = .ok (.btest 7 1) := rfl
theorem test_decode_tins :
    decodeWord 0b000000000000_000_100_010_000_00010011 = .ok (.tins 2 4) := rfl
theorem test_decode_tlkp :
    decodeWord 0b000000000000_000_000_110_111_00010100 = .ok (.tlkp 7 6) := rfl
theorem test_decode_vfwd :
    decodeWord 0b000000000000_000_111_001_010_00010101 = .ok (.vfwd 2 1 7) := rfl
theorem test_decode_xbwd :
    decodeWord 0b000000000000_100_011_010_001_00010110 = .ok (.xbwd 1 2 3 4) := rfl
theorem test_decode_match :
    decodeWord 0b000000000000_000_100_011_111_00010111 = .ok (.matchEmit 7 3 4) := rfl

/-- 30_encoding R117: the three illegal kinds, in the order of the checks. -/
theorem test_decode_upper_bits : decodeCmd 0x1_00000018 = .error .upperBits := rfl
theorem test_decode_unassigned : decodeCmd 0x00100018 = .error .unassignedOp := rfl
theorem test_decode_must_be_zero : decodeCmd 0x4110 = .error .mustBeZero := rfl

/-- The encodings that 30_encoding R124 and 95_test_vectors P2 give. -/
theorem test_encode_hadv : encodeCmd (.hadv 2 0 1) = 0x00004211 := by decide
theorem test_encode_match : encodeCmd (.matchEmit 7 3 4) = 0x00011F17 := by decide

theorem test_table_word : decodeTableWord 32 0x00004211 = some (.hadv 2 0 1) := rfl

/-- 30_encoding R122: the examples of the rule, and a wrong operand count. -/
theorem test_assemble : assembleLine "xbwd r3, r0, r1, r2" = some (.xbwd 3 0 1 2) := by decide +kernel
theorem test_assemble_refuses : assembleLine "gear r1, r0, r2" = none := by decide +kernel

/-! ### States for the tests -/

/-- The engine of the test vectors: `GEAR[b] = b` (95_test_vectors, G_T). -/
def hardware : Params := { Config.thisHardware with gear := (List.range 256).map (BitVec.ofNat 64) }

/-- A buffer with the given bytes from offset 0 on. -/
def bufferOf (a : Nat) : List Nat → Memory
  | [] => []
  | b :: rest => (a, BitVec.ofNat 8 b) :: bufferOf (a + 1) rest

/-- "THE QUICK BROWN!" -/
def quick : List Nat := [84, 72, 69, 32, 81, 85, 73, 67, 75, 32, 66, 82, 79, 87, 78, 33]

/-- "abcdefghijklmnop" -/
def letters : List Nat := [97, 98, 99, 100, 101, 102, 103, 104, 105, 106, 107, 108, 109, 110, 111, 112]

/-- An engine with CFG = (4, 4, 2, 0, 4) and N = 32, right after INIT, with these buffer bytes. -/
def jobOn (bytes : List Nat) : State :=
  { State.resetOf hardware with
    cfg := cfgWord 4 4 2 0 4, bufLen := 32, cfgOk := true, buffer := bufferOf 0 bytes }

/-- The job on 32 zero bytes. -/
def zeros : State := jobOn (List.replicate 32 0)

/-- The next state, if that is the outcome. -/
def nextOf : Result → Option State
  | .next s => some s
  | _ => none

/-- What a command leaves in a register. -/
def resultIn (r : Reg) (i : Instr) (s : State) : Option Word := (nextOf (exec i s)).map (State.reg · r)

/-! ### One step of each command -/

/-- 44_scan_control R230 -/
theorem test_nop : (nextOf (exec .nop (jobOn []))).map (·.status) = some 0xA := by decide +kernel

/-- 44_scan_control R232: the example, from a state with CFG_OK = 0, and the corner case N = 0. -/
theorem test_init :
    (nextOf (exec .init { jobOn [] with cfgOk := false, pos := 9 })).map (fun t => (t.status, t.pos))
      = some (0xA, 0) := by decide +kernel
theorem test_init_empty_buffer :
    (nextOf (exec .init { jobOn [] with bufLen := 0 })).map (fun t => (t.cfgOk, t.err, t.errCode))
      = some (false, true, 6) := by decide +kernel

/-- 42_match_table R187 -/
theorem test_tclr :
    (nextOf (exec .tclr { jobOn [] with table := [(8, 15)] })).map (State.tableRead · 8)
      = some none := by decide +kernel

/-- 44_scan_control R238, 95_test_vectors P3: the scan of Q32 from INIT. -/
theorem test_scan :
    (nextOf (exec .scan (jobOn (quick ++ quick)))).map
        (fun t => ([t.pos, t.bcount, t.hcount, t.mcount], t.fifo, t.table))
      = some ([32, 2, 1, 1], [⟨0, 16, 16⟩], [(8, 31)]) := by decide +kernel

/-- 95_test_vectors V-SCAN-1, rows i = 14 (a boundary, a miss) and i = 30 (a hit, a match, a jump). -/
theorem test_step_boundary :
    (nextOf (exec .step { jobOn (quick ++ quick) with pos := 14, hash := 0x12E3ED })).map
        (fun t => ([t.hash, t.pos, t.cstart, t.bcount, t.hcount], t.table))
      = some ([0x25C828, 15, 15, 1, 0], [(8, 15)]) := by decide +kernel
theorem test_step_jump :
    (nextOf (exec .step { jobOn (quick ++ quick) with
        pos := 30, hash := 0x12E42F23ED, cstart := 15, bcount := 1, table := [(8, 15)] })).map
        (fun t => ([t.hash, t.pos, t.cstart, t.prevEnd], t.eob, t.fifo))
      = some ([0, 32, 32, 32], true, [⟨0, 16, 16⟩]) := by decide +kernel

/-- 40_rolling_hash R142: bits [63:8] of the byte source are ignored. -/
theorem test_gear : resultIn 1 (.gear 1 0) ((jobOn []).setReg 0 0x141) = some 0x41 := by decide +kernel

/-- 40_rolling_hash R144: the example, and a sum that wraps. -/
theorem test_hadv :
    resultIn 2 (.hadv 2 0 1) (((jobOn []).setReg 0 0x10).setReg 1 0x41) = some 0x61 := by decide +kernel
theorem test_hadv_wraps :
    resultIn 4 (.hadv 4 4 5) (((jobOn []).setReg 4 0xFFFFFFFFFFFFFFFF).setReg 5 0x102) = some 0 := by
  decide +kernel

/-- 41_boundary_detector R161: the example. -/
theorem test_btest : resultIn 1 (.btest 1 0) ((jobOn []).setReg 0 0x1818) = some 1 := by decide +kernel
theorem test_btest_fails : resultIn 1 (.btest 1 0) ((jobOn []).setReg 0 0x1819) = some 0 := by
  decide +kernel

/-- 42_match_table R182: the example, and an offset above 2^32. -/
theorem test_tins :
    (nextOf (exec (.tins 0 1) (((jobOn []).setReg 0 0x25C828).setReg 1 15))).map (·.table)
      = some [(8, 15)] := by decide +kernel
theorem test_tins_low_bits :
    (nextOf (exec (.tins 0 1) (((jobOn []).setReg 0 8).setReg 1 0x1_00000003))).map (·.table)
      = some [(8, 3)] := by decide +kernel

/-- 42_match_table R183: the example, a hit and a miss. -/
theorem test_tlkp :
    resultIn 3 (.tlkp 3 2) { (jobOn []).setReg 2 0x25C85E4828 with table := [(8, 15)] } = some 15 := by
  decide +kernel
theorem test_tlkp_empty :
    resultIn 3 (.tlkp 3 2) { (jobOn []).setReg 2 1 with table := [(8, 15)] } = some empty := by
  decide +kernel

/-- 43_match_emitter R200: the example, and an offset at N. -/
theorem test_vfwd :
    resultIn 2 (.vfwd 2 0 1) (((jobOn (letters ++ letters)).setReg 0 6).setReg 1 22) = some 10 := by
  decide +kernel
theorem test_vfwd_at_end :
    resultIn 2 (.vfwd 2 0 1) (((jobOn (letters ++ letters)).setReg 0 16).setReg 1 32) = some 0 := by
  decide +kernel

/-- 43_match_emitter R201: the example, with both lower bounds. -/
theorem test_xbwd :
    resultIn 3 (.xbwd 3 0 1 2) (((jobOn (letters ++ letters)).setReg 0 6).setReg 1 22) = some 6 := by
  decide +kernel
theorem test_xbwd_bounded :
    resultIn 3 (.xbwd 3 0 1 2) ((((jobOn (letters ++ letters)).setReg 0 6).setReg 1 22).setReg 2 20)
      = some 2 := by decide +kernel

/-- 43_match_emitter R204: the example, and P5's reject behind PREV_END. -/
theorem test_match :
    (nextOf (exec (.matchEmit 2 0 1) ((zeros.setReg 0 5).setReg 1 10))).map
        (fun t => (t.reg 2, t.fifo, t.prevEnd, t.mcount, t.pos))
      = some (27, [⟨0, 5, 27⟩], 32, 1, 0) := by decide +kernel
theorem test_match_rejects :
    (nextOf (exec (.matchEmit 2 0 1) { (zeros.setReg 0 5).setReg 1 10 with prevEnd := 32 })).map
        (fun t => (t.reg 2, t.fifo)) = some (0, []) := by decide +kernel

/-! ### Errors and host accesses -/

/-- 95_test_vectors P4: a CMD write while ERR = 1 is dropped; `clrst` clears all four bits. -/
theorem test_drop :
    (({ jobOn [] with err := true, errCode := 2, done := true, cfgOk := false }).hostAccess
        (.write 8 0x020 0)).status = 0x26 := by decide +kernel
theorem test_clrst :
    ((({ jobOn [] with err := true, errCode := 2, done := true, drop := true, busErr := true }).hostAccess
        (.write 8 0x028 0x66)).status,
      (({ jobOn [] with err := true, errCode := 2 }).hostAccess (.write 8 0x028 0x66)).errCode)
      = (0x8, 0) := by decide +kernel

/-- 95_test_vectors 2.8: host accesses to the aperture and to registers. -/
theorem test_write_then_read :
    ((State.reset.hostAccess (.write 8 0x1000000 0x0807060504030201)).hostAccess
        (.read 4 0x1000004)).response.data = 0x08070605 := by decide +kernel
theorem test_misaligned_read :
    (fun t : State => (t.response.data, t.busErr)) (State.reset.hostAccess (.read 2 0x1000001))
      = (0, true) := by decide +kernel
theorem test_write_at_capacity :
    (fun t : State => (t.buffer, t.busErr)) (State.reset.hostAccess (.write 1 0x1100000 7))
      = ([], true) := by decide +kernel
theorem test_reserved_bits_of_cfg :
    (State.reset.hostAccess (.write 8 0x010 0xFFFFFFFFFFFFFFFF)).cfg = 0xFFFFFFFF017F3F3F := by
  decide +kernel
theorem test_params : (State.reset.hostAccess (.read 8 0x008)).response.data = 0x0000101414041404 := by
  decide +kernel

/-- A word placed after reset is the next that runs: TLKP finds no valid configuration. -/
theorem test_fetch_word :
    (nextOf (step (State.reset.withFetchWord 32 0x00001314))).map (fun t => (t.status, t.errCode))
      = some (0x6, 2) := by decide +kernel

/-- 60_exceptions R285: a step of one engine leaves the others as they were. -/
theorem test_platform :
    (match Platform.stepAt 1 ⟨[State.reset, State.reset.withFetchWord 32 0]⟩ with
      | .next p => p.engines.map (·.done)
      | _ => []) = [false, true] := by decide +kernel

/-! ### States for the witnesses -/

/-- A job on 32 zero bytes whose FIFO, of depth 1, is full: its one descriptor ends at PREV_END = 10,
and the byte at POS = 14 makes a boundary that hits candidate 10. -/
def fullFifo : State :=
  { (zeros.setReg 0 11).setReg 1 15 with
    params := { hardware with fifoDepth := 1 }
    pos := 14, cstart := 10, prevEnd := 10, bcount := 2, hcount := 1, mcount := 1
    fifo := [⟨0, 5, 5⟩], table := [(0, 10)] }

/-- The same with room for more descriptors. -/
def roomInFifo : State := { fullFifo with params := hardware }

/-- The candidate that both meet at POS = 14: 15 follows 10, and 5 bytes before it are free. -/
def candidate : Emission := ⟨⟨5, 10, 22⟩, 32⟩

/-- The scan of `fullFifo`, held before its push. -/
def heldScan : State :=
  { fullFifo with
    pos := 15, cstart := 15, bcount := 3, hcount := 2, table := [(0, 15)]
    engine := .held candidate .scanJump }

/-- "jumps over lazy." -/
def lazy : List Nat := [106, 117, 109, 112, 115, 32, 111, 118, 101, 114, 32, 108, 97, 122, 121, 46]

/-- The job of program P6 of 95_test_vectors right after its INIT, on an engine with a FIFO of depth 1:
its two descriptors are (0, 16, 16) and (32, 48, 16), and the second one holds. -/
def twoMatches : State :=
  { State.resetOf { hardware with fifoDepth := 1 } with
    cfg := cfgWord 4 6 2 0 4, bufLen := 64, cfgOk := true
    buffer := bufferOf 0 (quick ++ quick ++ lazy ++ lazy) }

theorem next_of {r : Result} (p : State → Bool) (h : (nextOf r).any p = true) :
    ∃ t, r = .next t ∧ p t = true := by
  cases r with
  | next t => exact ⟨t, rfl, h⟩
  | fault f => cases h
  | refused f => cases h

theorem candidate_emitted : fullFifo.emit 10 15 = some candidate := by decide +kernel

theorem zeros_inv : zeros.Inv where
  params := by decide +kernel
  cfgReserved := by decide +kernel
  noError := by decide +kernel
  someError := by decide +kernel
  fifo := by decide +kernel
  buffer := by decide +kernel
  table := by decide +kernel
  job := fun _ => {
    legal := by decide +kernel
    cstart := by decide +kernel
    pos := by decide +kernel
    prevEnd := by decide +kernel
    ended := by decide +kernel
    closed := fun _ => by decide +kernel
    table := by decide +kernel
    shaped := fun d hd => nomatch (hd : d ∈ [])
    before := fun d hd => nomatch (hd : d ∈ [])
    rising := List.Pairwise.nil }
  held := fun _ _ h => nomatch (h : Engine.idle = _)
  scanning := fun h => nomatch (h : Engine.idle = _)

theorem twoMatches_inv : twoMatches.Inv where
  params := by decide +kernel
  cfgReserved := by decide +kernel
  noError := by decide +kernel
  someError := by decide +kernel
  fifo := by decide +kernel
  buffer := by decide +kernel
  table := by decide +kernel
  job := fun _ => {
    legal := by decide +kernel
    cstart := by decide +kernel
    pos := by decide +kernel
    prevEnd := by decide +kernel
    ended := by decide +kernel
    closed := fun _ => by decide +kernel
    table := by decide +kernel
    shaped := fun d hd => nomatch (hd : d ∈ [])
    before := fun d hd => nomatch (hd : d ∈ [])
    rising := List.Pairwise.nil }
  held := fun _ _ h => nomatch (h : Engine.idle = _)
  scanning := fun h => nomatch (h : Engine.idle = _)

theorem fullFifo_job : JobOk fullFifo where
  legal := by decide +kernel
  cstart := by decide +kernel
  pos := by decide +kernel
  prevEnd := by decide +kernel
  ended := by decide +kernel
  closed := fun _ => by decide +kernel
  table := by decide +kernel
  shaped := fun d hd => by
    rw [List.mem_singleton.1 (hd : d ∈ [_])]
    exact ⟨by decide +kernel, by decide +kernel, by decide +kernel⟩
  before := fun d hd => by
    rw [List.mem_singleton.1 (hd : d ∈ [_])]
    decide +kernel
  rising := List.pairwise_singleton _ _

theorem fullFifo_inv : fullFifo.Inv where
  params := by decide +kernel
  cfgReserved := by decide +kernel
  noError := by decide +kernel
  someError := by decide +kernel
  fifo := by decide +kernel
  buffer := by decide +kernel
  table := by decide +kernel
  job := fun _ => fullFifo_job
  held := fun _ _ h => nomatch (h : Engine.idle = _)
  scanning := fun h => nomatch (h : Engine.idle = _)

/-- A state with a held push meets the invariant too. -/
theorem heldScan_inv : heldScan.Inv where
  params := by decide +kernel
  cfgReserved := by decide +kernel
  noError := by decide +kernel
  someError := by decide +kernel
  fifo := by decide +kernel
  buffer := by decide +kernel
  table := by decide +kernel
  job := fun _ => {
    legal := by decide +kernel
    cstart := by decide +kernel
    pos := by decide +kernel
    prevEnd := by decide +kernel
    ended := by decide +kernel
    closed := fun h => by
      obtain ⟨rd, h⟩ := h _ _ rfl
      cases h
    table := by decide +kernel
    shaped := fun d hd => by
      rw [List.mem_singleton.1 (hd : d ∈ [_])]
      exact ⟨by decide +kernel, by decide +kernel, by decide +kernel⟩
    before := fun d hd => by
      rw [List.mem_singleton.1 (hd : d ∈ [_])]
      decide +kernel
    rising := List.pairwise_singleton _ _ }
  held := fun e k h => by
    obtain ⟨rfl, rfl⟩ := Engine.held.inj (h : Engine.held candidate .scanJump = .held e k)
    exact {
      cfgOk := rfl
      shaped := ⟨by decide +kernel, by decide +kernel, by decide +kernel⟩
      verified := by rw [Desc.Verified]; decide +kernel
      after := by decide +kernel
      stop := by decide +kernel
      inside := by decide +kernel
      scanning := fun _ => by decide +kernel }
  scanning := fun h => nomatch (h : Engine.held _ _ = _)

/-! ### Jobs and runs -/

/-- The state after `k` steps, if none of them takes up an INIT or a reset. -/
def afterInJob : (k : Nat) → State → Option State
  | 0, s => some s
  | k + 1, s =>
    if s.engine = .accepted (encodeCmd .init) ∨ s.agenda.head? = some .reset then none
    else match step s with
      | .next t => afterInJob k t
      | _ => none

theorem inJob_after (k : Nat) : ∀ {r s t : State}, InJob r s → afterInJob k s = some t → InJob r t := by
  induction k with
  | zero => intro r s t h hs; cases hs; exact h
  | succ k ih =>
    intro r s t h hs
    rw [afterInJob] at hs
    split at hs
    · cases hs
    · rename_i hn
      rw [not_or] at hn
      split at hs
      · rename_i u hu; exact ih (h.step hn.1 hn.2 hu) hs
      · cases hs

theorem inJob_of {s : State} (k : Nat) (p : State → Bool) (h : (afterInJob k s).any p = true) :
    ∃ t, InJob s t ∧ p t = true := by
  cases hs : afterInJob k s with
  | none => rw [hs] at h; cases h
  | some t => rw [hs] at h; exact ⟨t, inJob_after k (.refl s) hs, h⟩

theorem endOfRun_of {s : State} (n : Nat)
    (hend : (nextOf (Host.Core.run Sys2Proof.core n s)).any State.atEnd = true)
    (hbefore : ∀ m < n, (nextOf (Host.Core.run Sys2Proof.core m s)).all
      (fun u => !u.atEnd && decide (u.agenda.head? ≠ some .reset)) = true) :
    ∃ t, EndOfRun s t := by
  obtain ⟨t, ht, hp⟩ := next_of _ hend
  refine ⟨t, hp, n, ht, fun m hm u hu => ?_⟩
  have h := hbefore m hm
  rw [hu] at h
  simpa [nextOf] using h

/-! ### Witnesses: hypotheses of the obligations that a state meets, clause by clause -/

theorem witness_IllegalEncodingsAreExactlyThese : ¬∃ i, decodeCmd 0x5 = .ok i := by
  rintro ⟨i, h⟩
  exact nomatch (h : Except.error IllegalReason.unassignedOp = Except.ok i)

theorem witness_StepRunsDecodedCommand :
    (zeros.accept 0x4211).engine = .accepted 0x4211 ∧ decodeCmd 0x4211 = .ok (.hadv 2 0 1) ∧
      (zeros.accept 0x4211).agenda = [] ∧
      ({ zeros.accept 0x4211 with agenda := [.engine, .wait] } : State).agenda = .engine :: [.wait] :=
  ⟨rfl, rfl, rfl, rfl⟩

theorem witness_HashWindowIs64Bytes : 64 ≤ (List.replicate 64 (0 : Byte)).length := by decide

theorem witness_LowHashBitsAreLocal : 0 < ([0] : List Byte).length := by decide

theorem witness_BtestReadsLowBits :
    zeros.cfgOk = true ∧ zeros.bmode = false ∧
      ({ zeros with cfg := cfgWord 4 4 64 1 4 } : State).bmode = true := by decide +kernel

theorem witness_KeyIsLowHlogBits : ∀ k < zeros.hlog, (0x18 : Word).getLsbD k = (0x08 : Word).getLsbD k := by
  decide +kernel

theorem witness_TinsOverwritesOneBucket : zeros.cfgOk = true ∧ zeros.hlog ≤ zeros.params.hlogMax := by
  decide +kernel

theorem witness_TlkpReturnsBucketOrEmpty :
    fullFifo.cfgOk = true ∧ fullFifo.hlog ≤ fullFifo.params.hlogMax ∧
      fullFifo.tableRead ((fullFifo.reg 2).toNat % 2 ^ fullFifo.hlog) = some 10 ∧
      fullFifo.tableRead ((fullFifo.reg 1).toNat % 2 ^ fullFifo.hlog) = none := by decide +kernel

theorem witness_FilledBucketsStayFilled :
    (∃ t, exec .step roomInFifo = .next t ∧ true = true) ∧ roomInFifo.tableRead 0 ≠ none :=
  ⟨next_of _ (by decide +kernel), by decide +kernel⟩

theorem witness_VfwdCountsEqualBytesForward :
    zeros.cfgOk = true ∧ zeros.bufN ≤ zeros.params.bufCap := by decide +kernel

theorem witness_XbwdCountsEqualBytesBackward :
    zeros.cfgOk = true ∧ zeros.bufN ≤ zeros.params.bufCap := by decide +kernel

/-- One state for each reason to reject: EMPTY; a candidate at the current offset; a position one past
N; a position one before PREV_END; a candidate one past the window; a length below MINM. -/
theorem witness_MatchRejectsBadCandidate :
    zeros.cfgOk = true ∧ zeros.bufN ≤ zeros.params.bufCap ∧
      (zeros.setReg 0 empty).reg 0 = 0xFFFFFFFFFFFFFFFF ∧
      ((zeros.setReg 0 9).setReg 1 9).reg 1 ≤ ((zeros.setReg 0 9).setReg 1 9).reg 0 ∧
      zeros.bufN < ((zeros.setReg 1 33).reg 1).toNat ∧
      ((fullFifo.setReg 1 9).reg 1).toNat < fullFifo.prevEnd.toNat ∧
      2 ^ zeros.wlog < (zeros.setReg 1 17).reg 1 - (zeros.setReg 1 17).reg 0 ∧
      (jobOn (quick ++ quick)).fwdLen 1 3 + (jobOn (quick ++ quick)).bwdLen 1 3 0
        < (jobOn (quick ++ quick)).minm := by decide +kernel

/-- With room and without: MATCH r0, r1 with candidate 11 and current 15. -/
theorem witness_MatchEmitsOrHolds :
    fullFifo.cfgOk = true ∧ fullFifo.bufN ≤ fullFifo.params.bufCap ∧
      fullFifo.reg 0 ≠ 0xFFFFFFFFFFFFFFFF ∧ (fullFifo.reg 0).toNat < (fullFifo.reg 1).toNat ∧
      (fullFifo.reg 1).toNat ≤ fullFifo.bufN ∧ fullFifo.prevEnd.toNat ≤ (fullFifo.reg 1).toNat ∧
      (fullFifo.reg 1).toNat - (fullFifo.reg 0).toNat ≤ 2 ^ fullFifo.wlog ∧
      fullFifo.minm ≤ fullFifo.fwdLen 11 15 + fullFifo.bwdLen 11 15 10 ∧
      fullFifo.params.fifoDepth ≤ fullFifo.fifo.length ∧
      roomInFifo.fifo.length < roomInFifo.params.fifoDepth := by decide +kernel

theorem witness_PushedDescriptorsAreGood :
    heldScan.popHead.engine ≠ .accepted (encodeCmd .init) ∧
      ∃ t, heldScan.popHead.engineStep = .next t ∧ decide (t.fifo = [candidate.desc]) = true :=
  ⟨by decide +kernel, next_of _ (by decide +kernel)⟩

/-- One configuration for each check of INIT that fails first, and each at its edge. -/
theorem witness_InitReportsFirstFailure :
    ({ zeros with cfg := cfgWord 4 3 2 0 4 } : State).hlog < zeros.params.hlogMin ∧
      zeros.params.wlogMax < ({ zeros with cfg := cfgWord 21 4 2 0 4 } : State).wlog ∧
      ({ zeros with cfg := cfgWord 4 4 2 0 0 } : State).minm = 0 ∧
      ({ zeros with bufLen := 15 } : State).bufN < 2 ^ zeros.wlog ∧
      2 ^ zeros.params.bufCapLog < ({ zeros with bufLen := 0x100001 } : State).bufN ∧
      64 < ({ zeros with cfg := cfgWord 4 4 65 0 4 } : State).hrl := by decide +kernel

/-- The configuration of P3, and the largest legal one. -/
theorem witness_InitStartsJob :
    zeros.configError = none ∧
      ({ zeros with cfg := cfgWord 20 20 64 1 0xFFFFFFFF, bufLen := 0x100000 } : State).configError
        = none := by decide +kernel

theorem witness_ScanEndsAtEndOfBuffer :
    ({ zeros with pos := 32, eob := true } : State).eob = true ∧ zeros.cfgOk = true ∧
      zeros.bufN ≤ zeros.params.bufCap ∧ zeros.hlog ≤ zeros.params.hlogMax := by decide +kernel

/-- Both reasons for no boundary: the chunk is too short, and the hash fails the test. -/
theorem witness_StepWithoutBoundary :
    zeros.cfgOk = true ∧ zeros.bufN ≤ zeros.params.bufCap ∧ zeros.hlog ≤ zeros.params.hlogMax ∧
      zeros.eob = false ∧ zeros.pos.toNat < zeros.bufN ∧
      zeros.pos.toNat - zeros.cstart.toNat < zeros.minm ∧
      (jobOn (quick ++ quick)).isBoundary 0x925 = false := by decide +kernel

/-- An empty bucket, and a candidate out of the window. -/
theorem witness_StepAtBoundaryWithoutMatch :
    ({ fullFifo with table := [] } : State).tableRead
        (fullFifo.key (advance fullFifo.params fullFifo.hash (fullFifo.bufByte 14))) = none ∧
      ({ fullFifo with pos := 31, table := [(0, 10)] } : State).emit 10 32 = none ∧
      fullFifo.minm ≤ fullFifo.pos.toNat - fullFifo.cstart.toNat ∧
      fullFifo.isBoundary (advance fullFifo.params fullFifo.hash (fullFifo.bufByte 14)) = true := by
  decide +kernel

theorem witness_StepAtMatchJumpsOrHolds :
    fullFifo.cfgOk = true ∧ fullFifo.bufN ≤ fullFifo.params.bufCap ∧
      fullFifo.hlog ≤ fullFifo.params.hlogMax ∧ fullFifo.eob = false ∧
      fullFifo.pos.toNat < fullFifo.bufN ∧ fullFifo.minm ≤ fullFifo.pos.toNat - fullFifo.cstart.toNat ∧
      fullFifo.isBoundary (advance fullFifo.params fullFifo.hash (fullFifo.bufByte 14)) = true ∧
      fullFifo.tableRead (fullFifo.key (advance fullFifo.params fullFifo.hash (fullFifo.bufByte 14)))
        = some 10 ∧ fullFifo.emit 10 15 = some candidate ∧
      fullFifo.params.fifoDepth ≤ fullFifo.fifo.length ∧
      roomInFifo.fifo.length < roomInFifo.params.fifoDepth := by decide +kernel

theorem witness_StepRaisesPosWithinBuffer :
    zeros.Inv ∧ zeros.cfgOk = true ∧ zeros.eob = false ∧ (∀ e k, zeros.engine ≠ .held e k) ∧
      ∃ t, exec .step zeros = .next t ∧ true = true :=
  ⟨zeros_inv, rfl, rfl, fun _ _ h => (nomatch (h : Engine.idle = .held _ _)),
    next_of (fun _ => true) (by decide +kernel)⟩

/-- A scan that holds, and one with room for every descriptor it could push. -/
theorem witness_ScanRunsToEndOrHolds :
    fullFifo.Inv ∧ fullFifo.cfgOk = true ∧
      zeros.fifo.length + 1 + (zeros.bufN - zeros.pos.toNat) / (zeros.minm + 1) ≤ zeros.params.fifoDepth :=
  ⟨fullFifo_inv, rfl, by decide +kernel⟩

theorem witness_ScanEqualsSteps :
    zeros.Inv ∧ zeros.cfgOk = true ∧ ∃ t, exec .scan zeros = .next t ∧ !t.busy = true :=
  ⟨zeros_inv, rfl, next_of _ (by decide +kernel)⟩

/-- One SCAN that completes; and a SCAN of P6 on a FIFO of depth 1: it holds, the host pops, and the job
ends with one descriptor popped and one in the FIFO. -/
theorem witness_ScanCoversEachByteOnce :
    (zeros.Inv ∧ zeros.fifo = [] ∧ zeros.prevEnd = 0 ∧ ∃ t, exec .scan zeros = .next t ∧ !t.busy = true) ∧
      (twoMatches.withFetchWord 32 3).cfgOk = true ∧ (twoMatches.withFetchWord 32 3).fifo = [] ∧
      (twoMatches.withFetchWord 32 3).prevEnd = 0 ∧
      ∃ t, InJob { twoMatches.withFetchWord 32 3 with
          agenda := [.engine, .host (.write 8 0x0D8 0), .engine] } t ∧
        (t.cfgOk && t.eob && decide (t.popped = [⟨0, 16, 16⟩] ∧ t.fifo = [⟨32, 48, 16⟩])) = true :=
  ⟨⟨zeros_inv, rfl, rfl, next_of _ (by decide +kernel)⟩, rfl, rfl, rfl, inJob_of 3 _ (by decide +kernel)⟩

/-- A second state that differs in everything INIT does not read. -/
theorem witness_ScanIsDeterminedByInput :
    (∀ a < zeros.bufN, zeros.bufByte a = (jobOn (List.replicate 33 0)).bufByte a) ∧
      (∃ t, exec .init zeros = .next t ∧ t.cfgOk = true) ∧
      ∃ t, exec .scan zeros = .next t ∧ true = true :=
  ⟨by decide +kernel, next_of _ (by decide +kernel), next_of _ (by decide +kernel)⟩

theorem witness_PrimitivesKeepScanState :
    ∃ t, exec (.matchEmit 2 0 1) roomInFifo = .next t ∧ decide (t.mcount = 2) = true :=
  next_of _ (by decide +kernel)

/-- MATCH, STEP and SCAN all hold in `fullFifo`; and a SCAN that starts with an empty FIFO fills it and
then holds, until one pop lets it end. -/
theorem witness_HoldChangesNoResult :
    (fullFifo.Inv ∧ fullFifo.fifo ≠ [] ∧
      (∃ h, exec (.matchEmit 2 0 1) fullFifo = .next h ∧ h.stall = true) ∧
      (∃ h, exec .step fullFifo = .next h ∧ h.stall = true) ∧
      ∃ h, exec .scan fullFifo = .next h ∧ (h.stall && decide (h = heldScan)) = true) ∧
    twoMatches.Inv ∧ twoMatches.fifo = [] ∧ twoMatches.fifo.length + twoMatches.bufN < 65 ∧
      ∃ h, exec .scan twoMatches = .next h ∧
        (h.stall && (nextOf (popsAndTurns [1] h)).any fun t =>
          !t.busy && decide (t.popped ++ t.fifo = [⟨0, 16, 16⟩, ⟨32, 48, 16⟩])) = true :=
  ⟨⟨fullFifo_inv, by decide +kernel, next_of _ (by decide +kernel), next_of _ (by decide +kernel),
    next_of _ (by decide +kernel)⟩, twoMatches_inv, rfl, by decide +kernel, next_of _ (by decide +kernel)⟩

/-- A part of a SCAN that pushes, and the state in which it does so. -/
theorem witness_PartsOfATurnChangeNoResult :
    fullFifo.Inv ∧ (∃ t, ({ roomInFifo with engine := .accepted 3 } : State).enginePart = .next t ∧
      (t.busy && decide (t.fifo.length = 2)) = true) ∧
      ∃ t, heldScan.popHead.enginePart = .next t ∧ (t.busy && decide (t.fifo.length = 1)) = true :=
  ⟨fullFifo_inv, next_of _ (by decide +kernel), next_of _ (by decide +kernel)⟩

/-- The empty agenda, the wait, and events that do not end a hold: turns, a read of DESC_POP, a narrow
write of it, and a write of the register beside it. -/
theorem witness_UnpoppedHoldIsStuck :
    heldScan.stall = true ∧ heldScan.agenda = [] ∧
      ({ heldScan with agenda := [.wait] } : State).agenda = [.wait] ∧
      (∀ e ∈ ([.engine, .enginePart, .wait, .host (.read 8 0x0D8), .host (.write 4 0x0D8 0),
        .host (.write 8 0x0D0 0)] : List Event), e.endsHold = false) ∧
      Event.endsHold (.host (.write 8 0x0D8 0)) = true := by decide +kernel

theorem witness_CfgOkGatesEightCommands :
    needsCfgOk .scan = true ∧ State.reset.cfgOk = false ∧ needsCfgOk .init = false ∧
      State.reset.errCode = 0 ∧ ∃ t, exec .init State.reset = .next t ∧ t.err = true :=
  ⟨rfl, rfl, rfl, rfl, next_of _ (by decide +kernel)⟩

theorem witness_ErrorsArePrecise :
    State.reset.err = false ∧ (∃ t, exec .scan State.reset = .next t ∧ t.err = true) ∧
      ∃ t, exec .init State.reset = .next t ∧ t.err = true :=
  ⟨rfl, next_of _ (by decide +kernel), next_of _ (by decide +kernel)⟩

theorem witness_CommandsKeepTheirInputs : ∃ t, exec .scan fullFifo = .next t ∧ t.stall = true :=
  next_of _ (by decide +kernel)

theorem witness_CommandsWriteOnlyRd :
    destReg (.gear 1 0) ≠ some 2 ∧ ∃ t, exec (.gear 1 0) zeros = .next t ∧ t.done = true :=
  ⟨by decide, next_of _ (by decide +kernel)⟩

theorem witness_CommandsCompleteOrHold :
    (∃ t, exec .nop zeros = .next t ∧ t.done = true) ∧ ∃ t, exec .step fullFifo = .next t ∧ t.stall = true :=
  ⟨next_of _ (by decide +kernel), next_of _ (by decide +kernel)⟩

/-- Accepted; dropped while busy; dropped while ERR = 1. -/
theorem witness_CmdWriteIsAcceptedOrDropped :
    (zeros.busy = false ∧ zeros.err = false) ∧ heldScan.busy = true ∧
      ({ zeros with err := true, errCode := 1 } : State).err = true := by decide +kernel

/-- A busy engine; the aperture's last byte; and the reserved registers at both ends. -/
theorem witness_BusyWritesAreDropped :
    heldScan.busy = true ∧ ApertureAccess heldScan.params 1 0x10FFFFF 0xFFFFF ∧
      (0x0E8 ≤ (0x0E8 : BitVec 25).toNat ∧ (0xFF8 : BitVec 25).toNat < 0x1000 ∧
        8 ∣ (0xFF8 : BitVec 25).toNat) :=
  ⟨by decide, ⟨by decide, by decide, by decide, by decide⟩, by decide⟩

theorem witness_RegisterWritesStore : zeros.busy = false := by decide

/-- Each range at its edges: a wrong width, a misaligned offset and the last register; the unmapped
range's ends; the first offset past the buffer, and a width of 3. -/
theorem witness_BadAccessesSetBuserr :
    ((0x000 : BitVec 25).toNat < 0x1000 ∧ ¬(4 = 8 ∧ 8 ∣ (0x000 : BitVec 25).toNat)) ∧
      ((0xFFC : BitVec 25).toNat < 0x1000 ∧ ¬(8 = 8 ∧ 8 ∣ (0xFFC : BitVec 25).toNat)) ∧
      (0x1000 ≤ (0x1000 : BitVec 25).toNat ∧ (0xFFFFFF : BitVec 25).toNat < 0x1000000) ∧
      (0x1000000 ≤ (0x1100000 : BitVec 25).toNat ∧
        ¬((0x1100000 : BitVec 25).toNat - 0x1000000 + 1 ≤ State.reset.params.bufCap)) ∧
      ¬(3 ∈ [1, 2, 4, 8]) := by decide +kernel

/-- The aperture's first word and its last byte. -/
theorem witness_ApertureIsLittleEndian :
    (8 ∣ 0 ∧ 0 + 8 ≤ zeros.params.bufCap ∧ (0x1000000 : BitVec 25).toNat = 0x1000000 + 0) ∧
      (1 ∣ 0xFFFFF ∧ 0xFFFFF + 1 ≤ zeros.params.bufCap ∧
        (0x10FFFFF : BitVec 25).toNat = 0x1000000 + 0xFFFFF) ∧
      zeros.busy = false := by decide

/-- Busy and idle, the reserved registers at both ends, and an aperture access of each width. -/
theorem witness_ReadsChangeNothing :
    heldScan.busy = true ∧ zeros.busy = false ∧
      (0x0E8 ≤ (0x0E8 : BitVec 25).toNat ∧ (0xFF8 : BitVec 25).toNat < 0x1000 ∧
        8 ∣ (0xFF8 : BitVec 25).toNat) ∧
      ApertureAccess heldScan.params 1 0x10FFFFF 0xFFFFF ∧ ApertureAccess heldScan.params 2 0x1000002 2 ∧
      ApertureAccess heldScan.params 4 0x1000004 4 ∧ ApertureAccess heldScan.params 8 0x10FFFF8 0xFFFF8 :=
  ⟨by decide, by decide, by decide, ⟨by decide, by decide, by decide, by decide⟩,
    ⟨by decide, by decide, by decide, by decide⟩, ⟨by decide, by decide, by decide, by decide⟩,
    ⟨by decide, by decide, by decide, by decide⟩⟩

theorem witness_IdentificationReads :
    Config.thisHardware.wf = true ∧
      ({ Config.thisHardware with hlogMax := 32, bufCapLog := 24, wlogMax := 24, fifoDepth := 255 }
        : Params).wf = true := by decide +kernel

/-- With descriptors in the FIFO and without. -/
theorem witness_DescriptorsReadAndPop :
    heldScan.Inv ∧ zeros.Inv ∧ heldScan.fifo ≠ [] ∧ zeros.fifo = [] :=
  ⟨heldScan_inv, zeros_inv, by decide +kernel, rfl⟩

theorem witness_ResetZeroesEveryRegister : heldScan.params.wf = true := by decide +kernel

/-- An engine step, a host access and a reset. -/
theorem witness_StepKeepsInvariant :
    fullFifo.Inv ∧ (∃ t, step { fullFifo with agenda := [.host (.write 8 0x0D8 0)] } = .next t ∧
        t.fifo.isEmpty = true) ∧
      (∃ t, step { fullFifo with engine := .accepted 3 } = .next t ∧ t.stall = true) ∧
      ∃ t, step { fullFifo with agenda := [.reset] } = .next t ∧ !t.cfgOk = true :=
  ⟨fullFifo_inv, next_of _ (by decide +kernel), next_of _ (by decide +kernel),
    next_of _ (by decide +kernel)⟩

theorem witness_StepNeverStops : heldScan.Inv := heldScan_inv

/-- BUF_LEN one above BUF_CAP, and HLOG one above HLOG_MAX. -/
theorem witness_UncheckedConfigurationFaults :
    zeros.cfgOk = true ∧
      zeros.params.bufCap < ({ zeros with bufLen := 0x100001 } : State).bufN ∧
      zeros.params.hlogMax < ({ zeros with cfg := cfgWord 4 21 2 0 4 } : State).hlog ∧
      zeros.bufN ≤ zeros.params.bufCap := by decide +kernel

/-- A run with one command and the wait for it has an end; and at an end a turn of the engine may be
left on the agenda, before a reset too. -/
theorem witness_EndOfRunIsFinal :
    (∃ t, EndOfRun (State.started hardware (progCmd .nop ++ progWait)) t) ∧
      State.atEnd { zeros with agenda := [.engine] } = true ∧
      State.atEnd { zeros with agenda := [.engine, .reset, .wait] } = true ∧
      Params.target zeros.params 8 0x048 = .register .pos :=
  ⟨endOfRun_of 4 (by decide +kernel) (by decide +kernel), by decide +kernel⟩

end Sys2Proof.Tests
end

section
/-! PROOFS. Host accesses to registers: what a write does while the engine is busy, what ignores writes, and
that reads change nothing (10_state R31 to R58, 20_memory R81 to R88). -/

namespace Sys2Proof.Machine

open Sys2Proof

/-! ### Register accesses -/

/-- The registers that only an idle engine lets the host write (10_state R57). -/
def HostReg.idleOnly : HostReg → Bool
  | .cfg | .bufLen | .cmd | .gpr _ => true
  | _ => false

/-- The registers that ignore writes (10_state R31, R44). -/
def HostReg.ignoresWrites : HostReg → Bool
  | .id | .params | .errCode | .hash | .pos | .cstart | .prevEnd | .bcount | .hcount | .mcount => true
  | .descSrc | .descDst | .descLen | .fifoCount | .reserved => true
  | _ => false

theorem writeReg_of_busy {s : State} {r : HostReg} (hr : r.idleOnly = true) (h : s.busy = true)
    (v : Word) : s.writeReg r v = s.setDrop := by
  cases r with
  | cfg | bufLen | gpr => exact whenIdle_busy h
  | cmd => simp [State.writeReg, h]
  | _ => cases hr

theorem writeReg_of_ignoresWrites {r : HostReg} (hr : r.ignoresWrites = true) (s : State) (v : Word) :
    s.writeReg r v = s := by
  cases r with
  | cfg | bufLen | cmd | status | ie | gpr | descPop => cases hr
  | _ => rfl

theorem readReg_of_stable {s : State} {r : HostReg} (h : r.volatile = false ∨ s.busy = false) :
    s.readReg r = s.respond (s.regValue r) false := by
  rw [State.readReg, if_neg (by simpa [imp_iff_not_or] using h)]

theorem readReg_of_draw {s : State} {r : HostReg} (hr : r.volatile = true) (h : s.busy = true) :
    s.readReg r = { s with
      draws := s.draws + 1, response := ⟨Config.busyRead s.engineId s.draws, false⟩ } := by
  rw [State.readReg, hr, h]; rfl

/-- The register at `addr`, by an aligned 8-byte access (20_memory R81), is `r`. -/
structure RegisterAt (addr : BitVec 25) (r : HostReg) : Prop where
  below : addr.toNat < 0x1000
  aligned : 8 ∣ addr.toNat
  named : hostRegAt addr.toNat = r

theorem registerAt_reserved {addr : BitVec 25} (hlo : 0x0E8 ≤ addr.toNat) (hhi : addr.toNat < 0x1000)
    (h8 : 8 ∣ addr.toNat) : RegisterAt addr .reserved := ⟨hhi, h8, hostRegAt_reserved hlo⟩

theorem RegisterAt.target {addr : BitVec 25} {r : HostReg} (h : RegisterAt addr r) (p : Params) :
    Params.target p 8 addr = .register r := by
  rw [target_of_register p h.below h.aligned, h.named]

theorem RegisterAt.read {addr : BitVec 25} {r : HostReg} (h : RegisterAt addr r) (s : State) :
    s.hostAccess (.read 8 addr) = s.readReg r := by
  rw [State.hostAccess, h.target]

theorem RegisterAt.write {addr : BitVec 25} {r : HostReg} (h : RegisterAt addr r) (s : State)
    (v : Word) : s.hostAccess (.write 8 addr v) = (s.writeReg r v).respond 0 false := by
  rw [State.hostAccess, h.target]

theorem RegisterAt.write_of_busy {addr : BitVec 25} {r : HostReg} (h : RegisterAt addr r)
    (hr : r.idleOnly = true) {s : State} (hb : s.busy = true) (v : Word) :
    s.hostAccess (.write 8 addr v) = { s with drop := true, response := ⟨0, false⟩ } := by
  rw [h.write, writeReg_of_busy hr hb]; rfl

theorem RegisterAt.write_of_ignoresWrites {addr : BitVec 25} {r : HostReg} (h : RegisterAt addr r)
    (hr : r.ignoresWrites = true) (s : State) (v : Word) :
    s.hostAccess (.write 8 addr v) = { s with response := ⟨0, false⟩ } := by
  rw [h.write, writeReg_of_ignoresWrites hr]; rfl

theorem RegisterAt.read_of_stable {addr : BitVec 25} {r : HostReg} (h : RegisterAt addr r) {s : State}
    (hr : r.volatile = false ∨ s.busy = false) :
    s.hostAccess (.read 8 addr) = { s with response := ⟨s.regValue r, false⟩ } := by
  rw [h.read, readReg_of_stable hr]; rfl

/-- The register map: each named register, and the reserved place among them, with its offset (10_state
R31). -/
def registerMap : List (BitVec 25 × HostReg) :=
  [(0x000, .id), (0x008, .params), (0x010, .cfg), (0x018, .bufLen), (0x020, .cmd), (0x028, .status),
    (0x030, .errCode), (0x038, .ie), (0x040, .hash), (0x048, .pos), (0x050, .cstart),
    (0x058, .prevEnd), (0x060, .bcount), (0x068, .hcount), (0x070, .mcount), (0x078, .reserved),
    (0x080, .gpr 0), (0x088, .gpr 1), (0x090, .gpr 2), (0x098, .gpr 3), (0x0A0, .gpr 4),
    (0x0A8, .gpr 5), (0x0B0, .gpr 6), (0x0B8, .gpr 7), (0x0C0, .descSrc), (0x0C8, .descDst),
    (0x0D0, .descLen), (0x0D8, .descPop), (0x0E0, .fifoCount)]

theorem registerAt_of_mem {row : BitVec 25 × HostReg} (hrow : row ∈ registerMap) :
    RegisterAt row.1 row.2 := by
  have hall : ∀ row ∈ registerMap, row.1.toNat < 0x1000 ∧ 8 ∣ row.1.toNat ∧
      hostRegAt row.1.toNat = row.2 := by decide
  obtain ⟨hlt, h8, hname⟩ := hall row hrow
  exact ⟨hlt, h8, hname⟩

theorem registerAt_gpr (r : Reg) : RegisterAt (BitVec.ofNat 25 (0x080 + 8 * r.val)) (.gpr r) := by
  fin_cases r <;> exact ⟨by decide, by decide, rfl⟩

/-! ### Dropped and ignored writes -/

/-- Settles O46: each listed offset is a register of the map, and the register alone says whether a write is
dropped or ignored. -/
theorem busyWritesAreDropped : Obligations.BusyWritesAreDropped := by
  unfold Obligations.BusyWritesAreDropped
  refine fun s v => ⟨fun hbusy => ⟨fun addr haddr => ?_, fun r => ?_, fun width addr off ha => ?_⟩,
    fun addr haddr => ?_⟩
  · have hreg : ∃ r, RegisterAt addr r ∧ r.idleOnly = true := by
      simp only [List.mem_cons, List.not_mem_nil, or_false] at haddr
      rcases haddr with rfl | rfl | rfl
      · exact ⟨.cfg, registerAt_of_mem (row := (0x010, .cfg)) (by decide), rfl⟩
      · exact ⟨.bufLen, registerAt_of_mem (row := (0x018, .bufLen)) (by decide), rfl⟩
      · exact ⟨.cmd, registerAt_of_mem (row := (0x020, .cmd)) (by decide), rfl⟩
    obtain ⟨r, hat, hr⟩ := hreg
    exact hat.write_of_busy hr hbusy v
  · exact (registerAt_gpr r).write_of_busy rfl hbusy v
  · rw [State.hostAccess, target_of_aperture ha]
    exact congrArg (State.respond 0 false) (whenIdle_busy hbusy)
  · have hreg : ∃ r, RegisterAt addr r ∧ r.ignoresWrites = true := by
      rcases haddr with hlist | ⟨hlo, hhi, h8⟩
      · change addr ∈ (registerMap.filter (·.2.ignoresWrites)).map Prod.fst at hlist
        obtain ⟨row, hrow, rfl⟩ := List.mem_map.1 hlist
        obtain ⟨hmem, hr⟩ := List.mem_filter.1 hrow
        exact ⟨row.2, registerAt_of_mem hmem, hr⟩
      · exact ⟨.reserved, registerAt_reserved hlo hhi h8, rfl⟩
    obtain ⟨r, hat, hr⟩ := hreg
    exact hat.write_of_ignoresWrites hr s v

/-! ### Reads -/

theorem head_eq (s : State) (field : Desc → Word) :
    s.head field = (s.fifo.head?.map field).getD 0 := by
  rw [State.head]
  cases s.fifo <;> rfl

/-- Settles O50: the two lists of offsets are the parts of the register map that are never draws and that are
draws while busy. -/
theorem readsChangeNothing : Obligations.ReadsChangeNothing := by
  unfold Obligations.ReadsChangeNothing
  refine fun s => ⟨?_, fun addr hlo hhi h8 => ?_, ?_, fun width addr off ha => ?_⟩
  · simp only [← head_eq]
    change ∀ row ∈ (registerMap.filter (!·.2.volatile)).map fun row => (row.1, s.regValue row.2), _
    rw [List.forall_mem_map]
    intro row hrow
    obtain ⟨hmem, hr⟩ := List.mem_filter.1 hrow
    exact (registerAt_of_mem hmem).read_of_stable (.inl (by simpa using hr))
  · exact (registerAt_reserved hlo hhi h8).read_of_stable (.inl rfl)
  · change ∀ row ∈ (registerMap.filter (·.2.volatile)).map fun row => (row.1, s.regValue row.2), _
    rw [List.forall_mem_map]
    intro row hrow
    obtain ⟨hmem, hr⟩ := List.mem_filter.1 hrow
    have hat := registerAt_of_mem hmem
    refine ⟨fun hidle => hat.read_of_stable (.inr hidle), fun hbusy => ?_⟩
    rw [hat.read, readReg_of_draw hr hbusy]
  · refine ⟨BitVec.ofNat 64 (s.memRead off width), ?_⟩
    rw [State.hostAccess, target_of_aperture ha]
    rfl

/-! ### ID and PARAMS -/

/-- A mask of a number that is split at bit 8 masks both parts. -/
theorem land_split_byte {a m : Nat} (ha : a < 2 ^ 8) (hm : m < 2 ^ 8) (b n : Nat) :
    (2 ^ 8 * b + a) &&& (2 ^ 8 * n + m) = 2 ^ 8 * (b &&& n) + (a &&& m) := by
  refine Nat.eq_of_testBit_eq fun i => ?_
  have : a &&& m < 2 ^ 8 := Nat.and_lt_two_pow _ hm
  simp only [Nat.testBit_and, Nat.testBit_two_pow_mul_add, ha, hm, this]
  split <;> rfl

theorem land_sixBits {a : Nat} (h : a < 2 ^ 6) : a &&& 0x3F = a := by
  rw [show 0x3F = 2 ^ 6 - 1 from rfl, Nat.and_two_pow_sub_one_eq_mod, Nat.mod_eq_of_lt h]

/-- PARAMS as a number: one byte for each parameter, from the low end up (10_state R34). -/
def packedParams (p : Params) : Nat :=
  2 ^ 8 * (2 ^ 8 * (2 ^ 8 * (2 ^ 8 * (2 ^ 8 * p.fifoDepth + p.bufCapLog) + p.wlogMax) + p.wlogMin)
    + p.hlogMax) + p.hlogMin

/-- Legal parameters fit their fields (00_scope R8, 10_state R34). -/
theorem params_fields_lt {p : Params} (h : p.wf = true) :
    p.hlogMin < 2 ^ 6 ∧ p.hlogMax < 2 ^ 6 ∧ p.wlogMin < 2 ^ 6 ∧ p.wlogMax < 2 ^ 6 ∧
      p.bufCapLog < 2 ^ 6 ∧ p.fifoDepth < 2 ^ 8 := by
  simp only [Params.wf, Bool.and_eq_true, decide_eq_true_eq] at h
  omega

theorem params_word_toNat {p : Params} (h : p.wf = true) : (Params.word p).toNat = packedParams p := by
  obtain ⟨h1, h2, h3, h4, h5, h6⟩ := params_fields_lt h
  rw [Params.word, BitVec.toNat_ofNat, packedParams]
  omega

/-- PARAMS has no bit outside its six fields (10_state R34). -/
theorem packedParams_masked {p : Params} (h : p.wf = true) :
    packedParams p &&& 0x0000FF3F3F3F3F3F = packedParams p := by
  obtain ⟨h1, h2, h3, h4, h5, h6⟩ := params_fields_lt h
  have hmask : 0x0000FF3F3F3F3F3F =
      2 ^ 8 * (2 ^ 8 * (2 ^ 8 * (2 ^ 8 * (2 ^ 8 * 0xFF + 0x3F) + 0x3F) + 0x3F) + 0x3F) + 0x3F := by
    norm_num
  have hdepth : p.fifoDepth &&& 0xFF = p.fifoDepth := by
    rw [show 0xFF = 2 ^ 8 - 1 from rfl, Nat.and_two_pow_sub_one_eq_mod, Nat.mod_eq_of_lt h6]
  rw [hmask, packedParams]
  iterate 5 rw [land_split_byte (by omega) (by norm_num)]
  rw [land_sixBits h1, land_sixBits h2, land_sixBits h3, land_sixBits h4, land_sixBits h5, hdepth]

theorem registerAt_id : RegisterAt 0x000 .id :=
  registerAt_of_mem (row := (0x000, .id)) (by decide)

theorem registerAt_params : RegisterAt 0x008 .params :=
  registerAt_of_mem (row := (0x008, .params)) (by decide)

/-- Settles O51: legal parameters fit one byte each, so the word of PARAMS is their bytes side by side. -/
theorem identificationReads : Obligations.IdentificationReads := by
  unfold Obligations.IdentificationReads
  refine ⟨fun s => ?_, fun s hwf => ?_, ?_⟩
  · rw [registerAt_id.read_of_stable (.inl rfl)]
    rfl
  · have hword : (s.hostAccess (.read 8 0x008)).response.data.toNat = packedParams s.params := by
      rw [registerAt_params.read_of_stable (.inl rfl)]
      exact params_word_toNat hwf
    simp only [hword]
    obtain ⟨h1, h2, h3, h4, h5, h6⟩ := params_fields_lt hwf
    refine ⟨?_, ?_, ?_, ?_, ?_, ?_, packedParams_masked hwf⟩ <;> rw [packedParams] <;> omega
  · rw [registerAt_params.read_of_stable (.inl rfl)]
    decide

end Sys2Proof.Machine
end

section
/-! PROOFS. A hold on a full FIFO changes no result (10_state R52, 44_scan_control R243): with any other FIFO
that has room, a command leads where one more turn of the engine leads from its hold. -/

namespace Sys2Proof.Machine

open Sys2Proof

/-! ### States with another FIFO -/

/-- `n` pops move the first `n` descriptors from the FIFO to the host (10_state R50). -/
theorem popHead_iterate (n : Nat) (s : State) :
    State.popHead^[n] s =
      s.withFifo s.params.fifoDepth (s.fifo.drop n) (s.popped ++ s.fifo.take n) := by
  induction n generalizing s with
  | zero => simp [State.withFifo]
  | succ n ih =>
    rw [Function.iterate_succ_apply, ih, popHead_eq]
    cases s.fifo <;> simp [State.withFifo]

/-- A pop is a change of the FIFO alone. -/
theorem popHead_eq_withFifo (s : State) :
    s.popHead = s.withFifo s.params.fifoDepth (s.fifo.drop 1) (s.popped ++ s.fifo.take 1) :=
  popHead_iterate 1 s

theorem ScanFrame.popped {s t : State} (h : ScanFrame s t) : t.popped = s.popped := by rw [h]

theorem length_lt_of_room {s : State} (h : s.fifoFull = false) :
    s.fifo.length < s.params.fifoDepth := Nat.not_le.1 (of_decide_eq_false h)

/-- Room for one descriptor is room to push it. -/
theorem push_fits {s : State} (hf : s.fifoFull = false) (d : Desc) :
    (s.fifo ++ [d]).length ≤ s.params.fifoDepth := by
  rw [List.length_append]
  exact length_lt_of_room hf

/-! ### One STEP_BODY, whatever the FIFO -/

/-- A STEP_BODY pushes only into a FIFO with room (10_state R52). -/
theorem stepBody_fits (s : State) (h : s.fifo.length ≤ s.params.fifoDepth) :
    s.stepBody.state.fifo.length ≤ s.params.fifoDepth := by
  rcases stepBody_cases s with ⟨-, hb⟩ | ⟨-, -, hb⟩ | ⟨-, -, -, hb⟩ | ⟨-, -, -, hit, hb⟩ |
    ⟨-, -, -, c, e, -, ⟨hf, hb⟩ | ⟨-, hb⟩⟩ <;> rw [hb]
  · exact h
  · exact h
  · exact h
  · cases hit <;> exact h
  · exact push_fits (s := s.afterBoundary true) hf e.desc
  · exact h

theorem stepBody_ran_fits {s t : State} (hb : s.stepBody = .ran t)
    (h : s.fifo.length ≤ s.params.fifoDepth) : t.fifo.length ≤ s.params.fifoDepth := by
  have := stepBody_fits s h
  rwa [hb] at this

theorem stepBody_ran_scanFrame {s t : State} (hb : s.stepBody = .ran t) : ScanFrame s t := by
  have := stepBody_scanFrame s
  rwa [hb] at this

theorem stepBody_held_scanFrame {s t : State} {e : Emission} (hb : s.stepBody = .held e t) :
    ScanFrame s t := by
  have := stepBody_scanFrame s
  rwa [hb] at this

theorem stepBody_of_eob {s : State} (he : s.eob = true) : s.stepBody = .ran s := by
  rw [State.stepBody, if_pos he]

theorem stepBody_at_end {s : State} (he : s.eob = false) (hp : s.bufN ≤ s.pos.toNat) :
    s.stepBody = .ran { s with eob := true } := by
  simp [State.stepBody, he, hp]

/-- What a STEP_BODY that runs queues: at most one descriptor, which costs it a byte or more, and the
same one with every FIFO that has room. -/
theorem stepBody_ran_queues {s t : State} (hb : s.stepBody = .ran t) :
    ∃ q : List Desc, t.fifo = s.fifo ++ q ∧
      q.length + (t.bufN - t.pos.toNat) ≤ s.bufN - s.pos.toNat ∧
      ∀ (depth : Nat) (queue popped : List Desc), queue.length < depth →
        (s.withFifo depth queue popped).stepBody = .ran (t.withFifo depth (queue ++ q) popped) := by
  have hrun := fun (depth : Nat) (queue popped : List Desc) (h : queue.length < depth) =>
    (stepBody_withFifo popped s h).1 t hb
  obtain ⟨q, hq, hfifo, -⟩ := hrun 1 [] [] Nat.one_pos
  refine ⟨q, hfifo, ?_, fun depth queue popped hroom => ?_⟩
  · have hquiet (hf : t.fifo = s.fifo) : q.length = 0 := by simpa [hf] using hfifo
    cases he : s.eob with
    | true =>
      cases (stepBody_of_eob he).symm.trans hb
      rw [hquiet rfl, Nat.zero_add]
    | false =>
      rcases Nat.lt_or_ge s.pos.toNat s.bufN with hp | hp
      · obtain ⟨hlt, hle, -⟩ := (stepBody_pos he hp).1 t hb
        have hN := (stepBody_ran_scanFrame hb).sameInput.bufN
        omega
      · cases (stepBody_at_end he hp).symm.trans hb
        rw [hquiet rfl, Nat.zero_add]
        exact le_rfl
  · obtain ⟨q', -, hfifo', hwide⟩ := hrun depth queue popped hroom
    rwa [List.append_cancel_left (hfifo'.symm.trans hfifo)] at hwide

/-- What a STEP_BODY that holds has done: nothing to its FIFO, which is full, and with every FIFO that has
room it pushes and jumps, by a byte or more (44_scan_control R236, R241). -/
theorem stepBody_held_queues {s t : State} {e : Emission} (hb : s.stepBody = .held e t) :
    s.eob = false ∧ t.fifo = s.fifo ∧ t.fifoFull = true ∧
      s.pos.toNat < e.stop.toNat ∧ e.stop.toNat ≤ s.bufN ∧
      ∀ (depth : Nat) (queue popped : List Desc), queue.length < depth →
        (s.withFifo depth queue popped).stepBody =
          .ran ((t.finishJump e).withFifo depth (queue ++ [e.desc]) popped) := by
  have he : s.eob = false := by
    by_contra h
    cases (stepBody_of_eob (by simpa using h)).symm.trans hb
  obtain ⟨-, hfull, hlt, hle⟩ := (stepBody_advance he).2 e t hb
  have hpush := fun (depth : Nat) (queue popped : List Desc) (h : queue.length < depth) =>
    (stepBody_withFifo popped s h).2 e t hb
  exact ⟨he, (hpush 1 [] [] Nat.one_pos).1, hfull, hlt, hle,
    fun depth queue popped h => (hpush depth queue popped h).2⟩

/-! ### SCAN's loop, whatever the FIFO -/

/-- SCAN's loop gets from `s` to `t` and queues `q` on the way, one byte of the buffer or more for each
descriptor; it does so with every FIFO that has room for `q`. (`scanToEnd_withFifo` asks for room for all that
is left of the buffer; a FIFO that is only one pop ahead does not have that.) -/
structure ScanTo (s t : State) (q : List Desc) : Prop where
  frame : ScanFrame s t
  fifo : t.fifo = s.fifo ++ q
  fits : s.fifo.length ≤ s.params.fifoDepth → t.fifo.length ≤ s.params.fifoDepth
  bytes : q.length + (t.bufN - t.pos.toNat) ≤ s.bufN - s.pos.toNat
  alike : ∀ (depth : Nat) (queue popped : List Desc), queue.length + q.length < depth →
    (s.withFifo depth queue popped).scanToEnd = (t.withFifo depth (queue ++ q) popped).scanToEnd

theorem ScanTo.refl (s : State) : ScanTo s s [] where
  frame := .refl s
  fifo := by simp
  fits := id
  bytes := by simp
  alike _ _ _ _ := by simp

theorem ScanTo.trans {s t u : State} {q r : List Desc} (h : ScanTo s t q) (g : ScanTo t u r) :
    ScanTo s u (q ++ r) where
  frame := h.frame.trans g.frame
  fifo := by rw [g.fifo, h.fifo, List.append_assoc]
  fits hs := h.frame.params ▸ g.fits (h.frame.params ▸ h.fits hs)
  bytes := by
    have h1 := h.bytes
    have h2 := g.bytes
    rw [List.length_append]
    omega
  alike depth queue popped hroom := by
    rw [List.length_append] at hroom
    rw [h.alike depth queue popped (by omega),
      g.alike depth (queue ++ q) popped (by rw [List.length_append]; omega), List.append_assoc]

/-- A STEP_BODY that runs is one turn of SCAN's loop. -/
theorem scanTo_of_ran {s t : State} (he : s.eob = false) (hb : s.stepBody = .ran t) :
    ∃ q, ScanTo s t q := by
  obtain ⟨q, hfifo, hbytes, hwide⟩ := stepBody_ran_queues hb
  exact ⟨q, stepBody_ran_scanFrame hb, hfifo, stepBody_ran_fits hb, hbytes,
    fun depth queue popped hroom => scanToEnd_step he (hwide depth queue popped (by omega))⟩

/-- How SCAN's loop ends: it has run, or it has come to a STEP_BODY that holds. -/
theorem scanToEnd_scanTo (s : State) :
    (∀ t, s.scanToEnd = .ran t → ∃ q, ScanTo s t q) ∧
    (∀ e t, s.scanToEnd = .held e t → ∃ v q, ScanTo s v q ∧ v.stepBody = .held e t) := by
  refine scanLoop_induction (P := fun t => ∃ q, ScanTo s t q)
    (Q := fun e t => ∃ v q, ScanTo s v q ∧ v.stepBody = .held e t) ?_ ?_ _ s ⟨[], .refl s⟩
  · rintro v t ⟨q, h⟩ he hb
    obtain ⟨r, g⟩ := scanTo_of_ran he hb
    exact ⟨q ++ r, h.trans g⟩
  · rintro v e t ⟨q, h⟩ - hb
    exact ⟨v, q, h, hb⟩

/-! ### Turns with another FIFO -/

/-- A bound on the descriptors that a held command has still to push, and so on the turns that it needs:
the held one, and one for each byte behind its end. -/
def State.pushesLeft (s : State) : Nat :=
  match s.engine with
  | .held e _ => 1 + (s.bufN - e.stop.toNat)
  | _ => 0

/-- No command is in progress, or one is held that can go on. -/
def State.Resting (s : State) : Prop :=
  s.engine = .idle ∨ ∃ e k, s.engine = .held e k ∧
    (k = .scanJump → s.bufN ≤ s.params.bufCap ∧ s.hlog ≤ s.params.hlogMax)

/-- What `run` does from `s` to `t`: it queues `q`, and stops early only at a full FIFO. With any other
FIFO that has room for `q`, `run` leads where one more turn of the engine leads from `t`. `pushes` bounds what
`run` queued and what `t` has still to push. -/
structure Follows (run : State → Result) (s t : State) (pushes : Nat) (q : List Desc) : Prop where
  params : t.params = s.params
  popped : t.popped = s.popped
  fifo : t.fifo = s.fifo ++ q
  fits : s.fifo.length ≤ s.params.fifoDepth → t.fifo.length ≤ s.params.fifoDepth
  bound : q.length + t.pushesLeft ≤ pushes
  rests : t.Resting
  full : t.engine ≠ .idle → t.fifoFull = true
  alike : ∀ (depth : Nat) (queue popped : List Desc), queue.length + q.length < depth →
    run (s.withFifo depth queue popped) = (t.withFifo depth (queue ++ q) popped).engineStep

theorem pushesLeft_of_idle {s : State} (h : s.engine = .idle) : s.pushesLeft = 0 := by
  rw [State.pushesLeft, h]

theorem pushesLeft_of_held {s : State} {e : Emission} {k : Continuation}
    (h : s.engine = .held e k) : s.pushesLeft = 1 + (s.bufN - e.stop.toNat) := by
  rw [State.pushesLeft, h]

theorem engineStep_of_idle {s : State} (h : s.engine = .idle) : s.engineStep = .next s := by
  rw [State.engineStep, h]

/-- On a full FIFO a held engine does nothing (10_state R52). -/
theorem engineStep_of_full {s : State} (hr : s.Resting) (hf : s.fifoFull = true) :
    s.engineStep = .next s := by
  rcases hr with h | ⟨e, k, h, -⟩
  · exact engineStep_of_idle h
  · simp [State.engineStep, h, hf]

/-- With room in the FIFO a held command goes on (10_state R52). -/
theorem engineStep_of_room {s : State} {e : Emission} {k : Continuation}
    (h : s.engine = .held e k) (hf : s.fifoFull = false) : s.engineStep = s.resume e k := by
  simp [State.engineStep, h, hf]

/-- A run that completes and does not look at the FIFO queues what it queues into every FIFO. -/
theorem Follows.completed {run : State → Result} {s t : State} {pushes : Nat} {q : List Desc}
    (hidle : t.engine = .idle) (hparams : t.params = s.params) (hpopped : t.popped = s.popped)
    (hfifo : t.fifo = s.fifo ++ q)
    (hfits : s.fifo.length ≤ s.params.fifoDepth → t.fifo.length ≤ s.params.fifoDepth)
    (hbound : q.length ≤ pushes)
    (halike : ∀ (depth : Nat) (queue popped : List Desc), queue.length + q.length < depth →
      run (s.withFifo depth queue popped) = .next (t.withFifo depth (queue ++ q) popped)) :
    Follows run s t pushes q where
  params := hparams
  popped := hpopped
  fifo := hfifo
  fits := hfits
  bound := by rw [pushesLeft_of_idle hidle]; exact hbound
  rests := .inl hidle
  full h := absurd hidle h
  alike depth queue popped hroom := by
    rw [halike depth queue popped hroom]
    exact (engineStep_of_idle (s := t.withFifo depth (queue ++ q) popped) hidle).symm

/-- A run that completes and leaves the FIFO alone. -/
theorem Follows.quiet {run : State → Result} {s t : State} {pushes : Nat}
    (hidle : t.engine = .idle) (hparams : t.params = s.params) (hpopped : t.popped = s.popped)
    (hfifo : t.fifo = s.fifo)
    (halike : ∀ (depth : Nat) (queue popped : List Desc),
      run (s.withFifo depth queue popped) = .next (t.withFifo depth queue popped)) :
    Follows run s t pushes [] :=
  .completed hidle hparams hpopped (by simpa using hfifo) (fun h => hfifo ▸ h) (Nat.zero_le _)
    fun depth queue popped _ => by simpa using halike depth queue popped

/-- A run that stops in FifoPush, and that any FIFO with more room lets go on. -/
theorem Follows.held {run : State → Result} {s t : State} {pushes : Nat} {q : List Desc}
    {e : Emission} {k : Continuation}
    (hparams : t.params = s.params) (hpopped : t.popped = s.popped) (hfifo : t.fifo = s.fifo ++ q)
    (hfits : s.fifo.length ≤ s.params.fifoDepth → t.fifo.length ≤ s.params.fifoDepth)
    (hbound : q.length + (1 + (t.bufN - e.stop.toNat)) ≤ pushes) (hfull : t.fifoFull = true)
    (hk : k = .scanJump → t.bufN ≤ t.params.bufCap ∧ t.hlog ≤ t.params.hlogMax)
    (halike : ∀ (depth : Nat) (queue popped : List Desc), queue.length + q.length < depth →
      run (s.withFifo depth queue popped) =
        ((t.hold e k).withFifo depth (queue ++ q) popped).resume e k) :
    Follows run s (t.hold e k) pushes q where
  params := hparams
  popped := hpopped
  fifo := hfifo
  fits := hfits
  bound := hbound
  rests := .inr ⟨e, k, rfl, hk⟩
  full _ := hfull
  alike depth queue popped hroom := by
    rw [halike depth queue popped hroom]
    exact (engineStep_of_room (s := (t.hold e k).withFifo depth (queue ++ q) popped) rfl
      (withFifo_fifoFull (by rwa [List.length_append]) _ _)).symm

/-! ### The checks before a rule -/

/-- The outcome of a check that raises: CFG_NOT_VALID (30_encoding R119). -/
theorem needCfg_raises {s : State} (hc : s.cfgOk = false) (r : Result) :
    s.needCfg r = .next (s.raise .cfgNotValid) := by
  rw [State.needCfg, hc]; rfl

/-- A run that does what `run` does, with every FIFO, follows alike. -/
theorem Follows.congr {run run' : State → Result} {s t : State} {pushes : Nat} {q : List Desc}
    (h : Follows run s t pushes q)
    (heq : ∀ (depth : Nat) (queue popped : List Desc),
      run' (s.withFifo depth queue popped) = run (s.withFifo depth queue popped)) :
    Follows run' s t pushes q where
  __ := h
  alike := by
    intro depth queue popped hroom
    exact (heq depth queue popped).trans (h.alike depth queue popped hroom)

theorem Follows.needCfg {rule : State → Result} {s t : State} {pushes : Nat}
    (h : s.needCfg (rule s) = .next t)
    (hrule : rule s = .next t → ∃ q, Follows rule s t pushes q) :
    ∃ q, Follows (fun w => w.needCfg (rule w)) s t pushes q := by
  rcases needCfg_next h with ⟨hc, hr⟩ | ⟨hc, rfl⟩
  · obtain ⟨q, hq⟩ := hrule hr
    exact ⟨q, hq.congr fun depth queue popped =>
      needCfg_of (s := s.withFifo depth queue popped) hc _⟩
  · exact ⟨[], .quiet rfl rfl rfl rfl fun depth queue popped =>
      needCfg_raises (s := s.withFifo depth queue popped) hc _⟩

theorem Follows.needBuffer {rule : State → Result} {s t : State} {pushes : Nat}
    (h : s.needBuffer (rule s) = .next t)
    (hrule : s.bufN ≤ s.params.bufCap → rule s = .next t → ∃ q, Follows rule s t pushes q) :
    ∃ q, Follows (fun w => w.needBuffer (rule w)) s t pushes q := by
  obtain ⟨hb, hr⟩ := needBuffer_next h
  obtain ⟨q, hq⟩ := hrule hb hr
  exact ⟨q, hq.congr fun depth queue popped =>
    needBuffer_of (s := s.withFifo depth queue popped) hb _⟩

theorem Follows.needTable {rule : State → Result} {s t : State} {pushes : Nat}
    (h : s.needTable (rule s) = .next t)
    (hrule : s.hlog ≤ s.params.hlogMax → rule s = .next t → ∃ q, Follows rule s t pushes q) :
    ∃ q, Follows (fun w => w.needTable (rule w)) s t pushes q := by
  obtain ⟨ht, hr⟩ := needTable_next h
  obtain ⟨q, hq⟩ := hrule ht hr
  exact ⟨q, hq.congr fun depth queue popped =>
    needTable_of (s := s.withFifo depth queue popped) ht _⟩

/-! ### SCAN and a held command -/

theorem runScan_of_ran {s t : State} (h : s.scanToEnd = .ran t) : s.runScan = t.complete := by
  rw [State.runScan, h]

theorem runScan_of_held {s t : State} {e : Emission} (h : s.scanToEnd = .held e t) :
    s.runScan = t.hold e .scanJump := by
  rw [State.runScan, h]

theorem runScan_congr {s t : State} (h : s.scanToEnd = t.scanToEnd) : s.runScan = t.runScan := by
  rw [State.runScan, State.runScan, h]

/-- A held SCAN jumps past its match and scans on, once the push goes through (10_state R52). -/
theorem resume_scanJump {s : State} (e : Emission) (hb : s.bufN ≤ s.params.bufCap)
    (ht : s.hlog ≤ s.params.hlogMax) : s.resume e .scanJump = .next (s.finishJump e).runScan := by
  rw [State.resume, needBuffer_of hb, needTable_of ht]

/-- SCAN with another FIFO: where the narrow FIFO makes it hold, the wide one has come as far, and goes on
as the held push does once it goes through (44_scan_control R243). -/
theorem runScan_follows (s : State) (hb : s.bufN ≤ s.params.bufCap)
    (ht : s.hlog ≤ s.params.hlogMax) :
    ∃ q, Follows (fun w => .next w.runScan) s s.runScan (s.bufN - s.pos.toNat) q := by
  cases hend : s.scanToEnd with
  | ran t =>
    obtain ⟨q, h⟩ := (scanToEnd_scanTo s).1 t hend
    have heob : t.eob = true := (scanLoop_ends _ s (Nat.lt_succ_self _)).1 t hend
    rw [runScan_of_ran hend]
    refine ⟨q, .completed rfl h.frame.params h.frame.popped h.fifo h.fits
      (le_of_add_le_left h.bytes) fun depth queue popped hroom => ?_⟩
    exact congrArg _ (runScan_of_ran ((h.alike depth queue popped hroom).trans
      (scanToEnd_of_eob (s := t.withFifo depth (queue ++ q) popped) heob)))
  | held e t =>
    obtain ⟨v, q, h, hheld⟩ := (scanToEnd_scanTo s).2 e t hend
    obtain ⟨heob, hfifo, hfull, hpos, hstop, hpush⟩ := stepBody_held_queues hheld
    have hframe : ScanFrame s t := h.frame.trans (stepBody_held_scanFrame hheld)
    have hN := hframe.sameInput.bufN
    have hb' : t.bufN ≤ t.params.bufCap := by rwa [← hN, hframe.params]
    have ht' : t.hlog ≤ t.params.hlogMax := by rwa [← hframe.sameInput.hlog, hframe.params]
    rw [runScan_of_held hend]
    refine ⟨q, .held hframe.params hframe.popped (hfifo.trans h.fifo)
      (fun hs => (congrArg List.length hfifo).trans_le (h.fits hs)) ?_ hfull (fun _ => ⟨hb', ht'⟩)
      fun depth queue popped hroom => ?_⟩
    · have hbytes := h.bytes
      have hvN := h.frame.sameInput.bufN
      omega
    · have hend' : (s.withFifo depth queue popped).scanToEnd =
          ((t.finishJump e).withFifo depth (queue ++ q ++ [e.desc]) popped).scanToEnd :=
        (h.alike depth queue popped hroom).trans
          (scanToEnd_step (s := v.withFifo depth (queue ++ q) popped) heob
            (hpush depth (queue ++ q) popped (by rwa [List.length_append])))
      rw [resume_scanJump (s := (t.hold e .scanJump).withFifo depth (queue ++ q) popped) e hb' ht',
        runScan_congr hend']
      exact congrArg _ (runScan_withEngine (.held e .scanJump) _).symm

/-- A turn of an engine that holds, with room in the FIFO: it pushes, and goes on with its command. -/
theorem engineStep_follows {s : State} {e : Emission} {k : Continuation}
    (h : s.engine = .held e k)
    (hk : k = .scanJump → s.bufN ≤ s.params.bufCap ∧ s.hlog ≤ s.params.hlogMax)
    (hroom : s.fifoFull = false) :
    ∃ t q, s.engineStep = .next t ∧
      Follows State.engineStep s t s.pushesLeft (e.desc :: q) := by
  have hfits := push_fits hroom e.desc
  have hbound : [e.desc].length ≤ s.pushesLeft := by
    rw [pushesLeft_of_held h]
    exact Nat.le_add_right ..
  have hwide := fun (depth : Nat) (queue popped : List Desc) (hq : queue.length < depth) =>
    engineStep_of_room (s := s.withFifo depth queue popped) h (withFifo_fifoFull hq _ _)
  rw [engineStep_of_room h hroom]
  cases k with
  | matchResult rd =>
    exact ⟨_, [], rfl, .completed rfl rfl rfl rfl (fun _ => hfits) hbound
      fun depth queue popped hq => hwide depth queue popped (by omega)⟩
  | stepJump =>
    exact ⟨_, [], rfl, .completed rfl rfl rfl rfl (fun _ => hfits) hbound
      fun depth queue popped hq => hwide depth queue popped (by omega)⟩
  | scanJump =>
    obtain ⟨hb, ht⟩ := hk rfl
    obtain ⟨q, hscan⟩ := runScan_follows (s.finishJump e) hb ht
    refine ⟨(s.finishJump e).runScan, q, ?_, { hscan with
      fifo := ?_, fits := fun _ => hscan.fits hfits, bound := ?_, alike := ?_ }⟩
    · exact resume_scanJump e hb ht
    · rw [hscan.fifo, finishJump_fifo, List.append_assoc]; rfl
    · have := hscan.bound
      rw [pushesLeft_of_held h, List.length_cons]
      change _ ≤ s.bufN - e.stop.toNat at this
      omega
    · intro depth queue popped hq
      rw [List.length_cons] at hq
      rw [hwide depth queue popped (by omega),
        resume_scanJump (s := s.withFifo depth queue popped) e hb ht]
      have := hscan.alike depth (queue ++ [e.desc]) popped
        (by rw [List.length_append, List.length_singleton]; omega)
      rwa [List.append_assoc] at this

/-- With room in the FIFO an engine at rest has its turn, and one that held pushes. -/
theorem resting_turn {t : State} (hr : t.Resting) (hroom : t.fifoFull = false) :
    ∃ u q, t.engineStep = .next u ∧ Follows State.engineStep t u t.pushesLeft q ∧
      (t.engine ≠ .idle → q ≠ []) := by
  rcases hr with h | ⟨e, k, h, hk⟩
  · refine ⟨t, [], engineStep_of_idle h, ?_, fun hn => absurd h hn⟩
    exact .quiet h rfl rfl rfl fun depth queue popped =>
      engineStep_of_idle (s := t.withFifo depth queue popped) h
  · obtain ⟨u, q, hstep, hf⟩ := engineStep_follows h hk hroom
    exact ⟨u, _, hstep, hf, fun _ => List.cons_ne_nil _ _⟩

/-! ### Commands -/

/-- MATCH pushes the descriptor of its emission, or none (43_match_emitter R204). -/
theorem execMatchEmit_follows {rd rs1 rs2 : Reg} {s t : State}
    (hx : exec (.matchEmit rd rs1 rs2) s = .next t) :
    ∃ q, Follows (exec (.matchEmit rd rs1 rs2)) s t s.bufN q := by
  refine Follows.needCfg hx fun hx => Follows.needBuffer hx fun hb hx => ?_
  have hemit (depth : Nat) (queue popped : List Desc) :
      (s.withFifo depth queue popped).emit ((s.withFifo depth queue popped).offsetOperand rs1)
          ((s.withFifo depth queue popped).offsetOperand rs2) =
        s.emit (s.offsetOperand rs1) (s.offsetOperand rs2) := rfl
  cases he : s.emit (s.offsetOperand rs1) (s.offsetOperand rs2) with
  | none =>
    simp only [he] at hx
    cases hx
    refine ⟨[], .quiet rfl rfl rfl rfl fun depth queue popped => ?_⟩
    simp only [hemit, he]
    rfl
  | some e =>
    obtain ⟨hr, -⟩ := emit_eq_some he
    obtain ⟨-, hlt, hN, -⟩ := (emitRejects_iff s _ _).1 hr
    cases hf : s.fifoFull with
    | false =>
      simp only [he, hf] at hx
      cases hx
      refine ⟨[e.desc], .completed rfl rfl rfl rfl (fun _ => push_fits hf e.desc)
        (by rw [List.length_singleton]; omega) fun depth queue popped hroom => ?_⟩
      simp only [hemit, he, withFifo_fifoFull (show queue.length < depth by omega)]
      rfl
    | true =>
      simp only [he, hf] at hx
      cases hx
      obtain ⟨-, -, -, -, -, hstop⟩ := emit_good he
      refine ⟨[], .held rfl rfl (by simp) id ?_ hf nofun fun depth queue popped hroom => ?_⟩
      · rw [List.length_nil]
        omega
      · simp only [hemit, he, withFifo_fifoFull (show queue.length < depth from hroom),
          List.append_nil]
        rfl

/-- STEP pushes what its STEP_BODY pushes (44_scan_control R236). -/
theorem execStep_follows {s t : State} (hx : exec .step s = .next t) :
    ∃ q, Follows (exec .step) s t s.bufN q := by
  refine Follows.needCfg hx fun hx => Follows.needBuffer hx fun hb hx =>
    Follows.needTable hx fun ht hx => ?_
  cases hbody : s.stepBody with
  | ran u =>
    have hframe := stepBody_ran_scanFrame hbody
    obtain ⟨q, hfifo, hbytes, hwide⟩ := stepBody_ran_queues hbody
    simp only [hbody] at hx
    cases hx
    refine ⟨q, .completed rfl hframe.params hframe.popped hfifo
      (stepBody_ran_fits (t := u) hbody) (by omega) fun depth queue popped hroom => ?_⟩
    simp only [hwide depth queue popped (by omega)]
    rfl
  | held e u =>
    have hframe := stepBody_held_scanFrame hbody
    obtain ⟨-, hfifo, hfull, hpos, hstop, hwide⟩ := stepBody_held_queues hbody
    simp only [hbody] at hx
    cases hx
    refine ⟨[], .held hframe.params hframe.popped (by rw [hfifo, List.append_nil])
      (fun h => hfifo ▸ h) ?_ hfull nofun fun depth queue popped hroom => ?_⟩
    · rw [List.length_nil, ← hframe.sameInput.bufN]
      omega
    · simp only [hwide depth queue popped hroom, List.append_nil]
      rfl

theorem execScan_follows {s t : State} (hx : exec .scan s = .next t) :
    ∃ q, Follows (exec .scan) s t s.bufN q := by
  refine Follows.needCfg hx fun hx => Follows.needBuffer hx fun hb hx =>
    Follows.needTable hx fun ht hx => ?_
  cases hx
  obtain ⟨q, h⟩ := runScan_follows s hb ht
  exact ⟨q, { h with bound := h.bound.trans (Nat.sub_le ..) }⟩

/-- Every command but INIT follows itself with another FIFO. -/
theorem exec_follows {i : Instr} {s t : State} (hi : i ≠ .init) (hx : exec i s = .next t) :
    ∃ q, Follows (exec i) s t s.bufN q := by
  cases i with
  | init => exact absurd rfl hi
  | nop | tclr | gear | hadv => cases hx; exact ⟨[], .quiet rfl rfl rfl rfl fun _ _ _ => rfl⟩
  | btest =>
    exact Follows.needCfg hx fun hx => by
      cases hx; exact ⟨[], .quiet rfl rfl rfl rfl fun _ _ _ => rfl⟩
  | tins | tlkp =>
    exact Follows.needCfg hx fun hx => Follows.needTable hx fun _ hx => by
      cases hx; exact ⟨[], .quiet rfl rfl rfl rfl fun _ _ _ => rfl⟩
  | vfwd | xbwd =>
    exact Follows.needCfg hx fun hx => Follows.needBuffer hx fun _ hx => by
      cases hx; exact ⟨[], .quiet rfl rfl rfl rfl fun _ _ _ => rfl⟩
  | matchEmit => exact execMatchEmit_follows hx
  | step => exact execStep_follows hx
  | scan => exact execScan_follows hx

/-- INIT empties the FIFO or leaves it alone, at every depth (44_scan_control R232). -/
theorem execInit_withFifo {s t : State} (hx : exec .init s = .next t) (depth : Nat) :
    t.engine = .idle ∧ t.params = s.params ∧ t.popped = s.popped ∧
      t.fifo.length ≤ s.fifo.length ∧
      exec .init (s.withFifo depth s.fifo s.popped) = .next (t.withFifo depth t.fifo t.popped) := by
  have herror : (s.withFifo depth s.fifo s.popped).configError = s.configError := rfl
  cases exec_next hx with
  | initFails h =>
    refine ⟨rfl, rfl, rfl, le_rfl, ?_⟩
    simp only [exec, execInit, herror, h]
    rfl
  | initStarts h =>
    refine ⟨rfl, rfl, rfl, Nat.zero_le _, ?_⟩
    simp only [exec, execInit, herror, h]
    rfl
  | gated hi => cases hi
  | reg hi => cases hi

/-! ### The engine with the deep FIFO, one turn ahead -/

/-- `t` is on the way of a command and `u` is what it comes to: one turn of the engine away, once its FIFO
is deep enough for all that is still to come. `popped` was popped before the command; `queue` is all that
`t` queued or popped since then, so pops leave it as it is. -/
structure Ahead (depth : Nat) (p : Params) (popped : List Desc) (u t : State)
    (queue : List Desc) : Prop where
  params : t.params = p
  rests : t.Resting
  fits : t.fifo.length ≤ p.fifoDepth
  output : t.popped ++ t.fifo = popped ++ queue
  room : queue.length + t.pushesLeft < depth
  turn : (t.withFifo depth queue popped).engineStep = .next u

section
variable {depth : Nat} {p : Params} {popped : List Desc} {u t : State} {queue : List Desc}

/-- With the deep FIFO the turn completes, and the queue only grows. -/
theorem Ahead.completes (h : Ahead depth p popped u t queue) :
    u.engine = .idle ∧ u.popped = popped ∧ queue <+: u.fifo := by
  have hroom : (t.withFifo depth queue popped).fifoFull = false :=
    withFifo_fifoFull (lt_of_add_lt_of_nonneg_left h.room (Nat.zero_le _)) _ _
  obtain ⟨u', q, hstep, hf, -⟩ := resting_turn (t := t.withFifo depth queue popped) h.rests hroom
  cases hstep.symm.trans h.turn
  refine ⟨?_, hf.popped, q, hf.fifo.symm⟩
  by_contra hbusy
  have hfull : u.params.fifoDepth ≤ u.fifo.length := of_decide_eq_true (hf.full hbusy)
  rw [hf.params, hf.fifo, List.length_append] at hfull
  change depth ≤ queue.length + q.length at hfull
  have hbound : q.length + u.pushesLeft ≤ t.pushesLeft := hf.bound
  have hroom := h.room
  omega

/-- Once it is complete, the narrow engine is the deep one but for the FIFO. -/
theorem Ahead.eq_of_idle (h : Ahead depth p popped u t queue) (hidle : t.engine = .idle) :
    u = t.withFifo depth queue popped :=
  (Host.Outcome.next.inj
    ((engineStep_of_idle (s := t.withFifo depth queue popped) hidle).symm.trans h.turn)).symm

theorem Ahead.pops (h : Ahead depth p popped u t queue) (n : Nat) :
    Ahead depth p popped u (State.popHead^[n] t) queue := by
  rw [popHead_iterate]
  refine ⟨h.params, h.rests, ?_, ?_, h.room, h.turn⟩
  · exact (List.drop_suffix n t.fifo).length_le.trans h.fits
  · change (t.popped ++ t.fifo.take n) ++ t.fifo.drop n = _
    rw [List.append_assoc, List.take_append_drop, h.output]

theorem Ahead.turn_of_room (h : Ahead depth p popped u t queue) (hroom : t.fifoFull = false) :
    ∃ t' q, t.engineStep = .next t' ∧ Ahead depth p popped u t' (queue ++ q) ∧
      (t.engine ≠ .idle → t'.pushesLeft < t.pushesLeft) := by
  obtain ⟨t', q, hstep, hf, hq⟩ := resting_turn h.rests hroom
  have hbound := hf.bound
  have hdepth := h.room
  refine ⟨t', q, hstep, ⟨hf.params.trans h.params, hf.rests, ?_, ?_, ?_, ?_⟩, fun hn => ?_⟩
  · exact h.params ▸ hf.fits (h.params.symm ▸ h.fits)
  · rw [hf.popped, hf.fifo, ← List.append_assoc, h.output, List.append_assoc]
  · rw [List.length_append]
    omega
  · rw [← hf.alike depth queue popped (by omega), h.turn]
  · have := List.length_pos_of_ne_nil (hq hn)
    omega

/-- A turn of the engine, with room or without. -/
theorem Ahead.of_engineStep (h : Ahead depth p popped u t queue) :
    ∃ t' queue', t.engineStep = .next t' ∧ Ahead depth p popped u t' queue' := by
  cases hf : t.fifoFull with
  | true => exact ⟨t, queue, engineStep_of_full h.rests hf, h⟩
  | false =>
    obtain ⟨t', q, hstep, h', -⟩ := h.turn_of_room hf
    exact ⟨t', queue ++ q, hstep, h'⟩

theorem popsAndTurns_cons {n : Nat} {s t : State}
    (h : (State.popHead^[n] s).engineStep = .next t) (rest : List Nat) :
    popsAndTurns (n :: rest) s = popsAndTurns rest t := by
  rw [popsAndTurns, h]

/-- Any turns with any pops before each. -/
theorem Ahead.of_popsAndTurns (h : Ahead depth p popped u t queue) {pops : List Nat} {t' : State}
    (hrun : popsAndTurns pops t = .next t') : ∃ queue', Ahead depth p popped u t' queue' := by
  induction pops generalizing t queue with
  | nil => cases hrun; exact ⟨queue, h⟩
  | cons n rest ih =>
    obtain ⟨t1, queue1, hstep, h1⟩ := (h.pops n).of_engineStep
    exact ih h1 ((popsAndTurns_cons hstep rest).symm.trans hrun)

/-- One pop makes room in a FIFO that is within its depth. -/
theorem popHead_room {s : State} (hdepth : 1 ≤ s.params.fifoDepth)
    (h : s.fifo.length ≤ s.params.fifoDepth) : s.popHead.fifoFull = false := by
  rw [popHead_eq_withFifo]
  exact withFifo_fifoFull (by rw [List.length_drop]; omega) _ _

/-- Turns with one pop before each complete the command, at most one for each push that is left. -/
theorem Ahead.progress (h : Ahead depth p popped u t queue) (hdepth : 1 ≤ p.fifoDepth) :
    ∃ n ≤ t.pushesLeft, ∃ t', popsAndTurns (List.replicate n 1) t = .next t' ∧
      t'.engine = .idle := by
  induction hm : t.pushesLeft using Nat.strong_induction_on generalizing t queue with
  | _ m ih =>
    by_cases hidle : t.engine = .idle
    · exact ⟨0, Nat.zero_le _, t, rfl, hidle⟩
    · have hroom : t.popHead.fifoFull = false :=
        popHead_room (h.params ▸ hdepth) (h.params ▸ h.fits)
      obtain ⟨t1, q, hstep, h1, hless⟩ := (h.pops 1).turn_of_room hroom
      have hlt : t1.pushesLeft < t.pushesLeft := by
        rw [popHead_iterate] at hless
        exact hless hidle
      obtain ⟨n, hn, t', hrun, hdone⟩ := ih _ (hm ▸ hlt) h1 rfl
      exact ⟨n + 1, by omega, t', (popsAndTurns_cons hstep _).trans hrun, hdone⟩

end

/-- The deep engine is ahead of the narrow one from the start of every command. -/
theorem exec_ahead {i : Instr} {s t : State} {depth : Nat}
    (hfits : s.fifo.length ≤ s.params.fifoDepth) (hroom : s.fifo.length + s.bufN < depth)
    (hx : exec i s = .next t) :
    ∃ u queue, exec i (s.withFifo depth s.fifo s.popped) = .next u ∧
      Ahead depth s.params s.popped u t queue ∧ t.pushesLeft ≤ s.bufN := by
  by_cases hi : i = .init
  · subst hi
    obtain ⟨hidle, hparams, hpopped, hlen, hdeep⟩ := execInit_withFifo hx depth
    refine ⟨_, t.fifo, hdeep, ⟨hparams, .inl hidle, hlen.trans hfits, by rw [hpopped], ?_, ?_⟩, ?_⟩
    · rw [pushesLeft_of_idle hidle]
      omega
    · rw [← hpopped]
      exact engineStep_of_idle (s := t.withFifo depth t.fifo t.popped) hidle
    · rw [pushesLeft_of_idle hidle]
      exact Nat.zero_le _
  · obtain ⟨q, hf⟩ := exec_follows hi hx
    have hbound := hf.bound
    have hlt : (s.fifo ++ q).length < depth := by rw [List.length_append]; omega
    obtain ⟨u, -, hturn, -⟩ := resting_turn (t := t.withFifo depth (s.fifo ++ q) s.popped)
      hf.rests (withFifo_fifoFull hlt _ _)
    refine ⟨u, s.fifo ++ q, ?_, ⟨hf.params, hf.rests, hf.fits hfits, ?_, ?_, hturn⟩, by omega⟩
    · rw [hf.alike depth s.fifo s.popped (by rwa [← List.length_append]), hturn]
    · rw [hf.popped, hf.fifo]
    · rw [List.length_append]
      omega

/-- A pop before the hold and a pop after it come to the same (10_state R52). -/
theorem pop_commutes_with_hold {i : Instr} {s h : State}
    (hfits : s.fifo.length ≤ s.params.fifoDepth) (hne : s.fifo ≠ []) (hx : exec i s = .next h)
    (hstall : h.stall = true) : h.popHead.engineStep = exec i s.popHead := by
  have hi : i ≠ .init := by
    rintro rfl
    obtain ⟨⟨e, k, hheld⟩, -⟩ := (stall_iff h).1 hstall
    cases hheld.symm.trans (execInit_withFifo hx 0).1
  obtain ⟨q, hf⟩ := exec_follows hi hx
  obtain ⟨d, rest, hfifo⟩ := List.exists_cons_of_ne_nil hne
  have hlen := hf.fits hfits
  rw [hf.fifo, hfifo] at hlen
  have := hf.alike s.params.fifoDepth rest (s.popped ++ [d]) (by simpa using hlen)
  rw [popHead_eq_withFifo, popHead_eq_withFifo, hf.params, hf.popped, hf.fifo, hfifo]
  simpa using this.symm

/-- Settles O36: with any other FIFO that has room, a command leads where one more turn of the engine
leads from the hold. For a FIFO shorter by the popped head that is the first clause; for the deep FIFO it
is an invariant of every course of pops and turns, from which the second clause is read off. -/
theorem holdChangesNoResult : Obligations.HoldChangesNoResult := by
  unfold Obligations.HoldChangesNoResult
  constructor
  · intro i s h hinv hne hx hstall
    exact pop_commutes_with_hold hinv.fifo hne hx hstall
  · intro i s h depth hinv _ hroom hx
    obtain ⟨u, queue, hdeep, hahead, hleft⟩ := exec_ahead hinv.fifo hroom hx
    have hone : 1 ≤ s.params.fifoDepth := by
      have := hinv.params
      simp only [Params.wf, Bool.and_eq_true, decide_eq_true_eq] at this
      omega
    refine ⟨u, hdeep, (busy_eq_false u).2 hahead.completes.1, fun pops t hrun => ?_, ?_⟩
    · obtain ⟨queue', ht⟩ := hahead.of_popsAndTurns hrun
      obtain ⟨-, hpopped, hgrows⟩ := ht.completes
      refine ⟨?_, fun hbusy => ?_⟩
      · rw [ht.output, hpopped]
        exact (List.prefix_append_right_inj _).2 hgrows
      · have hu := ht.eq_of_idle ((busy_eq_false t).1 hbusy)
        rw [hu, ← ht.params]
        exact ⟨ht.output, rfl⟩
    · obtain ⟨n, hn, t, hrun, hidle⟩ := hahead.progress hone
      exact ⟨n, hn.trans hleft, t, hrun, (busy_eq_false t).2 hidle⟩

end Sys2Proof.Machine
end

section
/-! PROOFS. The buffer aperture is little-endian: byte k of an access goes with bits 8k+7 to 8k of its value
(20_memory R84). -/

namespace Sys2Proof.Machine

open Sys2Proof

/-! ### Aperture accesses -/

/-- A read takes its bytes with rising weights, the lowest offset first (20_memory R84). -/
theorem memRead_eq_sum (s : State) (a n : Nat) :
    s.memRead a n = ∑ k ∈ Finset.range n, (s.bufByte (a + k)).toNat * 2 ^ (8 * k) := by
  induction n with
  | zero => rfl
  | succ n ih => rw [State.memRead, ih, Finset.sum_range_succ]

theorem ApertureAccess.read {width : Nat} {addr : BitVec 25} {off : Nat} {s : State}
    (h : ApertureAccess s.params width addr off) :
    s.hostAccess (.read width addr) =
      { s with response := ⟨BitVec.ofNat 64 (s.memRead off width), false⟩ } := by
  rw [State.hostAccess, target_of_aperture h]
  rfl

theorem ApertureAccess.write_of_idle {width : Nat} {addr : BitVec 25} {off : Nat} {s : State}
    (h : ApertureAccess s.params width addr off) (hidle : s.busy = false) (v : Word) :
    s.hostAccess (.write width addr v) =
      ({ s with buffer := memWrite off v width s.buffer } : State).respond 0 false := by
  rw [State.hostAccess, target_of_aperture h]
  exact congrArg (State.respond 0 false) (whenIdle_idle hidle)

/-- A valid access has at most 8 bytes, so the bus carries all that it reads (20_memory R80, R84). -/
theorem ApertureAccess.memRead_lt_bus {p : Params} {width : Nat} {addr : BitVec 25} {off : Nat}
    (h : ApertureAccess p width addr off) (s : State) : s.memRead off width < 2 ^ 64 := by
  have hwidth : 8 * width ≤ 64 := by
    have := h.legalWidth
    omega
  exact (memRead_lt s off width).trans_le (Nat.pow_le_pow_right two_pos hwidth)

/-- The bus answer is no part of the buffer. -/
@[simp] theorem bufByte_respond (s : State) (data : Word) (busError : Bool) (a : Nat) :
    (s.respond data busError).bufByte a = s.bufByte a := rfl

/-- Settles O49: a write is read back byte by byte with `bufByte_write`, and a read is the sum of
`memRead_eq_sum`, which fits the bus. -/
theorem apertureIsLittleEndian : Obligations.ApertureIsLittleEndian := by
  unfold Obligations.ApertureIsLittleEndian
  intro s width addr v off hwidth haligned hinside haddr
  have ha : ApertureAccess s.params width addr off := ⟨hwidth, haligned, hinside, haddr⟩
  refine ⟨fun hidle => ⟨_, ha.write_of_idle hidle v, rfl, fun k hk => ?_, fun a hout => ?_⟩,
    _, ha.read, ?_⟩
  · rw [bufByte_respond, bufByte_write, if_pos (by omega), Nat.add_sub_cancel_left]
  · rw [bufByte_respond, bufByte_write, if_neg (by omega)]
  · rw [BitVec.toNat_ofNat, Nat.mod_eq_of_lt (ha.memRead_lt_bus s), memRead_eq_sum]

end Sys2Proof.Machine
end

section
/-! PROOFS. The encoder and the decoder of command words (30_encoding R111 to R117, R124). The decoder's
test by masks is read field by field: a mask is itself the word of some fields (`Format.fixedFields`),
and `&` works on each field apart. -/

namespace Sys2Proof

/-! ### The word of some fields -/

theorem Fields.toWord_inj {f g : Fields} : f.toWord = g.toWord ↔ f = g :=
  ⟨fun h => by rw [← Fields.ofWord_toWord f, h, Fields.ofWord_toWord], congrArg _⟩

/-- Each field stands at its offset (30_encoding R111). -/
theorem Fields.toNat_toWord (f : Fields) :
    f.toWord.toNat = f.res.toNat <<< 20 ||| f.rs3.toNat <<< 17 ||| f.rs2.toNat <<< 14
      ||| f.rs1.toNat <<< 11 ||| f.rd.toNat <<< 8 ||| f.op.toNat := by
  simp only [Fields.toWord, BitVec.toNat_append, Nat.shiftLeft_or_distrib, ← Nat.shiftLeft_add]

theorem Fields.toWord_and (f g : Fields) :
    f.toWord &&& g.toWord =
      Fields.toWord ⟨f.op &&& g.op, f.rd &&& g.rd, f.rs1 &&& g.rs1, f.rs2 &&& g.rs2,
        f.rs3 &&& g.rs3, f.res &&& g.res⟩ := by
  simp only [Fields.toWord, ← BitVec.and_append]

/-- An OP value alone is the word with every other field 0. -/
theorem Fields.toWord_op (op : BitVec 8) : Fields.toWord ⟨op, 0, 0, 0, 0, 0⟩ = op.setWidth 32 := by
  apply BitVec.eq_of_toNat_eq
  rw [Fields.toNat_toWord, BitVec.toNat_setWidth_of_le (by decide)]
  simp

/-! ### The masks -/

/-- The bits of an operand field that a format fixes: none if it uses the field, else all three. -/
def fixedBits (used : Bool) : BitVec 3 := if used then 0 else 7

theorem and_fixedBits_eq_zero (x : BitVec 3) (used : Bool) :
    x &&& fixedBits used = 0 ↔ (used || x == 0) = true := by
  revert x used
  decide

/-- The fixed bits of a format, field by field (30_encoding R112). -/
def Format.fixedFields (fmt : Format) : Fields where
  op  := 0xFF
  rd  := fixedBits fmt.uses.1
  rs1 := fixedBits fmt.uses.2.1
  rs2 := fixedBits fmt.uses.2.2.1
  rs3 := fixedBits fmt.uses.2.2.2
  res := 0xFFF

theorem Format.mask_eq_toWord (fmt : Format) : fmt.mask = fmt.fixedFields.toWord := by
  cases fmt <;> decide

/-- The test by mask is the unused-field rule (30_encoding R112, R114). -/
theorem and_mask_eq_op_iff (w : BitVec 32) (fmt : Format) :
    w &&& fmt.mask = (Fields.ofWord w).op.setWidth 32 ↔
      (Fields.ofWord w).unusedAreZero fmt = true ∧ (Fields.ofWord w).res = 0 := by
  generalize hf : Fields.ofWord w = f
  have hop : f.op &&& 0xFF = f.op := BitVec.and_allOnes
  have hres : f.res &&& 0xFFF = f.res := BitVec.and_allOnes
  rw [← Fields.toWord_ofWord w, hf, Format.mask_eq_toWord, Fields.toWord_and, ← Fields.toWord_op,
    Fields.toWord_inj]
  simp only [Format.fixedFields, Fields.mk.injEq, hop, hres, and_fixedBits_eq_zero, true_and,
    Fields.unusedAreZero, Bool.and_eq_true, and_assoc]

/-! ### The opcode map -/

/-- The decoder's opcode map and that of the well-formedness check agree (30_encoding R113). -/
theorem lookup_opcodeMap (op : BitVec 8) :
    opcodeMap.lookup op = (opcodeOf op).map Opcode.format := by
  revert op
  decide +kernel

theorem op_fields_withOperands {op : BitVec 8} {o : Opcode} (h : opcodeOf op = some o) (f : Fields) :
    (o.withOperands f).fields.op = op := by
  unfold opcodeOf at h
  split at h <;> cases h <;> exact BitVec.eq_of_toNat_eq (Eq.symm ‹_›)

/-- A command built from fields has them as its fields if the unused ones are 0. -/
theorem fields_withOperands {f : Fields} {o : Opcode} (ho : opcodeOf f.op = some o)
    (hunused : f.unusedAreZero o.format = true) (hres : f.res = 0) :
    (o.withOperands f).fields = f := by
  have hop := op_fields_withOperands ho f
  obtain ⟨op, rd, rs1, rs2, rs3, res⟩ := f
  cases o <;> simp_all [Opcode.withOperands, Instr.fields, Fields.unusedAreZero, Opcode.format,
    Format.uses, regField]

/-! ### Decoding -/

/-- A check that ends in an error when it fails. -/
theorem ite_error_eq_ok_iff {ε α : Type} {p : Prop} [Decidable p] {r : Except ε α} {e : ε} {a : α} :
    (if p then r else .error e) = .ok a ↔ p ∧ r = .ok a := by
  by_cases hp : p <;> simp [hp]

/-- What the decoder answers on a command word (30_encoding R117, checks 2 and 3). -/
theorem decodeWord_eq_ok_iff (w : BitVec 32) (i : Instr) :
    decodeWord w = .ok i ↔ ∃ o, opcodeOf (Fields.ofWord w).op = some o ∧
      (Fields.ofWord w).unusedAreZero o.format = true ∧ (Fields.ofWord w).res = 0 ∧
      o.withOperands (Fields.ofWord w) = i := by
  rw [decodeWord]
  cases opcodeOf (Fields.ofWord w).op with
  | none => simp
  | some o =>
    simp only [ite_error_eq_ok_iff, and_mask_eq_op_iff, Except.ok.injEq, Option.some.injEq,
      exists_eq_left', and_assoc]

theorem wellFormed_iff (f : Fields) :
    f.wellFormed = true ↔
      ∃ o, opcodeOf f.op = some o ∧ f.unusedAreZero o.format = true ∧ f.res = 0 := by
  rw [Fields.wellFormed, lookup_opcodeMap]
  cases opcodeOf f.op <;> simp

/-- The words that decode are the well-formed ones. -/
theorem exists_decodeWord_iff (w : BitVec 32) :
    (∃ i, decodeWord w = .ok i) ↔ (Fields.ofWord w).wellFormed = true := by
  simp only [decodeWord_eq_ok_iff, wellFormed_iff]
  constructor
  · rintro ⟨i, o, ho, hunused, hres, -⟩
    exact ⟨o, ho, hunused, hres⟩
  · rintro ⟨o, ho, hunused, hres⟩
    exact ⟨_, o, ho, hunused, hres, rfl⟩

/-- A word that decodes to a command is the word of that command. -/
theorem eq_encode_of_decodeWord {w : BitVec 32} {i : Instr} (h : decodeWord w = .ok i) :
    w = encode i := by
  obtain ⟨o, ho, hunused, hres, rfl⟩ := (decodeWord_eq_ok_iff w i).1 h
  rw [encode, fields_withOperands ho hunused hres, Fields.toWord_ofWord]

theorem decodeCmd_eq_ok_iff (v : Word) (i : Instr) :
    decodeCmd v = .ok i ↔ v.extractLsb' 32 32 = 0 ∧ decodeWord (v.extractLsb' 0 32) = .ok i := by
  rw [decodeCmd, ite_error_eq_ok_iff]

/-- A CMD value that decodes to a command is the value of that command. -/
theorem eq_encodeCmd_of_decodeCmd {v : Word} {i : Instr} (h : decodeCmd v = .ok i) :
    v = encodeCmd i := by
  obtain ⟨hhigh, hlow⟩ := (decodeCmd_eq_ok_iff v i).1 h
  calc v = v.extractLsb' 32 32 ++ v.extractLsb' 0 32 :=
      (BitVec.extractLsb'_append_extractLsb' (w := 32) (len := 32)).symm
    _ = (encodeCmd i).extractLsb' 32 32 ++ (encodeCmd i).extractLsb' 0 32 := by
      rw [hhigh, eq_encode_of_decodeWord hlow, encodeCmd_high, encodeCmd_low]
    _ = encodeCmd i := BitVec.extractLsb'_append_extractLsb' (w := 32) (len := 32)

theorem decodeCmd_eq_nop_iff (v : Word) : decodeCmd v = .ok .nop ↔ v = 0 := by
  constructor
  · intro h
    rw [eq_encodeCmd_of_decodeCmd h]
    rfl
  · rintro rfl
    rfl

/-- A value that is no command raises ILLEGAL_CMD (30_encoding R115, R117). -/
theorem runCommand_of_illegal {v : Word} (h : ¬∃ i, decodeCmd v = .ok i) (s : Machine.State) :
    s.runCommand v = .next (s.raise .illegalCmd) := by
  rw [Machine.State.runCommand]
  cases hv : decodeCmd v with
  | error _ => rfl
  | ok i => exact absurd ⟨i, hv⟩ h

/-- Settles O2: the decoder accepts the well-formed words by `exists_decodeWord_iff`, which reads its
masks field by field. -/
theorem illegalEncodingsAreExactlyThese : Obligations.IllegalEncodingsAreExactlyThese := by
  unfold Obligations.IllegalEncodingsAreExactlyThese
  refine fun v => ⟨?_, runCommand_of_illegal, decodeCmd_eq_nop_iff v⟩
  simp only [decodeCmd_eq_ok_iff, exists_and_left, exists_decodeWord_iff]

/-! ### Encoding -/

theorem res_fields (i : Instr) : i.fields.res = 0 := by
  cases i <;> rfl

theorem Instr.wellFormed_eq_true (i : Instr) : i.wellFormed = true := by
  cases i <;> rfl

theorem toNat_encode (i : Instr) :
    (encode i).toNat = i.fields.op.toNat ||| i.fields.rd.toNat <<< 8 ||| i.fields.rs1.toNat <<< 11
      ||| i.fields.rs2.toNat <<< 14 ||| i.fields.rs3.toNat <<< 17 := by
  have hres : i.fields.res.toNat <<< 20 = 0 := by rw [res_fields]; rfl
  rw [encode, Fields.toNat_toWord, hres, Nat.zero_or]
  simp only [Nat.or_comm, Nat.or_assoc]

/-- Settles O3: the fields stand at their offsets (`Fields.toNat_toWord`), and RES is 0. -/
theorem encodingJoinsShiftedFields : Obligations.EncodingJoinsShiftedFields := by
  unfold Obligations.EncodingJoinsShiftedFields
  exact ⟨fun i => ⟨toNat_encode i, i.wellFormed_eq_true⟩, by decide⟩

end Sys2Proof
end

section
/-! PROOFS. The check of CFG_OK (30_encoding R119). -/

namespace Sys2Proof.Machine

open Sys2Proof

/-- A command that needs CFG_OK raises CFG_NOT_VALID without it. -/
theorem exec_of_not_cfgOk {i : Instr} (hi : needsCfgOk i = true) {s : State} (hc : s.cfgOk = false) :
    exec i s = .next (s.raise .cfgNotValid) := by
  cases i with
  | nop | init | tclr | gear | hadv => cases hi
  | scan | step | btest | tins | tlkp | vfwd | xbwd | matchEmit => exact needCfg_raises hc _

/-- INIT's own checks have the codes 3 to 8 (44_scan_control R232). -/
theorem configError_code {s : State} {c : CmdError} (h : s.configError = some c) :
    3 ≤ c.code.toNat ∧ c.code.toNat ≤ 8 := by
  unfold State.configError at h
  split_ifs at h <;> cases h <;> decide

/-- A command without need of CFG_OK keeps ERRCODE, or it is INIT and one of its checks failed. -/
theorem Executed.errCode_of_not_needsCfgOk {i : Instr} {s t : State} (h : Executed s i t)
    (hi : needsCfgOk i = false) :
    t.errCode = s.errCode ∨ ∃ c, s.configError = some c ∧ t.errCode = c.code := by
  cases h with
  | nop | initStarts | tclr | reg => exact .inl rfl
  | initFails hc => exact .inr ⟨_, hc, rfl⟩
  | gated hn => exact absurd (hi.symm.trans hn) (by decide)
  | tins | matchPush | matchHold | stepRan | stepHold | scanRan | scanHold => cases hi

/-- Settles O39: the check comes before each of the eight rules, and of the other five only INIT
raises an error, with a code from 3 to 8. -/
theorem cfgOkGatesEightCommands : Obligations.CfgOkGatesEightCommands := by
  unfold Obligations.CfgOkGatesEightCommands
  refine ⟨fun i s hi hc => exec_of_not_cfgOk hi hc, fun i s t hi hs hx => ?_⟩
  rcases (exec_next hx).errCode_of_not_needsCfgOk hi with ht | ⟨c, hc, ht⟩
  · rw [ht, hs]
    decide
  · intro h2
    have hcode := configError_code hc
    rw [← ht, h2] at hcode
    exact absurd hcode.1 (by decide)

end Sys2Proof.Machine
end

section
/-! PROOFS. The rolling hash as arithmetic modulo 2^64 (40_rolling_hash R143, R145, R146): a hash is its
start value, shifted once per byte, plus the weighted gear constants of the bytes. -/

namespace Sys2Proof.Machine

open Sys2Proof

/-- Settles O6: a shift by one doubles modulo 2^64, and the sum of two words is taken modulo 2^64. -/
theorem advanceShiftsAndAdds : Obligations.AdvanceShiftsAndAdds := by
  unfold Obligations.AdvanceShiftsAndAdds
  intro p h b
  rw [advance, BitVec.toNat_add, BitVec.toNat_shiftLeft, Nat.shiftLeft_eq]

/-- The doubling needs no reduction of its own, since the sum is reduced. -/
theorem toNat_advance_modEq (p : Params) (h : Word) (b : Byte) :
    (advance p h b).toNat ≡ h.toNat * 2 + (Params.gearAt p b).toNat [MOD 2 ^ 64] := by
  rw [advanceShiftsAndAdds p h b]
  exact (Nat.mod_modEq _ _).trans ((Nat.mod_modEq _ _).add_right _)

@[simp] theorem hashBytes_nil (p : Params) (h : Word) : hashBytes p h [] = h := rfl

@[simp] theorem hashBytes_cons (p : Params) (h : Word) (b : Byte) (bs : List Byte) :
    hashBytes p h (b :: bs) = hashBytes p (advance p h b) bs := rfl

theorem hashBytes_append (p : Params) (h : Word) (before recent : List Byte) :
    hashBytes p h (before ++ recent) = hashBytes p (hashBytes p h before) recent :=
  List.foldl_append

/-- The sum of 40_rolling_hash R145 before its reduction: the last byte has weight 1, and each byte
before it twice the weight of the next. -/
def gearSum (p : Params) (bytes : List Byte) : Nat :=
  ∑ i ∈ Finset.range bytes.length,
    (Params.gearAt p (bytes.getD i 0)).toNat * 2 ^ (bytes.length - 1 - i)

@[simp] theorem gearSum_nil (p : Params) : gearSum p [] = 0 := rfl

theorem gearSum_cons (p : Params) (b : Byte) (bs : List Byte) :
    gearSum p (b :: bs) = (Params.gearAt p b).toNat * 2 ^ bs.length + gearSum p bs := by
  have weight (i : Nat) : bs.length - 1 - i = bs.length - (i + 1) := by omega
  rw [add_comm]
  simp [gearSum, Finset.sum_range_succ', weight]

/-- The closed form for every start value, which counts as one more term, of weight 2^n. -/
theorem toNat_hashBytes_modEq (p : Params) (h : Word) (bytes : List Byte) :
    (hashBytes p h bytes).toNat ≡ h.toNat * 2 ^ bytes.length + gearSum p bytes [MOD 2 ^ 64] := by
  induction bytes generalizing h with
  | nil => simp [Nat.ModEq.refl]
  | cons b bs ih =>
    rw [hashBytes_cons, gearSum_cons, List.length_cons]
    calc (hashBytes p (advance p h b) bs).toNat
        ≡ (advance p h b).toNat * 2 ^ bs.length + gearSum p bs [MOD 2 ^ 64] := ih _
      _ ≡ (h.toNat * 2 + (Params.gearAt p b).toNat) * 2 ^ bs.length + gearSum p bs [MOD 2 ^ 64] :=
          ((toNat_advance_modEq p h b).mul_right _).add_right _
      _ = h.toNat * 2 ^ (bs.length + 1)
            + ((Params.gearAt p b).toNat * 2 ^ bs.length + gearSum p bs) := by ring

/-- Settles O9: the start value 0 adds nothing to the closed form, and a word is below 2^64. -/
theorem hashHasClosedForm : Obligations.HashHasClosedForm := by
  unfold Obligations.HashHasClosedForm
  intro p bytes
  have closed : (hashBytes p 0 bytes).toNat ≡ gearSum p bytes [MOD 2 ^ 64] := by
    simpa using toNat_hashBytes_modEq p 0 bytes
  exact Nat.mod_eq_of_modEq closed.symm (BitVec.isLt _) |>.symm

/-- From 64 bytes on, the weight 2^n of the start value is 0 modulo 2^64. -/
theorem toNat_hashBytes_modEq_gearSum (p : Params) (h : Word) {bytes : List Byte}
    (hlen : 64 ≤ bytes.length) : (hashBytes p h bytes).toNat ≡ gearSum p bytes [MOD 2 ^ 64] := by
  have shiftedOut : h.toNat * 2 ^ bytes.length ≡ 0 [MOD 2 ^ 64] :=
    Nat.modEq_zero_iff_dvd.2 ((pow_dvd_pow 2 hlen).mul_left _)
  simpa using (toNat_hashBytes_modEq p h bytes).trans (shiftedOut.add_right _)

/-- Settles O10: the bytes before the window only make another start value for it, and both hashes
are the window's own sum. -/
theorem hashWindowIs64Bytes : Obligations.HashWindowIs64Bytes := by
  unfold Obligations.HashWindowIs64Bytes
  intro p h h' before before' recent hlen
  rw [hashBytes_append, hashBytes_append]
  exact BitVec.eq_of_toNat_eq <|
    ((toNat_hashBytes_modEq_gearSum p _ hlen).trans
      (toNat_hashBytes_modEq_gearSum p _ hlen).symm).eq_of_lt_of_lt (BitVec.isLt _) (BitVec.isLt _)

end Sys2Proof.Machine
end

section
/-! PROOFS. Every descriptor that the engine pushes is good (43_match_emitter R206): what the emitter accepts
is good where it is accepted, a held one is good by the invariant, and a command is made of single pushes with
nothing that matters to the descriptors between them. -/

namespace Sys2Proof.Machine

open Sys2Proof

/-! ### Nothing pushed -/

/-- `t` differs from `s` in nothing that a descriptor is judged by: the input of the job, the FIFO and
PREV_END. -/
structure PushesNothing (s t : State) : Prop where
  input : SameInput s t
  fifo : t.fifo = s.fifo
  prevEnd : t.prevEnd = s.prevEnd

theorem PushesNothing.of_scanFrame {s t : State} (h : ScanFrame s t) (hf : t.fifo = s.fifo)
    (hp : t.prevEnd = s.prevEnd) : PushesNothing s t := ⟨h.sameInput, hf, hp⟩

theorem setReg_pushesNothing (r : Reg) (v : Word) (s : State) : PushesNothing s (s.setReg r v) :=
  ⟨.of_eq rfl rfl rfl rfl rfl rfl, rfl, rfl⟩

theorem tableWrite_pushesNothing (k : Nat) (off : BitVec 32) (s : State) :
    PushesNothing s (s.tableWrite k off) := ⟨.of_eq rfl rfl rfl rfl rfl rfl, rfl, rfl⟩

theorem tableClear_pushesNothing (s : State) : PushesNothing s s.tableClear :=
  ⟨.of_eq rfl rfl rfl rfl rfl rfl, rfl, rfl⟩

theorem raise_pushesNothing (c : CmdError) (s : State) : PushesNothing s (s.raise c) :=
  ⟨.of_eq rfl rfl rfl rfl rfl rfl, rfl, rfl⟩

/-- The engine's own state and DONE: completion, a hold, and the cuts between the parts of a turn. -/
theorem setEngine_pushesNothing (g : Engine) (done : Bool) (s : State) :
    PushesNothing s { s with engine := g, done := done } :=
  ⟨.of_eq rfl rfl rfl rfl rfl rfl, rfl, rfl⟩

theorem complete_pushesNothing (s : State) : PushesNothing s s.complete :=
  setEngine_pushesNothing .idle true s

theorem hold_pushesNothing (e : Emission) (k : Continuation) (s : State) :
    PushesNothing s (s.hold e k) := setEngine_pushesNothing (.held e k) s.done s

theorem afterBoundary_pushesNothing (s : State) (hit : Bool) : PushesNothing s (s.afterBoundary hit) :=
  .of_scanFrame (afterBoundary_scanFrame s hit) (by cases hit <;> rfl) (by cases hit <;> rfl)

theorem forceClose_pushesNothing (s : State) : PushesNothing s s.forceClose :=
  .of_scanFrame (forceClose_scanFrame s) rfl rfl

theorem jumpTo_pushesNothing (p : Word) (s : State) : PushesNothing s (s.jumpTo p) :=
  .of_scanFrame rfl rfl rfl

/-! ### Good pushes -/

/-- The descriptor is good in the job as it stands at `s` (43_match_emitter R206, item 5 against the PREV_END
of `s`; the order among the descriptors pushed is a matter of `Pushes`). -/
structure Desc.Good (s : State) (d : Desc) : Prop where
  shaped : d.Shaped s
  verified : d.Verified s
  after : s.prevEnd.toNat ≤ d.dst.toNat
  inside : d.stop ≤ s.bufN

/-- The emission's descriptor is good, and PREV_END will be its end (43_match_emitter R203). -/
structure Emission.Good (s : State) (e : Emission) : Prop where
  desc : e.desc.Good s
  stop : e.desc.stop = e.stop.toNat

/-- What the emitter accepts is good (43_match_emitter R203). -/
theorem Emission.Good.of_emit {s : State} {cand cur : Nat} {e : Emission}
    (h : s.emit cand cur = some e) : e.Good s := by
  obtain ⟨hshaped, hverified, hafter, hstop, hinside, -⟩ := emit_good h
  exact ⟨⟨hshaped, hverified, hafter, hstop.trans_le hinside⟩, hstop⟩

/-- What a sound engine holds is good (10_state R52). -/
theorem HeldOk.good {s : State} {e : Emission} {k : Continuation} (h : HeldOk s e k) : e.Good s :=
  ⟨⟨h.shaped, h.verified, h.after, h.stop.trans_le h.inside⟩, h.stop⟩

/-- A verified descriptor compares bytes below N alone. -/
theorem SameInput.verified {s t : State} (h : SameInput s t) {d : Desc} (hd : d.Verified s)
    (hback : d.src.toNat < d.dst.toNat) (hin : d.stop ≤ s.bufN) : d.Verified t := by
  intro j hj
  rw [Desc.stop] at hin
  rw [← h.bytes _ (by omega), ← h.bytes _ (by omega)]
  exact hd j hj

/-- A good descriptor stays good at another state of the job, if PREV_END is no higher there. -/
theorem Desc.Good.of_sameInput {s t : State} {d : Desc} (hd : d.Good t) (h : SameInput s t)
    (hp : s.prevEnd.toNat ≤ t.prevEnd.toNat) : d.Good s where
  shaped := h.symm.shaped hd.shaped
  verified := h.symm.verified hd.verified hd.shaped.backward hd.inside
  after := hp.trans hd.after
  inside := h.bufN ▸ hd.inside

/-- From `s` to `t` exactly `pushed` was queued: each good as of `s`, in rising order, and PREV_END is at
the end of the last. -/
structure Pushes (s t : State) (pushed : List Desc) : Prop where
  input : SameInput s t
  fifo : t.fifo = s.fifo ++ pushed
  good : ∀ d ∈ pushed, d.Good s
  rising : DestinationsRise pushed
  before : ∀ d ∈ pushed, d.stop ≤ t.prevEnd.toNat
  raised : s.prevEnd.toNat ≤ t.prevEnd.toNat
  prevEnd : t.prevEnd.toNat = (pushed.getLast?.map Desc.stop).getD s.prevEnd.toNat

theorem Pushes.refl (s : State) : Pushes s s [] where
  input := .refl s
  fifo := (List.append_nil _).symm
  good := nofun
  rising := .nil
  before := nofun
  raised := le_rfl
  prevEnd := rfl

theorem Pushes.quiet {s t u : State} {q : List Desc} (h : Pushes s t q) (g : PushesNothing t u) :
    Pushes s u q where
  input := h.input.trans g.input
  fifo := g.fifo.trans h.fifo
  good := h.good
  rising := h.rising
  before := by rw [g.prevEnd]; exact h.before
  raised := by rw [g.prevEnd]; exact h.raised
  prevEnd := by rw [g.prevEnd]; exact h.prevEnd

/-- One more push: what came before it ends at or before PREV_END, and so before its destination. -/
theorem Pushes.push {s t : State} {q : List Desc} {e : Emission} (h : Pushes s t q) (he : e.Good t) :
    Pushes s (t.push e) (q ++ [e.desc]) := by
  have hgood : e.desc.Good s := he.desc.of_sameInput h.input h.raised
  have hstop : t.prevEnd.toNat ≤ e.stop.toNat :=
    he.desc.after.trans ((Nat.le_add_right ..).trans_eq he.stop)
  exact {
    input := h.input.trans (.of_eq rfl rfl rfl rfl rfl rfl)
    fifo := by rw [State.push_fifo, h.fifo, List.append_assoc]
    good := List.forall_mem_append.2 ⟨h.good, List.forall_mem_singleton.2 hgood⟩
    rising := List.pairwise_append.2 ⟨h.rising, List.pairwise_singleton _ _, fun d hd =>
      List.forall_mem_singleton.2 ((h.before d hd).trans he.desc.after)⟩
    before := List.forall_mem_append.2 ⟨fun d hd => (h.before d hd).trans hstop,
      List.forall_mem_singleton.2 he.stop.le⟩
    raised := h.raised.trans hstop
    prevEnd := by simp [he.stop] }

/-- All that was pushed from `s` to `t` is good (43_match_emitter R206). -/
def PushesGood (s t : State) : Prop := ∃ pushed, Pushes s t pushed

theorem PushesGood.refl (s : State) : PushesGood s s := ⟨[], .refl s⟩

theorem PushesGood.quiet {s t u : State} (h : PushesGood s t) (g : PushesNothing t u) :
    PushesGood s u :=
  h.imp fun _ hq => hq.quiet g

theorem PushesNothing.pushesGood {s t : State} (h : PushesNothing s t) : PushesGood s t :=
  (PushesGood.refl s).quiet h

theorem PushesGood.push {s t : State} {e : Emission} (h : PushesGood s t) (he : e.Good t) :
    PushesGood s (t.push e) :=
  let ⟨_, hq⟩ := h
  ⟨_, hq.push he⟩

/-! ### The rules that push -/

theorem PushesGood.finishMatch {s t : State} {e : Emission} (h : PushesGood s t) (he : e.Good t)
    (rd : Reg) : PushesGood s (t.finishMatch rd e) :=
  ((h.push he).quiet (setReg_pushesNothing rd e.desc.len _)).quiet (complete_pushesNothing _)

theorem PushesGood.finishJump {s t : State} {e : Emission} (h : PushesGood s t) (he : e.Good t) :
    PushesGood s (t.finishJump e) :=
  ((h.push he).quiet (jumpTo_pushesNothing e.stop _)).quiet (forceClose_pushesNothing _)

/-- A STEP_BODY pushes only what its emitter accepts (44_scan_control R236). -/
theorem PushesGood.stepBody {s t : State} (h : PushesGood s t) : PushesGood s t.stepBody.state := by
  rcases stepBody_cases t with ⟨-, hb⟩ | ⟨-, -, hb⟩ | ⟨-, -, -, hb⟩ | ⟨-, -, -, hit, hb⟩ |
    ⟨-, -, -, c, e, he, ⟨-, hb⟩ | ⟨-, hb⟩⟩ <;> rw [hb]
  · exact h
  · exact h.quiet (.of_scanFrame rfl rfl rfl)
  · exact (h.quiet (.of_scanFrame (hashByte_scanFrame t) rfl rfl)).quiet (forceClose_pushesNothing _)
  · exact (h.quiet (afterBoundary_pushesNothing t hit)).quiet (forceClose_pushesNothing _)
  · exact (h.quiet (afterBoundary_pushesNothing t true)).finishJump (.of_emit he)
  · exact h.quiet (afterBoundary_pushesNothing t true)

/-- Each turn of SCAN's loop is a STEP_BODY (44_scan_control R238). -/
theorem PushesGood.scanToEnd {s t : State} (h : PushesGood s t) : PushesGood s t.scanToEnd.state := by
  obtain ⟨hran, hheld⟩ := scanLoop_induction (P := PushesGood s) (Q := fun _ => PushesGood s)
    (fun v u hv _ hb => by have := hv.stepBody; rwa [hb] at this)
    (fun v e u hv _ hb => by have := hv.stepBody; rwa [hb] at this)
    (t.bufN - t.pos.toNat + 1) t h
  cases hend : t.scanToEnd with
  | ran u => exact hran u hend
  | held e u => exact hheld e u hend

theorem PushesGood.runScan {s t : State} (h : PushesGood s t) : PushesGood s t.runScan := by
  have hscan := h.scanToEnd
  cases hend : t.scanToEnd with
  | ran u =>
    rw [hend] at hscan
    rw [runScan_of_ran hend]
    exact hscan.quiet (complete_pushesNothing u)
  | held e u =>
    rw [hend] at hscan
    rw [runScan_of_held hend]
    exact hscan.quiet (hold_pushesNothing e .scanJump u)

/-! ### Commands -/

/-- A command other than INIT pushes only good descriptors. -/
theorem Executed.pushesGood {s t : State} {i : Instr} (h : Executed s i t) (hi : i ≠ .init) :
    PushesGood s t := by
  have hbody := (PushesGood.refl s).stepBody
  have hscan := (PushesGood.refl s).scanToEnd
  cases h with
  | initFails | initStarts => exact absurd rfl hi
  | gated => exact (raise_pushesNothing _ s).pushesGood
  | nop => exact (complete_pushesNothing s).pushesGood
  | tclr => exact (tableClear_pushesNothing s).pushesGood.quiet (complete_pushesNothing _)
  | tins => exact (tableWrite_pushesNothing _ _ s).pushesGood.quiet (complete_pushesNothing _)
  | reg => exact (setReg_pushesNothing _ _ s).pushesGood.quiet (complete_pushesNothing _)
  | matchPush _ _ he => exact (PushesGood.refl s).finishMatch (.of_emit he) _
  | matchHold => exact (hold_pushesNothing _ _ s).pushesGood
  | stepRan _ _ _ hb => rw [hb] at hbody; exact hbody.quiet (complete_pushesNothing _)
  | stepHold _ _ _ hb => rw [hb] at hbody; exact hbody.quiet (hold_pushesNothing _ _ _)
  | scanRan _ _ _ hb => rw [hb] at hscan; exact hscan.quiet (complete_pushesNothing _)
  | scanHold _ _ _ hb => rw [hb] at hscan; exact hscan.quiet (hold_pushesNothing _ _ _)

theorem runCommand_pushesGood {s t : State} {v : Word} (hv : v ≠ encodeCmd .init)
    (h : s.runCommand v = .next t) : PushesGood s t := by
  rw [State.runCommand] at h
  split at h
  · cases h
    exact (raise_pushesNothing _ s).pushesGood
  · rename_i i hd
    refine (exec_next h).pushesGood ?_
    rintro rfl
    exact hv (eq_encodeCmd_of_decodeCmd hd)

/-- A held command pushes what it holds, and a SCAN then goes on (10_state R52). -/
theorem resume_pushesGood {s t : State} {e : Emission} {k : Continuation} (he : e.Good s)
    (h : s.resume e k = .next t) : PushesGood s t := by
  cases k with
  | matchResult rd => cases h; exact (PushesGood.refl s).finishMatch he rd
  | stepJump => cases h; exact ((PushesGood.refl s).finishJump he).quiet (complete_pushesNothing _)
  | scanJump =>
    obtain ⟨-, h⟩ := needBuffer_next h
    obtain ⟨-, h⟩ := needTable_next h
    cases h
    exact ((PushesGood.refl s).finishJump he).runScan

/-! ### Turns of the engine and their parts -/

theorem engineStep_pushesGood {s t : State} (hinv : s.Inv) (hinit : s.engine ≠ .accepted (encodeCmd .init))
    (h : s.engineStep = .next t) : PushesGood s t := by
  rw [State.engineStep] at h
  split at h
  next => cases h; exact .refl s
  next v hg => exact runCommand_pushesGood (fun hv => hinit (hv ▸ hg)) h
  next =>
    obtain ⟨-, h⟩ := needBuffer_next h
    obtain ⟨-, h⟩ := needTable_next h
    cases h
    exact (PushesGood.refl s).runScan
  next => cases h; exact (complete_pushesNothing s).pushesGood
  next e k hg =>
    split at h
    · cases h; exact .refl s
    · exact resume_pushesGood (hinv.held e k hg).good h

/-- A part of a SCAN is one STEP_BODY. -/
theorem scanPart_pushesGood {s t : State} (h : s.scanPart = .next t) : PushesGood s t := by
  obtain ⟨-, h⟩ := needBuffer_next h
  obtain ⟨-, h⟩ := needTable_next h
  have hbody := (PushesGood.refl s).stepBody
  split at h
  next u hb => cases h; rw [hb] at hbody; exact hbody.quiet (setEngine_pushesNothing .scanning u.done u)
  next e u hb => cases h; rw [hb] at hbody; exact hbody.quiet (hold_pushesNothing e .scanJump u)

/-- Up to just before its completion a command has pushed what the whole command pushes. -/
theorem beforeCompletion_pushesGood {s t : State} {r : Result}
    (hr : ∀ u, r = .next u → PushesGood s u) (h : s.beforeCompletion r = .next t) :
    PushesGood s t := by
  cases r with
  | next u =>
    rw [State.beforeCompletion] at h
    split at h <;> cases h
    · exact hr _ rfl
    · exact (hr _ rfl).quiet (setEngine_pushesNothing .finishing s.done u)
  | fault | refused => cases h

theorem enginePart_pushesGood {s t : State} (hinv : s.Inv)
    (hinit : s.engine ≠ .accepted (encodeCmd .init)) (h : s.enginePart = .next t) :
    PushesGood s t := by
  rw [State.enginePart] at h
  split at h
  next => cases h; exact .refl s
  next v hg =>
    split at h
    · rcases needCfg_next h with ⟨-, h⟩ | ⟨-, rfl⟩
      · exact scanPart_pushesGood h
      · exact (raise_pushesNothing _ s).pushesGood
    · exact beforeCompletion_pushesGood
        (fun u hu => runCommand_pushesGood (fun hv => hinit (hv ▸ hg)) hu) h
  next => exact scanPart_pushesGood h
  next => cases h; exact (complete_pushesNothing s).pushesGood
  next e k hg =>
    have he := (hinv.held e k hg).good
    split at h
    · cases h; exact .refl s
    · split at h
      · cases h
        exact ((PushesGood.refl s).finishJump he).quiet (setEngine_pushesNothing .scanning _ _)
      · exact beforeCompletion_pushesGood (fun u hu => resume_pushesGood he hu) h

/-- Settles O22: a whole turn and a part of one are runs of good pushes, `engineStep_pushesGood` and
`enginePart_pushesGood`. -/
theorem pushedDescriptorsAreGood : Obligations.PushedDescriptorsAreGood := by
  unfold Obligations.PushedDescriptorsAreGood
  intro s t hinv hinit hturn
  obtain ⟨pushed, h⟩ : PushesGood s t :=
    hturn.elim (engineStep_pushesGood hinv hinit) (enginePart_pushesGood hinv hinit)
  refine ⟨pushed, h.fifo, fun d hd => ?_, h.rising, h.prevEnd⟩
  obtain ⟨hshaped, hverified, hafter, hinside⟩ := h.good d hd
  exact ⟨hshaped, hverified, hafter, hinside⟩

end Sys2Proof.Machine
end

section
/-! PROOFS. The end of a run (44_scan_control R245): there is at most one, the machine rests there, and what is
observed of it is what the host reads. -/

namespace Sys2Proof.Machine

open Sys2Proof

/-- An end of a run is its first state that meets both conditions, so no run goes on to a later end. -/
theorem EndOfRun.unique {s t t' : State} (h : EndOfRun s t) (h' : EndOfRun s t') : t = t' := by
  obtain ⟨hend, n, hrun, hfirst⟩ := h
  obtain ⟨hend', n', hrun', hfirst'⟩ := h'
  rcases Nat.lt_trichotomy n n' with hlt | rfl | hlt
  · exact absurd hend (by simp [(hfirst' n hlt t hrun).1])
  · exact Host.Outcome.next.inj (hrun.symm.trans hrun')
  · exact absurd hend' (by simp [(hfirst n' hlt t' hrun').1])

theorem atEnd_iff (s : State) : s.atEnd = true ↔ s.hostDone = true ∧ s.engine = .idle := by
  simp [State.atEnd, busy_eq_false]

theorem hostDone_nil {s : State} (h : s.agenda = []) : s.hostDone = true := by
  simp [State.hostDone, h]

/-- Before a reset, a host with no further action has none in front and none behind. -/
theorem hostDone_cons {s : State} {e : Event} {rest : List Event} (h : s.agenda = e :: rest)
    (he : e ≠ .reset) :
    s.hostDone = true ↔ e.isHostAction = false ∧ State.hostDone { s with agenda := rest } = true := by
  simp [State.hostDone, h, he]

/-- With no host action to come, an idle engine and no reset, only a turn of the agenda passes (60_exceptions
R290). -/
theorem step_atEnd {s : State} (h : s.atEnd = true) (hreset : s.agenda.head? ≠ some .reset) :
    step s = .next { s with agenda := s.agenda.tail } ∧
      State.atEnd { s with agenda := s.agenda.tail } = true := by
  obtain ⟨hdone, hidle⟩ := (atEnd_iff s).1 h
  rw [atEnd_iff]
  cases hag : s.agenda with
  | nil =>
    have hsame : { s with agenda := [] } = s := by rw [← hag]
    refine ⟨?_, hostDone_nil rfl, hidle⟩
    simp [step, hag, engineStep_of_idle hidle, hsame]
  | cons e rest =>
    have he : e ≠ .reset := by rintro rfl; simp [hag] at hreset
    obtain ⟨hquiet, hrest⟩ := (hostDone_cons hag he).1 hdone
    refine ⟨?_, hrest, hidle⟩
    cases e with
    | host | wait => cases hquiet
    | reset => exact absurd rfl he
    | engine => simp [step, hag, State.engineStep, hidle]
    | enginePart => simp [step, hag, State.enginePart, hidle]

/-- No observed register shows the agenda. -/
theorem observation_agenda (s : State) (rest : List Event) (reads : List HostReg) :
    State.observation { s with agenda := rest } reads = s.observation reads := by
  have hreg : ∀ r, State.regValue { s with agenda := rest } r = s.regValue r := fun r => by
    cases r <;> rfl
  simp only [State.observation, hreg]

/-- Settles O60: `EndOfRun.unique`, `step_atEnd`, and with BUSY = 0 no read is a draw. -/
theorem endOfRunIsFinal : Obligations.EndOfRunIsFinal := by
  unfold Obligations.EndOfRunIsFinal
  refine ⟨fun s t t' => EndOfRun.unique, fun s h hreset => ?_, fun s width addr r h hreg => ?_⟩
  · obtain ⟨hstep, hend⟩ := step_atEnd h hreset
    exact ⟨_, hstep, rfl, hend, observation_agenda s _⟩
  · have hidle : s.busy = false := (busy_eq_false s).2 ((atEnd_iff s).1 h).2
    have hread : s.hostAccess (.read width addr) = s.readReg r := by rw [State.hostAccess, hreg]
    rw [hread, readReg_of_stable (.inr hidle)]
    rfl

end Sys2Proof.Machine
end

section
/-! PROOFS. The output of a job covers each byte once (44_scan_control R240, R242): whatever the host and the
engine do, the destinations of the job's descriptors, popped ones included, rise within N, and PREV_END is at
the end of the last. A turn of the engine or a part of one only adds good pushes; the host can only move
descriptors out of the FIFO, as long as CFG_OK stays 1. -/

namespace Sys2Proof.Machine

open Sys2Proof

/-! ### What the engine holds is good -/

/-- The descriptor of a held push, if there is one, is good (10_state R52): the part of `State.Inv` that the
output of a job rests on. -/
def State.HeldGood (s : State) : Prop := ∀ e k, s.engine = .held e k → e.Good s

theorem State.Inv.heldGood {s : State} (h : s.Inv) : s.HeldGood := fun e k hg => (h.held e k hg).good

theorem heldGood_of_not_held {s : State} (h : ∀ e k, s.engine ≠ .held e k) : s.HeldGood :=
  fun e k hg => absurd hg (h e k)

theorem Emission.Good.of_sameInput {s t : State} {e : Emission} (he : e.Good t) (h : SameInput s t)
    (hp : s.prevEnd = t.prevEnd) : e.Good s :=
  ⟨he.desc.of_sameInput h (by rw [hp]), he.stop⟩

theorem Emission.Good.quiet {s t : State} {e : Emission} (he : e.Good s) (h : PushesNothing s t) :
    e.Good t := he.of_sameInput h.input.symm h.prevEnd

theorem hold_heldGood {s : State} {e : Emission} (he : e.Good s) (k : Continuation) :
    (s.hold e k).HeldGood := by
  intro e' k' hg
  cases hg
  exact he.quiet (hold_pushesNothing e k s)

/-- A STEP_BODY holds what its emitter has accepted (44_scan_control R236). -/
theorem stepBody_held_good {s t : State} {e : Emission} (hb : s.stepBody = .held e t) : e.Good t := by
  rcases stepBody_cases s with ⟨-, h⟩ | ⟨-, -, h⟩ | ⟨-, -, -, h⟩ | ⟨-, -, -, hit, h⟩ |
    ⟨-, -, -, c, e', he, ⟨-, h⟩ | ⟨-, h⟩⟩ <;> cases h.symm.trans hb
  exact .of_emit he

theorem scanToEnd_held_good {s t : State} {e : Emission} (h : s.scanToEnd = .held e t) : e.Good t := by
  obtain ⟨v, -, -, hb⟩ := (scanToEnd_scanTo s).2 e t h
  exact stepBody_held_good hb

theorem runScan_heldGood (s : State) : s.runScan.HeldGood := by
  cases h : s.scanToEnd with
  | ran t => rw [runScan_of_ran h]; exact heldGood_of_not_held nofun
  | held e t => rw [runScan_of_held h]; exact hold_heldGood (scanToEnd_held_good h) _

/-- A command holds only what the emitter has accepted. -/
theorem Executed.heldGood {s t : State} {i : Instr} (h : Executed s i t) : t.HeldGood := by
  cases h with
  | matchHold _ _ he => exact hold_heldGood (.of_emit he) _
  | stepHold _ _ _ hb => exact hold_heldGood (stepBody_held_good hb) _
  | scanHold _ _ _ hb => exact hold_heldGood (scanToEnd_held_good hb) _
  | gated | nop | initFails | initStarts | tclr | tins | reg | matchPush | stepRan | scanRan =>
    exact heldGood_of_not_held nofun

/-! ### The engine leaves the host's part of the job alone -/

/-- The engine neither pops nor touches CFG_OK. -/
structure KeepsJob (s t : State) : Prop where
  popped : t.popped = s.popped
  cfgOk : t.cfgOk = s.cfgOk

theorem KeepsJob.trans {s t u : State} (h : KeepsJob s t) (g : KeepsJob t u) : KeepsJob s u :=
  ⟨g.popped.trans h.popped, g.cfgOk.trans h.cfgOk⟩

theorem ScanFrame.keepsJob {s t : State} (h : ScanFrame s t) : KeepsJob s t := ⟨h.popped, h.cfgOk⟩

theorem setEngine_keepsJob (g : Engine) (done : Bool) (s : State) :
    KeepsJob s { s with engine := g, done := done } := ⟨rfl, rfl⟩

theorem scanToEnd_keepsJob (s : State) : KeepsJob s s.scanToEnd.state :=
  (scanLoop_scanFrame _ s).keepsJob

theorem runScan_keepsJob (s : State) : KeepsJob s s.runScan := by
  have hscan := scanToEnd_keepsJob s
  cases h : s.scanToEnd with
  | ran t => rw [h] at hscan; rw [runScan_of_ran h]; exact ⟨hscan.popped, hscan.cfgOk⟩
  | held e t => rw [h] at hscan; rw [runScan_of_held h]; exact ⟨hscan.popped, hscan.cfgOk⟩

/-- INIT alone writes CFG_OK (44_scan_control R232). -/
theorem Executed.keepsJob {s t : State} {i : Instr} (h : Executed s i t) (hi : i ≠ .init) :
    KeepsJob s t := by
  have hscan := scanToEnd_keepsJob s
  cases h with
  | initFails | initStarts => exact absurd rfl hi
  | stepRan _ _ _ hb => exact (stepBody_ran_scanFrame hb).keepsJob.trans (setEngine_keepsJob _ _ _)
  | stepHold _ _ _ hb => exact (stepBody_held_scanFrame hb).keepsJob.trans (setEngine_keepsJob _ _ _)
  | scanRan _ _ _ hb => rw [hb] at hscan; exact hscan.trans (setEngine_keepsJob _ _ _)
  | scanHold _ _ _ hb => rw [hb] at hscan; exact hscan.trans (setEngine_keepsJob _ _ _)
  | gated | nop | tclr | tins | reg | matchPush | matchHold => exact ⟨rfl, rfl⟩

/-! ### Turns of the engine -/

/-- What a turn of the engine (70_reset_and_hazards R320), or a part of one (20_memory R92), can lead to. -/
inductive EngineTurn (s : State) : State → Prop where
  /-- idle, or held on a full FIFO -/
  | rests : EngineTurn s s
  | completes : EngineTurn s s.complete
  | illegal : EngineTurn s (s.raise .illegalCmd)
  | executes {i : Instr} {t : State} (hg : s.engine = .accepted (encodeCmd i)) (h : Executed s i t) :
      EngineTurn s t
  | scans : EngineTurn s s.runScan
  /-- one STEP_BODY of a SCAN -/
  | scansByte {t : State} (hb : s.stepBody = .ran t) : EngineTurn s { t with engine := .scanning }
  | scanHolds {t : State} {e : Emission} (hb : s.stepBody = .held e t) :
      EngineTurn s (t.hold e .scanJump)
  | pushesMatch {e : Emission} {k : Continuation} (hg : s.engine = .held e k) (rd : Reg) :
      EngineTurn s (s.finishMatch rd e)
  | jumps {e : Emission} {k : Continuation} (hg : s.engine = .held e k) :
      EngineTurn s (s.finishJump e).complete
  | jumpsAndScans {e : Emission} {k : Continuation} (hg : s.engine = .held e k) :
      EngineTurn s (s.finishJump e).runScan
  /-- a held SCAN, up to its next STEP_BODY -/
  | jumpsOn {e : Emission} {k : Continuation} (hg : s.engine = .held e k) :
      EngineTurn s { s.finishJump e with engine := .scanning }
  /-- up to just before the completion -/
  | stopsShort {t : State} (h : EngineTurn s t) :
      EngineTurn s { t with engine := .finishing, done := s.done }

theorem runCommand_turn {s t : State} {v : Word} (hg : s.engine = .accepted v)
    (h : s.runCommand v = .next t) : EngineTurn s t := by
  rw [State.runCommand] at h
  split at h
  next => cases h; exact .illegal
  next i hd => exact .executes (hg.trans (congrArg _ (eq_encodeCmd_of_decodeCmd hd))) (exec_next h)

theorem resume_turn {s t : State} {e : Emission} {k : Continuation} (hg : s.engine = .held e k)
    (h : s.resume e k = .next t) : EngineTurn s t := by
  cases k with
  | matchResult rd => cases h; exact .pushesMatch hg rd
  | stepJump => cases h; exact .jumps hg
  | scanJump =>
    obtain ⟨-, h⟩ := needBuffer_next h
    obtain ⟨-, h⟩ := needTable_next h
    cases h
    exact .jumpsAndScans hg

theorem engineStep_turn {s t : State} (h : s.engineStep = .next t) : EngineTurn s t := by
  rw [State.engineStep] at h
  split at h
  next => cases h; exact .rests
  next v hg => exact runCommand_turn hg h
  next =>
    obtain ⟨-, h⟩ := needBuffer_next h
    obtain ⟨-, h⟩ := needTable_next h
    cases h
    exact .scans
  next => cases h; exact .completes
  next e k hg =>
    split at h
    · cases h; exact .rests
    · exact resume_turn hg h

theorem scanPart_turn {s t : State} (h : s.scanPart = .next t) : EngineTurn s t := by
  obtain ⟨-, h⟩ := needBuffer_next h
  obtain ⟨-, h⟩ := needTable_next h
  split at h
  next u hb => cases h; exact .scansByte hb
  next e u hb => cases h; exact .scanHolds hb

theorem beforeCompletion_turn {s t : State} {r : Result} (hr : ∀ u, r = .next u → EngineTurn s u)
    (h : s.beforeCompletion r = .next t) : EngineTurn s t := by
  cases r with
  | next u =>
    rw [State.beforeCompletion] at h
    split at h <;> cases h
    · exact hr _ rfl
    · exact .stopsShort (hr _ rfl)
  | fault | refused => cases h

theorem enginePart_turn {s t : State} (h : s.enginePart = .next t) : EngineTurn s t := by
  rw [State.enginePart] at h
  split at h
  next => cases h; exact .rests
  next v hg =>
    split at h
    next hd =>
      rcases needCfg_next h with ⟨-, h⟩ | ⟨hc, rfl⟩
      · exact scanPart_turn h
      · exact .executes (hg.trans (congrArg _ (eq_encodeCmd_of_decodeCmd hd))) (.gated rfl hc)
    next => exact beforeCompletion_turn (fun u => runCommand_turn hg) h
  next => exact scanPart_turn h
  next => cases h; exact .completes
  next e k hg =>
    split at h
    · cases h; exact .rests
    · split at h
      · cases h; exact .jumpsOn hg
      · exact beforeCompletion_turn (fun u => resume_turn hg) h

/-- A turn within a job pushes only good descriptors (43_match_emitter R206). -/
theorem EngineTurn.pushesGood {s t : State} (h : EngineTurn s t) (hheld : s.HeldGood)
    (hinit : s.engine ≠ .accepted (encodeCmd .init)) : PushesGood s t := by
  have hbody := (PushesGood.refl s).stepBody
  induction h with
  | rests => exact .refl s
  | completes => exact (complete_pushesNothing s).pushesGood
  | illegal => exact (raise_pushesNothing _ s).pushesGood
  | executes hg h => exact h.pushesGood fun hi => hinit (hi ▸ hg)
  | scans => exact (PushesGood.refl s).runScan
  | scansByte hb => rw [hb] at hbody; exact hbody.quiet (setEngine_pushesNothing .scanning _ _)
  | scanHolds hb => rw [hb] at hbody; exact hbody.quiet (hold_pushesNothing _ _ _)
  | pushesMatch hg rd => exact (PushesGood.refl s).finishMatch (hheld _ _ hg) rd
  | jumps hg =>
    exact ((PushesGood.refl s).finishJump (hheld _ _ hg)).quiet (complete_pushesNothing _)
  | jumpsAndScans hg => exact ((PushesGood.refl s).finishJump (hheld _ _ hg)).runScan
  | jumpsOn hg =>
    exact ((PushesGood.refl s).finishJump (hheld _ _ hg)).quiet
      (setEngine_pushesNothing .scanning _ _)
  | stopsShort _ ih => exact ih.quiet (setEngine_pushesNothing .finishing _ _)

theorem EngineTurn.heldGood {s t : State} (h : EngineTurn s t) (hheld : s.HeldGood) : t.HeldGood := by
  cases h with
  | rests => exact hheld
  | executes _ h => exact h.heldGood
  | scans | jumpsAndScans => exact runScan_heldGood _
  | scanHolds hb => exact hold_heldGood (stepBody_held_good hb) _
  | completes | illegal | scansByte | pushesMatch | jumps | jumpsOn | stopsShort =>
    exact heldGood_of_not_held nofun

theorem EngineTurn.keepsJob {s t : State} (h : EngineTurn s t)
    (hinit : s.engine ≠ .accepted (encodeCmd .init)) : KeepsJob s t := by
  induction h with
  | executes hg h => exact h.keepsJob fun hi => hinit (hi ▸ hg)
  | scans => exact runScan_keepsJob s
  | scansByte hb => exact (stepBody_ran_scanFrame hb).keepsJob.trans (setEngine_keepsJob _ _ _)
  | scanHolds hb => exact (stepBody_held_scanFrame hb).keepsJob.trans (setEngine_keepsJob _ _ _)
  | jumpsAndScans => exact (finishJump_scanFrame s _).keepsJob.trans (runScan_keepsJob _)
  | rests | completes | illegal | pushesMatch | jumps | jumpsOn => exact ⟨rfl, rfl⟩
  | stopsShort _ ih => exact ih.trans (setEngine_keepsJob _ _ _)

/-! ### Host accesses within a job -/

/-- What the host does to a job: a descriptor moves from the FIFO to the host at most, PREV_END stays, what the
engine holds is about the same bytes as before, and BUF_LEN changes only where CFG_OK is 0 from then on. -/
structure HostKeeps (s t : State) : Prop where
  config : t.cfgOk = true → s.cfgOk = true ∧ t.bufLen = s.bufLen
  prevEnd : t.prevEnd = s.prevEnd
  popped : s.popped.length ≤ t.popped.length
  output : t.popped ++ t.fifo = s.popped ++ s.fifo
  held : ∀ e k, t.engine = .held e k → s.engine = .held e k ∧ SameInput t s

theorem HostKeeps.trans {s t u : State} (h : HostKeeps s t) (g : HostKeeps t u) : HostKeeps s u where
  config hc := by
    obtain ⟨ht, hlen⟩ := g.config hc
    exact (h.config ht).imp_right hlen.trans
  prevEnd := g.prevEnd.trans h.prevEnd
  popped := h.popped.trans g.popped
  output := g.output.trans h.output
  held e k hg := by
    obtain ⟨hg', hin⟩ := g.held e k hg
    exact (h.held e k hg').imp_right hin.trans

theorem HostKeeps.heldGood {s t : State} (h : HostKeeps s t) (hs : s.HeldGood) : t.HeldGood := by
  intro e k hg
  obtain ⟨hg', hin⟩ := h.held e k hg
  exact (hs e k hg').of_sameInput hin h.prevEnd

/-- The sticky bits, IE, the draws, the bus answer and the agenda: nothing that a job consists of. -/
theorem sideEffects_hostKeeps (s : State) (done err drop busErr : Bool) (errCode : BitVec 8)
    (ie : BitVec 5) (draws : Nat) (agenda : List Event) (response : Response) :
    HostKeeps s { s with
      done := done, err := err, drop := drop, busErr := busErr, errCode := errCode, ie := ie
      draws := draws, agenda := agenda, response := response } :=
  ⟨fun hc => ⟨hc, rfl⟩, rfl, le_rfl, rfl, fun _ _ hg => ⟨hg, .of_eq rfl rfl rfl rfl rfl rfl⟩⟩

theorem agenda_hostKeeps (s : State) (rest : List Event) : HostKeeps s { s with agenda := rest } :=
  sideEffects_hostKeeps s _ _ _ _ _ _ _ rest _

theorem respond_hostKeeps (s : State) (data : Word) (busError : Bool) :
    HostKeeps s (s.respond data busError) := sideEffects_hostKeeps s _ _ _ _ _ _ _ _ _

theorem badAccess_hostKeeps (s : State) : HostKeeps s s.badAccess :=
  sideEffects_hostKeeps s _ _ _ _ _ _ _ _ _

theorem setDrop_hostKeeps (s : State) : HostKeeps s s.setDrop :=
  sideEffects_hostKeeps s _ _ _ _ _ _ _ _ _

theorem accept_hostKeeps (s : State) (v : Word) : HostKeeps s (s.accept v) :=
  ⟨fun hc => ⟨hc, rfl⟩, rfl, le_rfl, rfl, nofun⟩

theorem popHead_hostKeeps (s : State) : HostKeeps s s.popHead := by
  have hout := popHead_output s
  rw [popHead_eq] at hout ⊢
  exact ⟨fun hc => ⟨hc, rfl⟩, rfl, by simp, hout,
    fun _ _ hg => ⟨hg, .of_eq rfl rfl rfl rfl rfl rfl⟩⟩

/-- What only an idle engine takes (10_state R57): an idle engine holds nothing. -/
theorem whenIdle_hostKeeps {s t : State} (hconfig : t.cfgOk = true → s.cfgOk = true ∧ t.bufLen = s.bufLen)
    (hprev : t.prevEnd = s.prevEnd) (hpopped : t.popped = s.popped) (hfifo : t.fifo = s.fifo)
    (hengine : t.engine = s.engine) : HostKeeps s (s.whenIdle t) := by
  cases hb : s.busy with
  | true => rw [whenIdle_busy hb]; exact setDrop_hostKeeps s
  | false =>
    rw [whenIdle_idle hb]
    have hidle : t.engine = .idle := hengine.trans ((busy_eq_false s).1 hb)
    exact ⟨hconfig, hprev, by rw [hpopped], by rw [hpopped, hfifo],
      fun e k hg => absurd (hidle.symm.trans hg) nofun⟩

theorem readReg_hostKeeps (s : State) (r : HostReg) : HostKeeps s (s.readReg r) := by
  rw [State.readReg]
  split
  · exact sideEffects_hostKeeps s _ _ _ _ _ _ _ _ _
  · exact respond_hostKeeps s _ _

/-- A write of CFG or BUF_LEN that is performed clears CFG_OK (10_state R35, R36). -/
theorem writeReg_hostKeeps (s : State) (r : HostReg) (v : Word) : HostKeeps s (s.writeReg r v) := by
  cases r with
  | cfg | bufLen => exact whenIdle_hostKeeps nofun rfl rfl rfl rfl
  | gpr i => exact whenIdle_hostKeeps (fun hc => ⟨hc, rfl⟩) rfl rfl rfl rfl
  | cmd =>
    rw [State.writeReg]
    split
    · exact setDrop_hostKeeps s
    · exact accept_hostKeeps s v
  | descPop => exact popHead_hostKeeps s
  | _ => exact sideEffects_hostKeeps s _ _ _ _ _ _ _ _ _

theorem writeBuffer_hostKeeps (s : State) (off width : Nat) (v : Word) :
    HostKeeps s (s.writeBuffer off width v) :=
  whenIdle_hostKeeps (fun hc => ⟨hc, rfl⟩) rfl rfl rfl rfl

theorem hostAccess_hostKeeps (s : State) (a : Access) : HostKeeps s (s.hostAccess a) := by
  cases a with
  | read width addr =>
    rw [State.hostAccess]
    cases Params.target s.params width addr with
    | register r => exact readReg_hostKeeps s r
    | aperture off => exact respond_hostKeeps s _ _
    | bad => exact badAccess_hostKeeps s
  | write width addr v =>
    rw [State.hostAccess]
    cases Params.target s.params width addr with
    | register r => exact (writeReg_hostKeeps s r v).trans (respond_hostKeeps _ _ _)
    | aperture off => exact (writeBuffer_hostKeeps s off width v).trans (respond_hostKeeps _ _ _)
    | bad => exact badAccess_hostKeeps s

/-- A turn of the host's `wait` is a read of STATUS (30_encoding R123). -/
theorem poll_hostKeeps (s : State) : HostKeeps s s.poll := by
  rw [State.poll]
  split
  · exact (readReg_hostKeeps s .status).trans (agenda_hostKeeps _ _)
  · exact readReg_hostKeeps s .status

/-! ### The output of a job -/

theorem jobOutput_eq_drop {s t : State} (h : s.popped.length ≤ t.popped.length) :
    jobOutput s t = (t.popped ++ t.fifo).drop s.popped.length :=
  (List.drop_append_of_le_length h).symm

/-- The output of a job grows at its end alone, however its descriptors are popped. -/
theorem jobOutput_append {s t u : State} {pushed : List Desc} (ht : s.popped.length ≤ t.popped.length)
    (hu : t.popped.length ≤ u.popped.length)
    (h : u.popped ++ u.fifo = t.popped ++ t.fifo ++ pushed) :
    jobOutput s u = jobOutput s t ++ pushed := by
  rw [jobOutput_eq_drop ht, jobOutput_eq_drop (ht.trans hu), h,
    List.drop_append_of_le_length (by rw [List.length_append]; omega)]

/-- The output, as of `t`, of the job that began at `s`: destinations rise within N, and PREV_END is at the
end of the last, so that the tail literal starts there (44_scan_control R240). -/
structure OutputOk (s t : State) : Prop where
  popped : s.popped.length ≤ t.popped.length
  rising : DestinationsRise (jobOutput s t)
  inside : ∀ d ∈ jobOutput s t, d.stop ≤ t.bufN
  before : ∀ d ∈ jobOutput s t, d.stop ≤ t.prevEnd.toNat
  prevEnd : ((jobOutput s t).getLast?.map Desc.stop).getD 0 = t.prevEnd.toNat

theorem OutputOk.start {s : State} (hfifo : s.fifo = []) (hprev : s.prevEnd = 0) : OutputOk s s := by
  have hnone : jobOutput s s = [] := by simp [jobOutput, hfifo]
  refine ⟨le_rfl, ?_, ?_, ?_, ?_⟩ <;> rw [hnone]
  · exact .nil
  · nofun
  · nofun
  · rw [hprev]; rfl

theorem OutputOk.host {s t u : State} (h : OutputOk s t) (g : HostKeeps t u) (hc : u.cfgOk = true) :
    OutputOk s u := by
  have hout : jobOutput s u = jobOutput s t := by
    simpa using jobOutput_append (pushed := []) h.popped g.popped (by simpa using g.output)
  refine ⟨h.popped.trans g.popped, ?_, ?_, ?_, ?_⟩ <;> rw [hout]
  · exact h.rising
  · rw [State.bufN, (g.config hc).2]; exact h.inside
  · rw [g.prevEnd]; exact h.before
  · rw [g.prevEnd]; exact h.prevEnd

/-- Good pushes go on where the output ended. -/
theorem OutputOk.pushes {s t u : State} {pushed : List Desc} (h : OutputOk s t)
    (g : Pushes t u pushed) (hpop : u.popped = t.popped) : OutputOk s u := by
  have hout : jobOutput s u = jobOutput s t ++ pushed :=
    jobOutput_append h.popped (by rw [hpop]) (by rw [hpop, g.fifo, List.append_assoc])
  refine ⟨hpop ▸ h.popped, ?_, ?_, ?_, ?_⟩ <;> rw [hout]
  · exact List.pairwise_append.2 ⟨h.rising, g.rising, fun d hd d' hd' =>
      (h.before d hd).trans (g.good d' hd').after⟩
  · rw [← g.input.bufN]
    exact List.forall_mem_append.2 ⟨h.inside, fun d hd => (g.good d hd).inside⟩
  · exact List.forall_mem_append.2 ⟨fun d hd => (h.before d hd).trans g.raised, g.before⟩
  · rw [g.prevEnd, ← h.prevEnd]
    cases hlast : pushed.getLast? <;> simp [List.getLast?_append, hlast]

/-- Rising destinations within N leave literal spans for exactly the rest (44_scan_control R242). -/
theorem timesCovered_rising {ds : List Desc} {n : Nat} (hrise : DestinationsRise ds)
    (hin : ∀ d ∈ ds, d.stop ≤ n) (a : Nat) :
    timesCovered a (literalSpans 0 n ds ++ destinations ds) = if a < n then 1 else 0 := by
  simpa using timesCovered_output (fun d _ => Nat.zero_le d.dst.toNat) hrise hin (Nat.zero_le n) a

/-! ### Every step of a job -/

/-- A step that is no reset takes an event off the agenda, if there is one, and gives the engine a turn or the
host an access. -/
theorem step_next {s t : State} (h : step s = .next t) (hreset : s.agenda.head? ≠ some .reset) :
    ∃ rest, EngineTurn { s with agenda := rest } t ∨ HostKeeps { s with agenda := rest } t := by
  rw [step] at h
  split at h
  next hag =>
    have hsame : { s with agenda := [] } = s := by rw [← hag]
    exact ⟨[], .inl (hsame.symm ▸ engineStep_turn h)⟩
  next rest hag => exact ⟨rest, .inl (engineStep_turn h)⟩
  next rest hag => exact ⟨rest, .inl (enginePart_turn h)⟩
  next a rest hag => cases h; exact ⟨rest, .inr (hostAccess_hostKeeps _ a)⟩
  next rest hag => cases h; exact ⟨rest, .inr (poll_hostKeeps _)⟩
  next rest hag => exact absurd (by rw [hag]; rfl) hreset

/-- What every step of a job keeps: the output so far, and what the engine holds will go on where it ends. -/
structure InJobOk (s t : State) : Prop where
  output : OutputOk s t
  heldGood : t.HeldGood

theorem InJobOk.host {s t u : State} (h : InJobOk s t) (g : HostKeeps t u) (hc : u.cfgOk = true) :
    InJobOk s u :=
  ⟨h.output.host g hc, g.heldGood h.heldGood⟩

theorem InJobOk.turn {s t u : State} (h : InJobOk s t) (g : EngineTurn t u)
    (hinit : t.engine ≠ .accepted (encodeCmd .init)) : InJobOk s u := by
  obtain ⟨pushed, hpush⟩ := g.pushesGood h.heldGood hinit
  exact ⟨h.output.pushes hpush (g.keepsJob hinit).popped, g.heldGood h.heldGood⟩

/-- CFG_OK never rises within a job, so that it was 1 all along where it is 1 at the end. -/
theorem InJob.ok {s t : State} (h : InJob s t) (hs : InJobOk s s) (hc : t.cfgOk = true) :
    InJobOk s t := by
  induction h with
  | refl => exact hs
  | @step t u _ hinit hreset hstep ih =>
    obtain ⟨rest, hturn | hhost⟩ := step_next hstep hreset
    · have hc' : t.cfgOk = true := (hturn.keepsJob hinit).cfgOk.symm.trans hc
      exact ((ih hc').host (agenda_hostKeeps t rest) hc').turn hturn hinit
    · have hkeeps := (agenda_hostKeeps t rest).trans hhost
      exact (ih (hkeeps.config hc).1).host hkeeps hc

/-- Settles O33: a SCAN is a run of good pushes (`Executed.pushesGood`), and so is every step of a job
(`InJob.ok`); rising destinations within N cover as `timesCovered_rising` says. -/
theorem scanCoversEachByteOnce : Obligations.ScanCoversEachByteOnce := by
  unfold Obligations.ScanCoversEachByteOnce
  refine ⟨fun s t _ _ hfifo _ hscan _ a => ?_, fun s t hinv _ hfifo hprev hjob hc => ?_⟩
  · obtain ⟨pushed, h⟩ := (exec_next hscan).pushesGood nofun
    have hpushed : t.fifo = pushed := by rw [h.fifo, hfifo, List.nil_append]
    rw [hpushed]
    exact timesCovered_rising h.rising (fun d hd => (h.good d hd).inside) a
  · have hok := (hjob.ok ⟨.start hfifo hprev, hinv.heldGood⟩ hc).output
    exact ⟨timesCovered_rising hok.rising hok.inside, hok.prevEnd⟩

end Sys2Proof.Machine
end

section
/-! PROOFS. A hold on a full FIFO that the host never pops stays as it is (10_state R52, 70_reset_and_hazards
R312): no event but a DESC_POP write and a reset moves the held push or the FIFO. -/

namespace Sys2Proof.Machine

open Sys2Proof

/-! ### What keeps a hold -/

/-- From `s` to `t` the engine and the FIFO stay as they are, and no event comes up that could end a hold. -/
structure KeepsHold (s t : State) : Prop where
  params : t.params = s.params
  engine : t.engine = s.engine
  fifo : t.fifo = s.fifo
  agenda : ∀ e ∈ t.agenda, e.endsHold = true → e ∈ s.agenda

theorem KeepsHold.of_eq {s t : State} (hparams : t.params = s.params) (hengine : t.engine = s.engine)
    (hfifo : t.fifo = s.fifo) (hagenda : t.agenda = s.agenda) : KeepsHold s t :=
  ⟨hparams, hengine, hfifo, fun _ he _ => hagenda ▸ he⟩

theorem KeepsHold.refl (s : State) : KeepsHold s s := .of_eq rfl rfl rfl rfl

theorem KeepsHold.trans {s t u : State} (h : KeepsHold s t) (g : KeepsHold t u) : KeepsHold s u where
  params := g.params.trans h.params
  engine := g.engine.trans h.engine
  fifo := g.fifo.trans h.fifo
  agenda e he hends := h.agenda e (g.agenda e he hends) hends

/-- STALL is read off the engine and the FIFO (10_state R38, R52). -/
theorem KeepsHold.stall {s t : State} (h : KeepsHold s t) (hs : s.stall = true) : t.stall = true := by
  rw [stall_iff, State.fifoFull] at hs ⊢
  rwa [h.engine, h.params, h.fifo]

theorem busy_of_stall {s : State} (h : s.stall = true) : s.busy = true := by
  obtain ⟨⟨e, k, hg⟩, -⟩ := (stall_iff s).1 h
  simp [State.busy, hg]

/-! ### Turns of a stalled engine -/

theorem engineStep_of_stall {s : State} (h : s.stall = true) : s.engineStep = .next s := by
  obtain ⟨⟨e, k, hg⟩, hf⟩ := (stall_iff s).1 h
  simp [State.engineStep, hg, hf]

theorem enginePart_of_stall {s : State} (h : s.stall = true) : s.enginePart = .next s := by
  obtain ⟨⟨e, k, hg⟩, hf⟩ := (stall_iff s).1 h
  simp [State.enginePart, hg, hf]

/-! ### Host accesses to a busy engine -/

theorem readReg_keepsHold (s : State) (r : HostReg) : KeepsHold s (s.readReg r) := by
  rw [State.readReg]
  split <;> exact .of_eq rfl rfl rfl rfl

/-- A busy engine turns a write away, or the register has nothing to do with the hold. -/
theorem writeReg_keepsHold {s : State} {r : HostReg} (hb : s.busy = true) (hr : r ≠ .descPop) (v : Word) :
    KeepsHold s (s.writeReg r v) := by
  cases r with
  | cfg | bufLen | cmd | gpr => rw [writeReg_of_busy rfl hb]; exact .of_eq rfl rfl rfl rfl
  | descPop => exact absurd rfl hr
  | _ => exact .of_eq rfl rfl rfl rfl

theorem writeBuffer_keepsHold {s : State} (hb : s.busy = true) (off width : Nat) (v : Word) :
    KeepsHold s (s.writeBuffer off width v) := by
  rw [State.writeBuffer, whenIdle_busy hb]
  exact .of_eq rfl rfl rfl rfl

/-- Only a write that `Event.endsHold` names reaches DESC_POP (10_state R50, 20_memory R81). -/
theorem endsHold_of_target_descPop {p : Params} {width : Nat} {addr : BitVec 25}
    (h : Params.target p width addr = .register .descPop) (v : Word) :
    Event.endsHold (.host (.write width addr v)) = true := by
  obtain ⟨-, rfl, -, hreg⟩ := target_register h
  have haddr : addr = 0x0D8 := BitVec.eq_of_toNat_eq (hostRegAt_descPop hreg.symm)
  simp [Event.endsHold, haddr]

theorem hostAccess_keepsHold {s : State} {a : Access} (hb : s.busy = true)
    (ha : Event.endsHold (.host a) = false) : KeepsHold s (s.hostAccess a) := by
  cases a with
  | read width addr =>
    rw [State.hostAccess]
    cases Params.target s.params width addr with
    | register r => exact readReg_keepsHold s r
    | aperture off | bad => exact .of_eq rfl rfl rfl rfl
  | write width addr v =>
    rw [State.hostAccess]
    cases htarget : Params.target s.params width addr with
    | register r =>
      have hr : r ≠ .descPop := by
        rintro rfl
        exact absurd ha (by simp [endsHold_of_target_descPop htarget v])
      exact (writeReg_keepsHold hb hr v).trans (.of_eq rfl rfl rfl rfl)
    | aperture off => exact (writeBuffer_keepsHold hb off width v).trans (.of_eq rfl rfl rfl rfl)
    | bad => exact .of_eq rfl rfl rfl rfl

/-! ### Steps of a stalled machine -/

theorem step_nil_of_stall {s : State} (h : s.stall = true) (hag : s.agenda = []) : step s = .next s := by
  rw [step, hag]
  exact engineStep_of_stall h

theorem step_engine_of_stall {s : State} {rest : List Event} (h : s.stall = true)
    (hag : s.agenda = .engine :: rest) : step s = .next { s with agenda := rest } := by
  rw [step, hag]
  exact engineStep_of_stall h

theorem step_enginePart_of_stall {s : State} {rest : List Event} (h : s.stall = true)
    (hag : s.agenda = .enginePart :: rest) : step s = .next { s with agenda := rest } := by
  rw [step, hag]
  exact enginePart_of_stall h

theorem tail_keepsHold {s : State} {e : Event} {rest : List Event} (hag : s.agenda = e :: rest) :
    KeepsHold s { s with agenda := rest } :=
  ⟨rfl, rfl, rfl, fun _ he _ => hag ▸ List.mem_cons_of_mem e he⟩

/-- While BUSY reads 1 the host's `wait` comes back behind a turn of the engine (30_encoding R123). -/
theorem step_wait_of_stall {s : State} {rest : List Event} (h : s.stall = true)
    (hag : s.agenda = .wait :: rest) :
    ∃ t, step s = .next t ∧ KeepsHold s t ∧ t.agenda = .engine :: .wait :: rest := by
  have hread := readReg_keepsHold { s with agenda := rest } .status
  have hbusy : State.busy { s with agenda := rest } = true := busy_of_stall h
  refine ⟨_, by rw [step, hag], ?_⟩
  rw [State.poll, if_pos hbusy]
  refine ⟨⟨hread.params, hread.engine, hread.fifo, fun e he hends => ?_⟩, rfl⟩
  rw [hag]
  rcases List.mem_cons.1 he with rfl | he
  · cases hends
  · exact he

/-- A stalled machine takes every step, and no step but a pop and a reset moves the hold. -/
theorem step_keepsHold {s : State} (h : s.stall = true)
    (hhead : ∀ e ∈ s.agenda.head?, e.endsHold = false) : ∃ t, step s = .next t ∧ KeepsHold s t := by
  cases hag : s.agenda with
  | nil => exact ⟨s, step_nil_of_stall h hag, .refl s⟩
  | cons e rest =>
    have he : e.endsHold = false := hhead e (by rw [hag]; rfl)
    have htail : KeepsHold s { s with agenda := rest } := tail_keepsHold hag
    cases e with
    | engine => exact ⟨_, step_engine_of_stall h hag, htail⟩
    | enginePart => exact ⟨_, step_enginePart_of_stall h hag, htail⟩
    | wait =>
      obtain ⟨t, ht, hkeeps, -⟩ := step_wait_of_stall h hag
      exact ⟨t, ht, hkeeps⟩
    | host a =>
      refine ⟨State.hostAccess a { s with agenda := rest }, by rw [step, hag], ?_⟩
      exact htail.trans (hostAccess_keepsHold (busy_of_stall (htail.stall h)) he)
    | reset => cases he

/-! ### Runs -/

theorem run_succ_of_step {s t : State} (h : step s = .next t) (n : Nat) :
    Host.Core.run Sys2Proof.core (n + 1) s = Host.Core.run Sys2Proof.core n t := by
  have hcore : Sys2Proof.core.step s = .next t := h
  simp only [Host.Core.run, hcore]

/-- What holds at the start, and of the next state of every step, holds after any number of steps. -/
theorem run_of_step {P : State → Prop} (hstep : ∀ s, P s → ∃ t, step s = .next t ∧ P t) {s : State}
    (hs : P s) (n : Nat) : ∃ t, Host.Core.run Sys2Proof.core n s = .next t ∧ P t := by
  induction n generalizing s with
  | zero => exact ⟨s, rfl, hs⟩
  | succ n ih =>
    obtain ⟨u, hu, hPu⟩ := hstep s hs
    obtain ⟨t, ht, hPt⟩ := ih hPu
    exact ⟨t, (run_succ_of_step hu n).trans ht, hPt⟩

theorem run_keepsHold {s : State} (h : s.stall = true) (hag : ∀ e ∈ s.agenda, e.endsHold = false)
    (n : Nat) : ∃ t, Host.Core.run Sys2Proof.core n s = .next t ∧ KeepsHold s t := by
  refine run_of_step (P := KeepsHold s) (fun u hu => ?_) (.refl s) n
  have hquiet : ∀ e ∈ u.agenda.head?, e.endsHold = false := fun e he => by
    by_contra hends
    rw [Bool.not_eq_false] at hends
    exact absurd (hag e (hu.agenda e (List.mem_of_mem_head? he) hends)) (by simp [hends])
  obtain ⟨t, ht, hkeeps⟩ := step_keepsHold (hu.stall h) hquiet
  exact ⟨t, ht, hu.trans hkeeps⟩

/-- The host does nothing but wait: it polls STATUS next, or once the engine has had its turn. -/
def State.OnlyWaits (s : State) : Prop := s.agenda = [.wait] ∨ s.agenda = [.engine, .wait]

theorem step_onlyWaits {s : State} (h : s.stall = true) (hw : s.OnlyWaits) :
    ∃ t, step s = .next t ∧ KeepsHold s t ∧ t.OnlyWaits := by
  rcases hw with hag | hag
  · obtain ⟨t, ht, hkeeps, hag'⟩ := step_wait_of_stall h hag
    exact ⟨t, ht, hkeeps, .inr hag'⟩
  · exact ⟨_, step_engine_of_stall h hag, tail_keepsHold hag, .inl rfl⟩

theorem run_onlyWaits {s : State} (h : s.stall = true) (hw : s.OnlyWaits) (n : Nat) :
    ∃ t, Host.Core.run Sys2Proof.core n s = .next t ∧ KeepsHold s t ∧ t.OnlyWaits := by
  refine run_of_step (P := fun u => KeepsHold s u ∧ u.OnlyWaits) (fun u hu => ?_) ⟨.refl s, hw⟩ n
  obtain ⟨hkept, hwaits⟩ := hu
  obtain ⟨t, ht, hkeeps, hwaits'⟩ := step_onlyWaits (hkept.stall h) hwaits
  exact ⟨t, ht, hkept.trans hkeeps, hwaits'⟩

theorem State.OnlyWaits.agenda_ne_nil {s : State} (h : s.OnlyWaits) : s.agenda ≠ [] := by
  rcases h with hag | hag <;> simp [hag]

/-- Settles O38: one step keeps the hold (`step_keepsHold`), and so does any number of them
(`run_keepsHold`); a `wait` and the engine's turn behind it follow each other for ever (`run_onlyWaits`). -/
theorem unpoppedHoldIsStuck : Obligations.UnpoppedHoldIsStuck := by
  unfold Obligations.UnpoppedHoldIsStuck
  intro s h
  have hstuck : ∀ {t : State}, KeepsHold s t → t.stall = true ∧ t.busy = true := fun hk =>
    ⟨hk.stall h, busy_of_stall (hk.stall h)⟩
  refine ⟨fun hhead => ?_, fun hag n => ?_, step_nil_of_stall h, fun hag n => ?_⟩
  · obtain ⟨t, ht, hk⟩ := step_keepsHold h hhead
    exact ⟨t, ht, (hstuck hk).1, (hstuck hk).2, hk.fifo, hk.engine⟩
  · obtain ⟨t, ht, hk⟩ := run_keepsHold h hag n
    exact ⟨t, ht, (hstuck hk).1, (hstuck hk).2, hk.fifo, hk.engine⟩
  · obtain ⟨t, ht, hk, hw⟩ := run_onlyWaits h (.inl hag) n
    exact ⟨t, ht, (hstuck hk).1, (hstuck hk).2, hk.fifo, hw.agenda_ne_nil⟩

end Sys2Proof.Machine
end

section
/-! PROOFS. Which commands run right after reset (70_reset_and_hazards R301). -/

namespace Sys2Proof.Machine

open Sys2Proof

theorem needsCfgOk_iff (i : Instr) :
    needsCfgOk i = true ↔ i ∉ [.nop, .init, .tclr] ∧ (∀ rd rs1, i ≠ .gear rd rs1) ∧
      ∀ rd rs1 rs2, i ≠ .hadv rd rs1 rs2 := by
  cases i with
  | nop | init | tclr | gear | hadv => simp [needsCfgOk]
  | scan | step | btest | tins | tlkp | vfwd | xbwd | matchEmit => simp [needsCfgOk]

/-- CFG is 0 at reset, and HLOG = 0 is below HLOG_MIN (44_scan_control R232). -/
theorem configError_reset : State.reset.configError = some .hlogRange := by decide

theorem exec_init_reset : exec .init State.reset = .next (State.reset.failInit .hlogRange) := by
  rw [exec, execInit, configError_reset]

/-- NOP, TCLR, GEAR and HADV complete at reset without an error. -/
theorem exec_reset_noError {i : Instr} (hi : needsCfgOk i = false) (hinit : i ≠ .init) :
    ∃ t, exec i State.reset = .next t ∧ t.errCode = 0 ∧ t.err = false := by
  cases i with
  | nop | tclr | gear | hadv => exact ⟨_, rfl, rfl, rfl⟩
  | init => exact absurd rfl hinit
  | scan | step | btest | tins | tlkp | vfwd | xbwd | matchEmit => cases hi

/-- At reset the commands that need CFG_OK are turned away, INIT fails, and no other command records a code. -/
theorem exec_reset (i : Instr) : ∃ t, exec i State.reset = .next t ∧
    (t.errCode = 2 ↔ needsCfgOk i = true) ∧ (t.errCode = 3 ↔ i = .init) ∧
    (t.err = true ↔ t.errCode ≠ 0) := by
  by_cases hinit : i = .init
  · subst hinit
    exact ⟨_, exec_init_reset, by decide, by decide, by decide⟩
  · cases hi : needsCfgOk i with
    | true => exact ⟨_, exec_of_not_cfgOk hi rfl, by simp [CmdError.code, hinit]⟩
    | false =>
      obtain ⟨t, ht, hcode, herr⟩ := exec_reset_noError hi hinit
      exact ⟨t, ht, by simp [hcode, herr, hinit]⟩

/-- Settles O55: `exec_reset`, with the eight commands that need CFG_OK named by `needsCfgOk_iff`. -/
theorem afterResetFiveCommandsRun : Obligations.AfterResetFiveCommandsRun := by
  unfold Obligations.AfterResetFiveCommandsRun
  refine ⟨rfl, fun i => ?_⟩
  rw [← needsCfgOk_iff]
  exact exec_reset i

end Sys2Proof.Machine
end

section
/-! PROOFS. Every command has one CMD value (30_encoding R111 to R113, R124), and the engine's turn runs the
command that an accepted value decodes to (R120). -/

namespace Sys2Proof.Machine

open Sys2Proof

/-- The fields of a command pass the decoder's checks and give back the command. -/
theorem exists_opcode_of_fields (i : Instr) : ∃ o, opcodeOf i.fields.op = some o ∧
    i.fields.unusedAreZero o.format = true ∧ i.fields.res = 0 ∧ o.withOperands i.fields = i := by
  cases i <;> exact ⟨_, rfl, rfl, rfl, rfl⟩

/-- Decoding undoes encoding. -/
theorem decodeCmd_encodeCmd (i : Instr) : decodeCmd (encodeCmd i) = .ok i := by
  have hfields : Fields.ofWord (encode i) = i.fields := Fields.ofWord_toWord _
  refine (decodeCmd_eq_ok_iff _ i).2 ⟨encodeCmd_high i, ?_⟩
  rw [encodeCmd_low, decodeWord_eq_ok_iff, hfields]
  exact exists_opcode_of_fields i

/-- Settles O1: no bit of a decoded value is dropped (`eq_encodeCmd_of_decodeCmd`), and decoding undoes
encoding (`decodeCmd_encodeCmd`). -/
theorem decodeInvertsEncode : Obligations.DecodeInvertsEncode := by
  unfold Obligations.DecodeInvertsEncode
  refine fun v i => ⟨eq_encodeCmd_of_decodeCmd, ?_⟩
  rintro rfl
  exact decodeCmd_encodeCmd i

/-- Settles O4: each word is the value that the encoder gives its command. -/
theorem specWordsDecode : Obligations.SpecWordsDecode := by
  unfold Obligations.SpecWordsDecode
  simp only [decodeInvertsEncode _ _]
  decide

theorem engineStep_of_accepted {s : State} {v : Word} {i : Instr} (hg : s.engine = .accepted v)
    (hd : decodeCmd v = .ok i) : s.engineStep = exec i s := by
  simp only [State.engineStep, hg, State.runCommand, hd]

/-- Settles O5: with either form of the agenda the step is the engine's turn. -/
theorem stepRunsDecodedCommand : Obligations.StepRunsDecodedCommand := by
  unfold Obligations.StepRunsDecodedCommand
  refine fun s v i hg hd => ⟨fun hag => ?_, fun rest hag => ?_⟩
  · rw [step, hag]
    exact engineStep_of_accepted hg hd
  · rw [step, hag]
    exact engineStep_of_accepted (s := { s with agenda := rest }) hg hd

end Sys2Proof.Machine
end

section
/-! PROOFS. What a command leaves alone, command by command through `Executed` (30_encoding R120, R121,
10_state R30, 42_match_table R185, 44_scan_control R244, 60_exceptions R262). -/

namespace Sys2Proof.Machine

open Sys2Proof

theorem scanToEnd_scanFrame (s : State) : ScanFrame s s.scanToEnd.state := scanLoop_scanFrame _ s

theorem scanToEnd_ran_scanFrame {s t : State} (h : s.scanToEnd = .ran t) : ScanFrame s t := by
  have := scanToEnd_scanFrame s
  rwa [h] at this

theorem scanToEnd_held_scanFrame {s t : State} {e : Emission} (h : s.scanToEnd = .held e t) :
    ScanFrame s t := by
  have := scanToEnd_scanFrame s
  rwa [h] at this

/-- A SCAN that holds has found its FIFO full (10_state R52). -/
theorem scanToEnd_held_full {s t : State} {e : Emission} (h : s.scanToEnd = .held e t) :
    t.fifoFull = true := (scanLoop_ends _ s (Nat.lt_succ_self _)).2 e t h

/-- A SCAN that runs through ends with EOB = 1 (44_scan_control R238). -/
theorem scanToEnd_ran_eob {s t : State} (h : s.scanToEnd = .ran t) : t.eob = true :=
  (scanLoop_ends _ s (Nat.lt_succ_self _)).1 t h

theorem stepBody_held_full {s t : State} {e : Emission} (h : s.stepBody = .held e t) :
    t.fifoFull = true := (stepBody_held_queues h).2.2.1

/-! ### Inputs -/

/-- `t` differs from `s` at most in what commands write: the general registers, the error record, DONE, the
job's state and the engine's own state. -/
def KeepsInputs (s t : State) : Prop :=
  t = { s with
    regs := t.regs, done := t.done, err := t.err, errCode := t.errCode, cfgOk := t.cfgOk, eob := t.eob
    engine := t.engine, hash := t.hash, pos := t.pos, cstart := t.cstart, prevEnd := t.prevEnd
    bcount := t.bcount, hcount := t.hcount, mcount := t.mcount, fifo := t.fifo, table := t.table }

theorem KeepsInputs.trans {s t u : State} (h : KeepsInputs s t) (g : KeepsInputs t u) :
    KeepsInputs s u := by
  unfold KeepsInputs at *
  rw [g, h]

theorem ScanFrame.keepsInputs {s t : State} (h : ScanFrame s t) : KeepsInputs s t := by
  unfold KeepsInputs
  rw [h]

theorem Executed.keepsInputs {s t : State} {i : Instr} (h : Executed s i t) : KeepsInputs s t := by
  cases h with
  | gated | nop | initFails | initStarts | tclr | tins | reg | matchPush | matchHold => rfl
  | @stepRan u _ _ _ hb => exact (stepBody_ran_scanFrame hb).keepsInputs.trans (u := u.complete) rfl
  | @stepHold u e _ _ _ hb =>
    exact (stepBody_held_scanFrame hb).keepsInputs.trans (u := u.hold e .stepJump) rfl
  | @scanRan u _ _ _ hb => exact (scanToEnd_ran_scanFrame hb).keepsInputs.trans (u := u.complete) rfl
  | @scanHold u e _ _ _ hb =>
    exact (scanToEnd_held_scanFrame hb).keepsInputs.trans (u := u.hold e .scanJump) rfl

/-- Settles O42: every way of `Executed` keeps the inputs. -/
theorem commandsKeepTheirInputs : Obligations.CommandsKeepTheirInputs := by
  unfold Obligations.CommandsKeepTheirInputs
  intro i s t hx
  have h : KeepsInputs s t := (exec_next hx).keepsInputs
  rw [h]
  exact ⟨fun _ => rfl, rfl, rfl, rfl, rfl, rfl, rfl, rfl, rfl, rfl, rfl, rfl, rfl, rfl, rfl⟩

/-! ### General registers -/

theorem reg_setReg_ne {r rd : Reg} (h : rd ≠ r) (v : Word) (s : State) :
    (s.setReg rd v).reg r = s.reg r :=
  Vector.getElem_set_ne rd.isLt r.isLt fun hval => h (Fin.ext hval)

theorem reg_congr {s t : State} (h : t.regs = s.regs) (r : Reg) : t.reg r = s.reg r := by
  rw [State.reg, State.reg, h]

theorem Executed.keepsReg {s t : State} {i : Instr} (h : Executed s i t) {r : Reg}
    (hr : destReg i ≠ some r) : t.reg r = s.reg r := by
  cases h with
  | gated | nop | initFails | initStarts | tclr | tins | matchHold => rfl
  | reg hi _ v => exact reg_setReg_ne (fun hrd => hr (hi.trans (congrArg some hrd))) v s
  | @matchPush rd _ _ e _ _ _ _ =>
    exact reg_setReg_ne (fun hrd => hr (congrArg some hrd)) e.desc.len (s.push e)
  | stepRan _ _ _ hb => exact reg_congr (stepBody_ran_scanFrame hb).regs r
  | stepHold _ _ _ hb => exact reg_congr (stepBody_held_scanFrame hb).regs r
  | scanRan _ _ _ hb => exact reg_congr (scanToEnd_ran_scanFrame hb).regs r
  | scanHold _ _ _ hb => exact reg_congr (scanToEnd_held_scanFrame hb).regs r

/-- Settles O43: only the register of `destReg` is ever set. -/
theorem commandsWriteOnlyRd : Obligations.CommandsWriteOnlyRd := by
  unfold Obligations.CommandsWriteOnlyRd
  exact fun i s t r hx hr => (exec_next hx).keepsReg hr

/-! ### Completion -/

/-- A command completes, or it stops in a hold on a full FIFO (30_encoding R121, 10_state R52). -/
theorem Executed.completes_or_stalls {s t : State} {i : Instr} (h : Executed s i t) :
    (t.engine = .idle ∧ t.done = true) ∨ (t.stall = true ∧ t.done = s.done) := by
  cases h with
  | gated | nop | initFails | initStarts | tclr | tins | reg | matchPush | stepRan | scanRan =>
    exact .inl ⟨rfl, rfl⟩
  | matchHold _ _ _ hf => exact .inr ⟨hf, rfl⟩
  | stepHold _ _ _ hb =>
    exact .inr ⟨(stall_hold _ _ _).trans (stepBody_held_full hb), (stepBody_held_scanFrame hb).done⟩
  | scanHold _ _ _ hb =>
    exact .inr ⟨(stall_hold _ _ _).trans (scanToEnd_held_full hb), (scanToEnd_held_scanFrame hb).done⟩

/-- Settles O44: `Executed.completes_or_stalls` says how each way ends. -/
theorem commandsCompleteOrHold : Obligations.CommandsCompleteOrHold := by
  unfold Obligations.CommandsCompleteOrHold
  exact fun i s t hx => (exec_next hx).completes_or_stalls

/-! ### Errors -/

theorem ScanFrame.err {s t : State} (h : ScanFrame s t) : t.err = s.err := by rw [h]

/-- The codes of the command errors (60_exceptions R261). -/
theorem code_bounds (c : CmdError) : 1 ≤ c.code.toNat ∧ c.code.toNat ≤ 8 := by
  cases c <;> decide

/-- Only two ways of `Executed` record an error: the check of CFG_OK and INIT's checks. -/
theorem Executed.error_cases {s t : State} {i : Instr} (h : Executed s i t) (hs : s.err = false)
    (ht : t.err = true) :
    (needsCfgOk i = true ∧ t = s.raise .cfgNotValid) ∨ (i = .init ∧ ∃ c, t = s.failInit c) := by
  have quiet {u : State} (hu : u.err = s.err) : u.err ≠ true := by simp [hu, hs]
  cases h with
  | gated hi => exact .inl ⟨hi, rfl⟩
  | initFails => exact .inr ⟨rfl, _, rfl⟩
  | nop | initStarts | tclr | tins | reg | matchPush | matchHold => exact absurd ht (quiet rfl)
  | stepRan _ _ _ hb => exact absurd ht (quiet (stepBody_ran_scanFrame hb).err)
  | stepHold _ _ _ hb => exact absurd ht (quiet (stepBody_held_scanFrame hb).err)
  | scanRan _ _ _ hb => exact absurd ht (quiet (scanToEnd_ran_scanFrame hb).err)
  | scanHold _ _ _ hb => exact absurd ht (quiet (scanToEnd_held_scanFrame hb).err)

/-- Settles O40: `Executed.error_cases` leaves two end states, both made from the one before. -/
theorem errorsArePrecise : Obligations.ErrorsArePrecise := by
  unfold Obligations.ErrorsArePrecise
  intro i s t hs hx ht
  rcases (exec_next hx).error_cases hs ht with ⟨hi, rfl⟩ | ⟨rfl, c, rfl⟩
  · obtain ⟨hlo, hhi⟩ := code_bounds .cfgNotValid
    exact ⟨rfl, hlo, hhi, fun _ => rfl, fun h => absurd (h ▸ hi) nofun⟩
  · obtain ⟨hlo, hhi⟩ := code_bounds c
    exact ⟨rfl, hlo, hhi, fun h => absurd rfl h, fun _ => rfl⟩

/-! ### Primitive commands -/

/-- Settles O35: without INIT, STEP and SCAN only `tclr`, `tins` and a push of MATCH touch the job. -/
theorem primitivesKeepScanState : Obligations.PrimitivesKeepScanState := by
  unfold Obligations.PrimitivesKeepScanState
  intro i s t hinit hstep hscan hx
  cases exec_next hx with
  | gated | nop | reg | matchHold =>
    exact ⟨rfl, rfl, rfl, rfl, rfl, rfl, rfl, fun _ => ⟨rfl, rfl, rfl⟩, fun _ _ => rfl⟩
  | tclr =>
    exact ⟨rfl, rfl, rfl, rfl, rfl, rfl, rfl, fun _ => ⟨rfl, rfl, rfl⟩, fun _ h => absurd rfl h⟩
  | tins =>
    exact ⟨rfl, rfl, rfl, rfl, rfl, rfl, rfl, fun _ => ⟨rfl, rfl, rfl⟩, fun h => absurd rfl (h _ _)⟩
  | matchPush =>
    exact ⟨rfl, rfl, rfl, rfl, rfl, rfl, rfl, fun h => absurd rfl (h _ _ _), fun _ _ => rfl⟩
  | initFails | initStarts => exact absurd rfl hinit
  | stepRan | stepHold => exact absurd rfl hstep
  | scanRan | scanHold => exact absurd rfl hscan

/-! ### Filled buckets -/

/-- Every bucket that is filled in `s` is filled in `t`. -/
def KeepsFilled (s t : State) : Prop := ∀ k, s.tableRead k ≠ none → t.tableRead k ≠ none

theorem KeepsFilled.of_table_eq {s t : State} (h : t.table = s.table) : KeepsFilled s t := by
  intro k hk
  rwa [State.tableRead, h]

theorem KeepsFilled.trans {s t u : State} (h : KeepsFilled s t) (g : KeepsFilled t u) :
    KeepsFilled s u := fun k hk => g k (h k hk)

/-- A write fills its bucket and leaves the others alone (42_match_table R180). -/
theorem KeepsFilled.of_write {s t : State} {k : Nat} {off : BitVec 32}
    (h : t.table = sparseSet k off s.table) : KeepsFilled s t := by
  intro j hj
  rw [State.tableRead, h, sparseGet_set]
  split
  · simp
  · exact hj

theorem afterBoundary_keepsFilled (s : State) (hit : Bool) : KeepsFilled s (s.afterBoundary hit) :=
  .of_write (k := s.hashByte.key s.hashByte.hash) (off := BitVec.ofNat 32 s.hashByte.pos.toNat)
    (by cases hit <;> rfl)

theorem stepBody_keepsFilled (s : State) : KeepsFilled s s.stepBody.state := by
  rcases stepBody_cases s with ⟨-, h⟩ | ⟨-, -, h⟩ | ⟨-, -, -, h⟩ | ⟨-, -, -, hit, h⟩ |
    ⟨-, -, -, c, e, -, ⟨-, h⟩ | ⟨-, h⟩⟩ <;> rw [h]
  · exact .of_table_eq rfl
  · exact .of_table_eq rfl
  · exact .of_table_eq rfl
  · exact (afterBoundary_keepsFilled s hit).trans (.of_table_eq rfl)
  · exact (afterBoundary_keepsFilled s true).trans (.of_table_eq rfl)
  · exact afterBoundary_keepsFilled s true

theorem scanToEnd_keepsFilled (s : State) : KeepsFilled s s.scanToEnd.state := by
  have hbody {v : State} {r : BodyEnd} (hv : KeepsFilled s v) (hb : v.stepBody = r) :
      KeepsFilled s r.state := hb ▸ hv.trans (stepBody_keepsFilled v)
  obtain ⟨hran, hheld⟩ := scanLoop_induction (P := KeepsFilled s) (Q := fun _ => KeepsFilled s)
    (fun _ _ hv _ hb => hbody hv hb) (fun _ _ _ hv _ hb => hbody hv hb)
    (s.bufN - s.pos.toNat + 1) s (.of_table_eq rfl)
  cases hend : s.scanToEnd with
  | ran u => exact hran u hend
  | held e u => exact hheld e u hend

/-- Settles O17: the table is only written, except by TCLR and INIT, which clear it. -/
theorem filledBucketsStayFilled : Obligations.FilledBucketsStayFilled := by
  unfold Obligations.FilledBucketsStayFilled
  intro i s t k htclr hinit hx
  have hbody := stepBody_keepsFilled s
  have hscan := scanToEnd_keepsFilled s
  have keeps : KeepsFilled s t := by
    cases exec_next hx with
    | gated | nop | reg | matchPush | matchHold => exact .of_table_eq rfl
    | tclr => exact absurd rfl htclr
    | initFails | initStarts => exact absurd rfl hinit
    | tins => exact .of_write rfl
    | stepRan _ _ _ hb => rw [hb] at hbody; exact hbody.trans (.of_table_eq rfl)
    | stepHold _ _ _ hb => rw [hb] at hbody; exact hbody.trans (.of_table_eq rfl)
    | scanRan _ _ _ hb => rw [hb] at hscan; exact hscan.trans (.of_table_eq rfl)
    | scanHold _ _ _ hb => rw [hb] at hscan; exact hscan.trans (.of_table_eq rfl)
  exact keeps k

end Sys2Proof.Machine
end

section
/-! PROOFS. Cutting the engine's turn where the host may look changes no result (20_memory R92, R94): the rest
of a cut turn leads where the whole turn leads, and a part pushes at most one descriptor. -/

namespace Sys2Proof.Machine

open Sys2Proof

/-! ### What a part can push -/

/-- A STEP_BODY that runs pushes one descriptor at most (44_scan_control R236). -/
theorem stepBody_ran_fifo {s t : State} (hb : s.stepBody = .ran t) :
    t.fifo = s.fifo ∨ ∃ d, t.fifo = s.fifo ++ [d] := by
  obtain ⟨q, hq, hfifo, -⟩ := (stepBody_withFifo (queue := []) [] s Nat.one_pos).1 t hb
  match q, hq with
  | [], _ => exact .inl (by rw [hfifo, List.append_nil])
  | [d], _ => exact .inr ⟨d, hfifo⟩

theorem stepBody_held_fifo {s t : State} {e : Emission} (hb : s.stepBody = .held e t) :
    t.fifo = s.fifo := (stepBody_held_queues hb).2.1

/-- What `t` has queued since `s` is nothing, or one descriptor of a command that is complete. -/
def QueuesOne (s t : State) : Prop :=
  t.fifo = s.fifo ∨ (t.engine = .idle ∧ t.err = s.err ∧ ∃ d, t.fifo = s.fifo ++ [d])

/-- Every command but INIT, which empties the FIFO, and SCAN queues one descriptor at most. -/
theorem Executed.queuesOne {s t : State} {i : Instr} (h : Executed s i t) (hinit : i ≠ .init)
    (hscan : i ≠ .scan) : QueuesOne s t := by
  cases h with
  | initFails | initStarts => exact absurd rfl hinit
  | scanRan | scanHold => exact absurd rfl hscan
  | gated | nop | tclr | tins | reg | matchHold => exact .inl rfl
  | matchPush => exact .inr ⟨rfl, rfl, _, rfl⟩
  | stepRan _ _ _ hb =>
    exact (stepBody_ran_fifo hb).imp_right fun hd => ⟨rfl, (stepBody_ran_scanFrame hb).err, hd⟩
  | stepHold _ _ _ hb => exact .inl (stepBody_held_fifo hb :)

/-! ### Cuts -/

/-- `t` is a place in the turn of the engine from `s` where the host may look (log entry 12). -/
structure CutsTurn (s t : State) : Prop where
  rest : t.engineStep = s.engineStep
  shown : s.engine ≠ .accepted (encodeCmd .init) → t.fifo ≠ s.fifo →
    t.busy = true ∧ ∃ d, t.fifo = s.fifo ++ [d]

theorem CutsTurn.refl (s : State) : CutsTurn s s := ⟨rfl, fun _ h => absurd rfl h⟩

theorem CutsTurn.quiet {s t : State} (hrest : t.engineStep = s.engineStep) (hfifo : t.fifo = s.fifo) :
    CutsTurn s t := ⟨hrest, fun _ h => absurd hfifo h⟩

/-- The turn of an engine whose SCAN is under way (44_scan_control R238). -/
theorem engineStep_of_scanning {s : State} (h : s.engine = .scanning) :
    s.engineStep = s.needBuffer (s.needTable (.next s.runScan)) := by
  rw [State.engineStep, h]

theorem runScan_of_stepBody_ran {s t : State} (hb : s.stepBody = .ran t) : s.runScan = t.runScan := by
  cases he : s.eob with
  | true =>
    cases (stepBody_of_eob he).symm.trans hb
    rfl
  | false => exact runScan_congr (scanToEnd_step he hb)

theorem runScan_of_stepBody_held {s t : State} {e : Emission} (hb : s.stepBody = .held e t) :
    s.runScan = t.hold e .scanJump :=
  runScan_of_held (scanToEnd_of_held (stepBody_held_queues hb).1 hb)

/-- One STEP_BODY of a SCAN, and then the rest of it (44_scan_control R238). -/
theorem scanPart_cutsTurn {s t : State}
    (hturn : s.engineStep = s.needBuffer (s.needTable (.next s.runScan))) (h : s.scanPart = .next t) :
    CutsTurn s t := by
  obtain ⟨hbuf, h⟩ := needBuffer_next h
  obtain ⟨htab, h⟩ := needTable_next h
  rw [needBuffer_of hbuf, needTable_of htab] at hturn
  split at h
  next u hb =>
    cases h
    have hframe := stepBody_ran_scanFrame hb
    refine ⟨?_, fun _ hne => ⟨rfl, (stepBody_ran_fifo hb).resolve_left hne⟩⟩
    have hbuf' : u.bufN ≤ u.params.bufCap := by rwa [← hframe.sameInput.bufN, hframe.params]
    have htab' : u.hlog ≤ u.params.hlogMax := by rwa [← hframe.sameInput.hlog, hframe.params]
    calc (u.withEngine .scanning).engineStep
        = .next (u.withEngine .scanning).runScan := by
          rw [engineStep_of_scanning rfl, needBuffer_of (s := u.withEngine .scanning) hbuf',
            needTable_of (s := u.withEngine .scanning) htab']
      _ = s.engineStep := by rw [runScan_withEngine, hturn, runScan_of_stepBody_ran hb]
  next e u hb =>
    cases h
    refine .quiet ?_ (stepBody_held_fifo hb :)
    rw [hturn, runScan_of_stepBody_held hb]
    exact engineStep_of_stall ((stall_hold _ _ _).trans (stepBody_held_full hb))

/-- A command up to just before its completion, and then the completion (30_encoding R121). -/
theorem beforeCompletion_cutsTurn {s t : State} {r : Result} (hturn : s.engineStep = r)
    (hends : ∀ u, r = .next u → (u.engine = .idle ∧ u.done = true) ∨ u.stall = true)
    (hfifo : s.engine ≠ .accepted (encodeCmd .init) → ∀ u, r = .next u → QueuesOne s u)
    (h : s.beforeCompletion r = .next t) : CutsTurn s t := by
  cases r with
  | fault | refused => cases h
  | next u =>
    have hone := fun hinit => hfifo hinit u rfl
    rw [State.beforeCompletion] at h
    split at h
    next hstop =>
      cases h
      refine ⟨?_, fun hinit hne => ?_⟩
      · rw [hturn]
        rcases hends _ rfl with ⟨hidle, -⟩ | hstall
        · exact engineStep_of_idle hidle
        · exact engineStep_of_stall hstall
      · obtain ⟨hidle, herr, -⟩ := (hone hinit).resolve_left hne
        simp [(busy_eq_false _).2 hidle, herr] at hstop
    next hgo =>
      cases h
      refine ⟨?_, fun hinit hne => ⟨rfl, ((hone hinit).resolve_left hne).2.2⟩⟩
      have hbusy : u.busy = false := by
        cases hb : u.busy with
        | true => simp [hb] at hgo
        | false => rfl
      rcases hends _ rfl with ⟨hidle, hdone⟩ | hstall
      · rw [hturn]
        have hsame : u.complete = u := by rw [State.complete, ← hidle, ← hdone]
        exact congrArg Host.Outcome.next hsame
      · rw [busy_of_stall hstall] at hbusy
        cases hbusy

theorem runCommand_ends {s t : State} {v : Word} (h : s.runCommand v = .next t) :
    (t.engine = .idle ∧ t.done = true) ∨ t.stall = true := by
  rw [State.runCommand] at h
  split at h
  next => cases h; exact .inl ⟨rfl, rfl⟩
  next => exact (exec_next h).completes_or_stalls.imp_right And.left

theorem runCommand_queuesOne {s t : State} {v : Word} (hinit : v ≠ encodeCmd .init)
    (hscan : decodeCmd v ≠ .ok .scan) (h : s.runCommand v = .next t) : QueuesOne s t := by
  rw [State.runCommand] at h
  split at h
  next => cases h; exact .inl rfl
  next i hd =>
    refine (exec_next h).queuesOne ?_ ?_ <;> rintro rfl
    · exact hinit (eq_encodeCmd_of_decodeCmd hd)
    · exact hscan hd

/-- A held MATCH or STEP, up to just before its completion (10_state R52). -/
theorem resume_cutsTurn {s t : State} {e : Emission} {k : Continuation} (hk : k ≠ .scanJump)
    (hturn : s.engineStep = s.resume e k) (h : s.beforeCompletion (s.resume e k) = .next t) :
    CutsTurn s t := by
  refine beforeCompletion_cutsTurn hturn ?_ ?_ h
  · intro u hu
    cases k with
    | matchResult | stepJump => cases hu; exact .inl ⟨rfl, rfl⟩
    | scanJump => exact absurd rfl hk
  · intro _ u hu
    cases k with
    | matchResult | stepJump => cases hu; exact .inr ⟨rfl, rfl, _, rfl⟩
    | scanJump => exact absurd rfl hk

/-- A held SCAN that has jumped goes on as the held one does (44_scan_control R238). -/
theorem engineStep_after_jump (s : State) (e : Emission) :
    ((s.finishJump e).withEngine .scanning).engineStep = s.resume e .scanJump := by
  rw [engineStep_of_scanning rfl, runScan_withEngine]
  rfl

theorem enginePart_cutsTurn {s t : State} (h : s.enginePart = .next t) : CutsTurn s t := by
  rw [State.enginePart] at h
  split at h
  next => cases h; exact .refl s
  next v hg =>
    split at h
    next hd =>
      have hturn := engineStep_of_accepted hg hd
      rcases needCfg_next h with ⟨hc, h⟩ | ⟨hc, rfl⟩
      · exact scanPart_cutsTurn (hturn.trans (needCfg_of hc _)) h
      · refine .quiet ?_ rfl
        rw [hturn, exec_of_not_cfgOk rfl hc]
        exact engineStep_of_idle (s := s.raise .cfgNotValid) rfl
    next hd =>
      exact beforeCompletion_cutsTurn (by rw [State.engineStep, hg])
        (fun u => runCommand_ends)
        (fun hinit u => runCommand_queuesOne (fun hv => hinit (hv ▸ hg)) hd) h
  next hg => exact scanPart_cutsTurn (engineStep_of_scanning hg) h
  next hg =>
    cases h
    refine .quiet ?_ rfl
    rw [engineStep_of_idle (s := s.complete) rfl, State.engineStep, hg]
  next e k hg =>
    split at h
    next => cases h; exact .refl s
    next hroom =>
      have hturn := engineStep_of_room hg (by simpa using hroom)
      split at h
      next =>
        cases h
        exact ⟨(engineStep_after_jump s e).trans hturn.symm, fun _ _ => ⟨rfl, _, finishJump_fifo s e⟩⟩
      next hk => exact resume_cutsTurn (fun heq => hk heq) hturn h

/-- Settles O37: each place where a turn is cut is one of `enginePart_cutsTurn`. -/
theorem partsOfATurnChangeNoResult : Obligations.PartsOfATurnChangeNoResult := by
  unfold Obligations.PartsOfATurnChangeNoResult
  intro s t _ h
  exact ⟨(enginePart_cutsTurn h).rest, (enginePart_cutsTurn h).shown⟩

end Sys2Proof.Machine
end

section
/-! PROOFS. The machine's invariant: every step keeps it, and under it no step stops (10_state R35 to R56,
42_match_table R189, 43_match_emitter R206, 44_scan_control R232). The part of the invariant that does not look
at the engine's own state (`State.Sound`) is kept by every operation that commands are made of; what the engine
may be in the middle of is put back at the end of its turn. -/

namespace Sys2Proof.Machine

open Sys2Proof

/-! ### INIT's checks -/

/-- The configuration passes INIT's checks (44_scan_control R232). -/
structure State.ConfigLegal (s : State) : Prop where
  hlogMin : s.params.hlogMin ≤ s.hlog
  hlogMax : s.hlog ≤ s.params.hlogMax
  wlogMin : s.params.wlogMin ≤ s.wlog
  wlogMax : s.wlog ≤ s.params.wlogMax
  minm : s.minm ≠ 0
  window : 2 ^ s.wlog ≤ s.bufN
  bufLen : s.bufN ≤ s.params.bufCap
  rate : s.hrl ≤ Config.hrlMax

theorem configError_eq_none_iff (s : State) : s.configError = none ↔ s.ConfigLegal := by
  constructor
  · intro h
    unfold State.configError at h
    split_ifs at h with h1 h2 h3 h4 h5 h6
    exact ⟨by omega, by omega, by omega, by omega, h3, by omega, by omega, by omega⟩
  · rintro ⟨h1, h2, h3, h4, h5, h6, h7, h8⟩
    unfold State.configError
    rw [if_neg (by omega), if_neg (by omega), if_neg h5, if_neg (by omega), if_neg (by omega),
      if_neg (by omega)]

/-! ### The invariant without the engine's own state -/

/-- `JobOk` but for its clause about the engine. -/
structure JobSound (s : State) : Prop where
  legal : s.ConfigLegal
  cstart : s.cstart.toNat ≤ s.pos.toNat
  pos : s.pos.toNat ≤ s.bufN
  prevEnd : s.prevEnd.toNat ≤ s.bufN
  ended : s.eob = true → s.pos.toNat = s.bufN
  table : Table.wf (2 ^ s.hlog) s.table = true
  shaped : ∀ d ∈ s.fifo, d.Shaped s
  before : ∀ d ∈ s.fifo, d.stop ≤ s.prevEnd.toNat
  rising : DestinationsRise s.fifo

/-- `State.Inv` but for its clauses about the engine. -/
structure State.Sound (s : State) : Prop where
  params : s.params.wf = true
  cfgReserved : s.cfg &&& cfgMask = s.cfg
  noError : s.err = false → s.errCode = 0
  someError : s.err = true → 1 ≤ s.errCode.toNat ∧ s.errCode.toNat ≤ 8
  fifo : s.fifo.length ≤ s.params.fifoDepth
  buffer : Memory.wf s.params.bufCap s.buffer = true
  table : Table.wf s.params.tableSize s.table = true
  job : s.cfgOk = true → JobSound s

/-- EOB reads 1 where POS is N (10_state R53), which a held STEP or SCAN has not seen to yet. -/
def State.Closed (s : State) : Prop := s.cfgOk = true → s.pos.toNat = s.bufN → s.eob = true

theorem State.Inv.sound {s : State} (h : s.Inv) : s.Sound where
  params := h.params
  cfgReserved := h.cfgReserved
  noError := h.noError
  someError := h.someError
  fifo := h.fifo
  buffer := h.buffer
  table := h.table
  job hc :=
    let j := h.job hc
    ⟨(configError_eq_none_iff s).1 j.legal, j.cstart, j.pos, j.prevEnd, j.ended, j.table, j.shaped,
      j.before, j.rising⟩

theorem State.Inv.closed {s : State} (h : s.Inv)
    (hg : ∀ e k, s.engine = .held e k → ∃ rd, k = .matchResult rd) : s.Closed :=
  fun hc => (h.job hc).closed hg

theorem State.Inv.closed_of_not_held {s : State} (h : s.Inv) (hg : ∀ e k, s.engine ≠ .held e k) :
    s.Closed := h.closed fun e k he => absurd he (hg e k)

theorem State.Sound.inv {s : State} (h : s.Sound)
    (hclosed : (∀ e k, s.engine = .held e k → ∃ rd, k = .matchResult rd) → s.Closed)
    (hheld : ∀ e k, s.engine = .held e k → HeldOk s e k)
    (hscan : s.engine = .scanning → s.cfgOk = true) : s.Inv where
  params := h.params
  cfgReserved := h.cfgReserved
  noError := h.noError
  someError := h.someError
  fifo := h.fifo
  buffer := h.buffer
  table := h.table
  job hc :=
    let j := h.job hc
    ⟨(configError_eq_none_iff s).2 j.legal, j.cstart, j.pos, j.prevEnd, j.ended,
      fun hg => hclosed hg hc, j.table, j.shaped, j.before, j.rising⟩
  held := hheld
  scanning := hscan

/-- An engine that holds nothing and is in no SCAN. -/
theorem State.Sound.inv_of_quiet {s : State} (h : s.Sound) (hclosed : s.Closed)
    (hheld : ∀ e k, s.engine ≠ .held e k) (hscan : s.engine ≠ .scanning) : s.Inv :=
  h.inv (fun _ => hclosed) (fun e k he => absurd he (hheld e k)) fun he => absurd he hscan

/-- A configuration that INIT has accepted keeps every read inside the memories (20_memory R82, 42_match_table
R180). -/
theorem State.Sound.inside {s : State} (h : s.Sound) (hc : s.cfgOk = true) :
    s.bufN ≤ s.params.bufCap ∧ s.hlog ≤ s.params.hlogMax :=
  ⟨(h.job hc).legal.bufLen, (h.job hc).legal.hlogMax⟩

/-! ### Single writes -/

theorem State.ConfigLegal.congr {s t : State} (h : s.ConfigLegal) (hparams : t.params = s.params)
    (hcfg : t.cfg = s.cfg) (hlen : t.bufLen = s.bufLen) : t.ConfigLegal := by
  obtain ⟨h1, h2, h3, h4, h5, h6, h7, h8⟩ := h
  simp only [State.hlog, State.wlog, State.minm, State.hrl, State.bufN, ← hcfg, ← hlen,
    ← hparams] at h1 h2 h3 h4 h5 h6 h7 h8
  exact ⟨h1, h2, h3, h4, h5, h6, h7, h8⟩

/-- The shape of a descriptor is a matter of CFG. -/
theorem Desc.Shaped.congr {s t : State} {d : Desc} (h : d.Shaped s) (hcfg : t.cfg = s.cfg) :
    d.Shaped t :=
  ⟨by rw [State.minm, hcfg]; exact h.long, h.backward, by rw [State.wlog, hcfg]; exact h.near⟩

/-- A job does not see the registers, the sticky bits, the hash, the counters, the engine's own state and the
host's side of the run. -/
theorem State.Sound.sideEffects {s : State} (h : s.Sound) (regs : Vector Word 8)
    (cmdReadback : BitVec 32) (done drop busErr : Bool) (ie : BitVec 5) (engine : Engine)
    (hash bcount hcount mcount : Word) (draws : Nat) (agenda : List Event) (response : Response)
    (popped : List Desc) :
    State.Sound { s with
      regs := regs, cmdReadback := cmdReadback, done := done, drop := drop, busErr := busErr, ie := ie
      engine := engine, hash := hash, bcount := bcount, hcount := hcount, mcount := mcount
      draws := draws, agenda := agenda, response := response, popped := popped } where
  params := h.params
  cfgReserved := h.cfgReserved
  noError := h.noError
  someError := h.someError
  fifo := h.fifo
  buffer := h.buffer
  table := h.table
  job hc :=
    let j := h.job hc
    ⟨j.legal.congr rfl rfl rfl, j.cstart, j.pos, j.prevEnd, j.ended, j.table,
      fun d hd => (j.shaped d hd).congr rfl, j.before, j.rising⟩

/-- ERR and ERRCODE (10_state R40, 60_exceptions R261). -/
theorem State.Sound.setError {s : State} (h : s.Sound) {err : Bool} {errCode : BitVec 8}
    (hno : err = false → errCode = 0)
    (hsome : err = true → 1 ≤ errCode.toNat ∧ errCode.toNat ≤ 8) :
    State.Sound { s with err := err, errCode := errCode } where
  params := h.params
  cfgReserved := h.cfgReserved
  noError := hno
  someError := hsome
  fifo := h.fifo
  buffer := h.buffer
  table := h.table
  job hc :=
    let j := h.job hc
    ⟨j.legal.congr rfl rfl rfl, j.cstart, j.pos, j.prevEnd, j.ended, j.table,
      fun d hd => (j.shaped d hd).congr rfl, j.before, j.rising⟩

theorem State.Sound.setTable {s : State} (h : s.Sound) {t : Table}
    (hsize : Table.wf s.params.tableSize t = true)
    (hactive : s.cfgOk = true → Table.wf (2 ^ s.hlog) t = true) :
    State.Sound { s with table := t } where
  params := h.params
  cfgReserved := h.cfgReserved
  noError := h.noError
  someError := h.someError
  fifo := h.fifo
  buffer := h.buffer
  table := hsize
  job hc :=
    let j := h.job hc
    ⟨j.legal.congr rfl rfl rfl, j.cstart, j.pos, j.prevEnd, j.ended, hactive hc,
      fun d hd => (j.shaped d hd).congr rfl, j.before, j.rising⟩

/-- A write to the bucket of a hash stays within the active part of the table (42_match_table R189). -/
theorem State.Sound.writeBucket {s : State} (h : s.Sound) (hc : s.cfgOk = true) (w : Word)
    (off : BitVec 32) : State.Sound { s with table := sparseSet (s.key w) off s.table } := by
  have hkey := key_lt s w
  have hactive : 2 ^ s.hlog ≤ s.params.tableSize :=
    Nat.pow_le_pow_right two_pos (h.inside hc).2
  exact h.setTable (table_set_wf off (hkey.trans_le hactive) h.table)
    fun _ => table_set_wf off hkey (h.job hc).table

/-- A pop, or none (10_state R50). -/
theorem State.Sound.popFifo {s : State} (h : s.Sound) {q : List Desc} (hq : q <:+ s.fifo) :
    State.Sound { s with fifo := q } where
  params := h.params
  cfgReserved := h.cfgReserved
  noError := h.noError
  someError := h.someError
  fifo := hq.length_le.trans h.fifo
  buffer := h.buffer
  table := h.table
  job hc :=
    let j := h.job hc
    ⟨j.legal.congr rfl rfl rfl, j.cstart, j.pos, j.prevEnd, j.ended, j.table,
      fun d hd => (j.shaped d (hq.subset hd)).congr rfl, fun d hd => j.before d (hq.subset hd),
      j.rising.sublist hq.sublist⟩

/-- A good push into a FIFO with room (43_match_emitter R206). -/
theorem State.Sound.push {s : State} (h : s.Sound) (hc : s.cfgOk = true) {e : Emission}
    (he : e.Good s) (hroom : s.fifoFull = false) : (s.push e).Sound where
  params := h.params
  cfgReserved := h.cfgReserved
  noError := h.noError
  someError := h.someError
  fifo := push_fits hroom e.desc
  buffer := h.buffer
  table := h.table
  job _ := by
    have j := h.job hc
    have hstop : s.prevEnd.toNat ≤ e.stop.toNat :=
      he.desc.after.trans ((Nat.le_add_right ..).trans_eq he.stop)
    exact {
      legal := j.legal.congr rfl rfl rfl
      cstart := j.cstart
      pos := j.pos
      prevEnd := he.stop ▸ he.desc.inside
      ended := j.ended
      table := j.table
      shaped := List.forall_mem_append.2 ⟨fun d hd => (j.shaped d hd).congr rfl,
        List.forall_mem_singleton.2 (he.desc.shaped.congr rfl)⟩
      before := List.forall_mem_append.2 ⟨fun d hd => (j.before d hd).trans hstop,
        List.forall_mem_singleton.2 he.stop.le⟩
      rising := List.pairwise_append.2 ⟨j.rising, List.pairwise_singleton _ _, fun d hd =>
        List.forall_mem_singleton.2 ((j.before d hd).trans he.desc.after)⟩ }

/-- POS and CSTART move while EOB = 0 (10_state R45, R46). -/
theorem State.Sound.moveTo {s : State} (h : s.Sound) (hc : s.cfgOk = true) (heob : s.eob = false)
    {p c : Word} (hcp : c.toNat ≤ p.toNat) (hp : p.toNat ≤ s.bufN) :
    State.Sound { s with pos := p, cstart := c } where
  params := h.params
  cfgReserved := h.cfgReserved
  noError := h.noError
  someError := h.someError
  fifo := h.fifo
  buffer := h.buffer
  table := h.table
  job _ :=
    let j := h.job hc
    ⟨j.legal.congr rfl rfl rfl, hcp, hp, j.prevEnd, fun he => absurd (heob.symm.trans he) nofun,
      j.table, fun d hd => (j.shaped d hd).congr rfl, j.before, j.rising⟩

/-- EOB rises only where POS is N (41_boundary_detector R164). -/
theorem State.Sound.setEob {s : State} (h : s.Sound) {eob : Bool}
    (heob : s.cfgOk = true → eob = true → s.pos.toNat = s.bufN) : State.Sound { s with eob := eob } where
  params := h.params
  cfgReserved := h.cfgReserved
  noError := h.noError
  someError := h.someError
  fifo := h.fifo
  buffer := h.buffer
  table := h.table
  job hc :=
    let j := h.job hc
    ⟨j.legal.congr rfl rfl rfl, j.cstart, j.pos, j.prevEnd, heob hc, j.table,
      fun d hd => (j.shaped d hd).congr rfl, j.before, j.rising⟩

theorem forceClose_eob_iff (s : State) :
    s.forceClose.eob = true ↔ s.eob = true ∨ s.pos.toNat = s.bufN := by
  rw [State.forceClose_eob, pos_eq_bufLen_iff, Bool.or_eq_true, decide_eq_true_iff]

theorem State.Sound.forceClose {s : State} (h : s.Sound) : s.forceClose.Sound :=
  h.setEob fun hc he => ((forceClose_eob_iff s).1 he).elim (h.job hc).ended id

theorem forceClose_closed (s : State) : s.forceClose.Closed :=
  fun _ hp => (forceClose_eob_iff s).2 (.inr hp)

theorem State.Sound.setReg {s : State} (h : s.Sound) (r : Reg) (v : Word) : (s.setReg r v).Sound :=
  h.sideEffects _ _ _ _ _ _ _ _ _ _ _ _ _ _ _

/-- The engine's own state and DONE. -/
theorem State.Sound.setEngine {s : State} (h : s.Sound) (g : Engine) (done : Bool) :
    State.Sound { s with engine := g, done := done } := h.sideEffects _ _ _ _ _ _ _ _ _ _ _ _ _ _ _

theorem State.Sound.raise {s : State} (h : s.Sound) (c : CmdError) : (s.raise c).Sound :=
  (h.setError (err := true) nofun fun _ => code_bounds c).setEngine .idle true

theorem State.Sound.tableClear {s : State} (h : s.Sound) : s.tableClear.Sound :=
  h.setTable rfl fun _ => rfl

/-! ### Held pushes -/

theorem HeldOk.congr {s t : State} {e : Emission} {k : Continuation} (h : HeldOk s e k)
    (hin : SameInput s t) (hcfgOk : t.cfgOk = s.cfgOk) (hprev : t.prevEnd = s.prevEnd)
    (heob : t.eob = s.eob) (hpos : t.pos = s.pos) : HeldOk t e k where
  cfgOk := hcfgOk.trans h.cfgOk
  shaped := hin.shaped h.shaped
  verified := hin.verified h.verified h.shaped.backward (h.stop.trans_le h.inside)
  after := hprev ▸ h.after
  stop := h.stop
  inside := hin.bufN ▸ h.inside
  scanning := by rw [heob, hpos]; exact h.scanning

/-- What the emitter accepts may be held (43_match_emitter R203, 10_state R52). -/
theorem HeldOk.of_emit {s : State} (hc : s.cfgOk = true) {cand cur : Nat} {e : Emission}
    (he : s.emit cand cur = some e) {k : Continuation}
    (hscan : (∀ rd, k ≠ .matchResult rd) → s.eob = false ∧ s.pos.toNat ≤ cur) : HeldOk s e k := by
  obtain ⟨hshaped, hverified, hafter, hstop, hinside, hcur⟩ := emit_good he
  exact ⟨hc, hshaped, hverified, hafter, hstop, hinside, fun hk => (hscan hk).imp_right (·.trans hcur)⟩

theorem State.Sound.hold_inv {s : State} (h : s.Sound) {e : Emission} {k : Continuation}
    (he : HeldOk s e k) (hclosed : (∃ rd, k = .matchResult rd) → s.Closed) : (s.hold e k).Inv := by
  refine (h.setEngine (.held e k) s.done).inv (fun hg => hclosed (hg e k rfl)) (fun e' k' hg => ?_) nofun
  cases hg
  exact he.congr (.of_eq rfl rfl rfl rfl rfl rfl) rfl rfl rfl rfl

theorem State.Sound.complete_inv {s : State} (h : s.Sound) (hclosed : s.Closed) : s.complete.Inv :=
  (h.setEngine .idle true).inv_of_quiet hclosed nofun nofun

/-! ### The rules that push -/

theorem State.Sound.finishMatch_inv {s : State} (h : s.Sound) (hclosed : s.Closed)
    (hc : s.cfgOk = true) {e : Emission} (he : e.Good s) (hroom : s.fifoFull = false) (rd : Reg) :
    (s.finishMatch rd e).Inv :=
  ((h.push hc he hroom).setReg rd e.desc.len).complete_inv hclosed

theorem State.Sound.finishJump {s : State} (h : s.Sound) (hc : s.cfgOk = true) (heob : s.eob = false)
    {e : Emission} (he : e.Good s) (hroom : s.fifoFull = false) : (s.finishJump e).Sound := by
  have hinside : e.stop.toNat ≤ s.bufN := he.stop ▸ he.desc.inside
  have hjump : ((s.push e).jumpTo e.stop).Sound :=
    ((h.push hc he hroom).moveTo hc heob le_rfl hinside).sideEffects _ _ _ _ _ _ _ _ _ _ _ _ _ _ _
  exact hjump.forceClose

theorem finishJump_closed (s : State) (e : Emission) : (s.finishJump e).Closed :=
  forceClose_closed _

/-! ### STEP_BODY and SCAN -/

theorem State.Sound.hashByte {s : State} (h : s.Sound) (hc : s.cfgOk = true) (heob : s.eob = false)
    (hp : s.pos.toNat < s.bufN) : s.hashByte.Sound := by
  have hpos := hashByte_pos_toNat hp
  have hcstart := (h.job hc).cstart
  exact (h.moveTo hc heob (p := s.hashByte.pos) (c := s.cstart) (by omega) (by omega)).sideEffects
    _ _ _ _ _ _ _ _ _ _ _ _ _ _ _

theorem State.Sound.markBoundary {s : State} (h : s.Sound) (hc : s.cfgOk = true)
    (heob : s.eob = false) : s.markBoundary.Sound := by
  have hpos := (h.job hc).pos
  have htable := h.writeBucket hc s.hash (BitVec.ofNat 32 s.pos.toNat)
  exact (htable.moveTo hc heob (p := s.pos) (c := s.pos) le_rfl hpos).sideEffects
    _ _ _ _ _ _ _ _ _ _ _ _ _ _ _

theorem State.Sound.countHit {s : State} (h : s.Sound) : s.countHit.Sound :=
  h.sideEffects _ _ _ _ _ _ _ _ _ _ _ _ _ _ _

theorem State.Sound.afterBoundary {s : State} (h : s.Sound) (hc : s.cfgOk = true)
    (heob : s.eob = false) (hp : s.pos.toNat < s.bufN) (hit : Bool) : (s.afterBoundary hit).Sound := by
  have hmark := (h.hashByte hc heob hp).markBoundary hc heob
  cases hit with
  | false => exact hmark
  | true => exact hmark.countHit

theorem afterBoundary_eob (s : State) (hit : Bool) : (s.afterBoundary hit).eob = s.eob := by
  cases hit <;> rfl

/-- A STEP_BODY that runs keeps the job sound and sees to EOB (44_scan_control R236). -/
theorem State.Sound.stepBody_ran {s t : State} (h : s.Sound) (hc : s.cfgOk = true)
    (hb : s.stepBody = .ran t) : t.Sound ∧ t.Closed := by
  rcases stepBody_cases s with ⟨he, h'⟩ | ⟨-, hp, h'⟩ | ⟨he, hp, -, h'⟩ | ⟨he, hp, -, hit, h'⟩ |
    ⟨he, hp, -, c, e, hm, ⟨hroom, h'⟩ | ⟨-, h'⟩⟩ <;> cases h'.symm.trans hb
  · exact ⟨h, fun _ _ => he⟩
  · exact ⟨h.setEob fun _ _ => (h.job hc).pos.antisymm hp, fun _ _ => rfl⟩
  · exact ⟨(h.hashByte hc he hp).forceClose, forceClose_closed _⟩
  · exact ⟨(h.afterBoundary hc he hp hit).forceClose, forceClose_closed _⟩
  · have hc' := (afterBoundary_scanFrame s true).cfgOk.trans hc
    have he' := (afterBoundary_eob s true).trans he
    exact ⟨(h.afterBoundary hc he hp true).finishJump hc' he' (.of_emit hm) hroom, finishJump_closed _ _⟩

/-- A STEP_BODY that holds keeps the job sound, and its push may be held for a STEP and for a SCAN. -/
theorem State.Sound.stepBody_held {s t : State} {e : Emission} (h : s.Sound) (hc : s.cfgOk = true)
    (hb : s.stepBody = .held e t) : t.Sound ∧ ∀ k, HeldOk t e k := by
  rcases stepBody_cases s with ⟨-, h'⟩ | ⟨-, -, h'⟩ | ⟨-, -, -, h'⟩ | ⟨-, -, -, hit, h'⟩ |
    ⟨he, hp, -, c, e', hm, ⟨-, h'⟩ | ⟨-, h'⟩⟩ <;> cases h'.symm.trans hb
  have hc' := (afterBoundary_scanFrame s true).cfgOk.trans hc
  have he' := (afterBoundary_eob s true).trans he
  exact ⟨h.afterBoundary hc he hp true, fun k => .of_emit hc' hm fun _ => ⟨he', le_rfl⟩⟩

theorem State.Sound.runScan_inv {s : State} (h : s.Sound) (hc : s.cfgOk = true) : s.runScan.Inv := by
  obtain ⟨hran, hheld⟩ := scanLoop_induction (P := fun t => t.Sound ∧ t.cfgOk = true)
    (Q := fun e t => t.Sound ∧ HeldOk t e .scanJump)
    (fun u t hu _ hb => ⟨(hu.1.stepBody_ran hu.2 hb).1, (stepBody_ran_scanFrame hb).cfgOk.trans hu.2⟩)
    (fun u e t hu _ hb => (hu.1.stepBody_held hu.2 hb).imp_right fun hk => hk _)
    (s.bufN - s.pos.toNat + 1) s ⟨h, hc⟩
  cases hend : s.scanToEnd with
  | ran t =>
    rw [runScan_of_ran hend]
    exact (hran t hend).1.complete_inv fun _ _ => scanToEnd_ran_eob hend
  | held e t =>
    rw [runScan_of_held hend]
    exact (hheld e t hend).1.hold_inv (hheld e t hend).2 nofun

/-! ### Commands -/

/-- INIT starts a sound job (44_scan_control R232). -/
theorem State.Sound.startJob {s : State} (h : s.Sound) (hlegal : s.ConfigLegal) : s.startJob.Sound where
  params := h.params
  cfgReserved := h.cfgReserved
  noError := h.noError
  someError := h.someError
  fifo := Nat.zero_le _
  buffer := h.buffer
  table := rfl
  job _ := ⟨hlegal.congr rfl rfl rfl, le_rfl, Nat.zero_le _, Nat.zero_le _, nofun, rfl, nofun, nofun, .nil⟩

/-- A job never begins at its end, since the window is not empty (44_scan_control R232). -/
theorem startJob_closed {s : State} (hlegal : s.ConfigLegal) : s.startJob.Closed := by
  intro _ hp
  have hwindow : 0 < s.bufN := (Nat.two_pow_pos _).trans_le hlegal.window
  exact absurd hp hwindow.ne

/-- The end of a failed INIT, CFG_OK = 0 (44_scan_control R232). -/
theorem State.Sound.failInit {s : State} (h : s.Sound) (c : CmdError) : (s.failInit c).Sound where
  params := h.params
  cfgReserved := h.cfgReserved
  noError := nofun
  someError _ := code_bounds c
  fifo := h.fifo
  buffer := h.buffer
  table := h.table
  job := nofun

/-- Every command keeps the invariant. -/
theorem Executed.inv {s t : State} {i : Instr} (hx : Executed s i t) (h : s.Sound)
    (hclosed : s.Closed) : t.Inv := by
  cases hx with
  | gated => exact (h.raise _).inv_of_quiet hclosed nofun nofun
  | nop => exact h.complete_inv hclosed
  | initFails => exact (h.failInit _).inv_of_quiet nofun nofun nofun
  | initStarts hconfig =>
    have hlegal := (configError_eq_none_iff s).1 hconfig
    exact (h.startJob hlegal).complete_inv (startJob_closed hlegal)
  | tclr => exact h.tableClear.complete_inv hclosed
  | tins hc => exact State.Sound.complete_inv (h.writeBucket hc _ _) hclosed
  | reg => exact (h.setReg _ _).complete_inv hclosed
  | matchPush hc _ he hf => exact h.finishMatch_inv hclosed hc (.of_emit he) hf _
  | matchHold hc _ he => exact h.hold_inv (.of_emit hc he fun hk => absurd rfl (hk _)) fun _ => hclosed
  | stepRan hc _ _ hb => exact (h.stepBody_ran hc hb).1.complete_inv (h.stepBody_ran hc hb).2
  | stepHold hc _ _ hb =>
    exact (h.stepBody_held hc hb).1.hold_inv ((h.stepBody_held hc hb).2 _) nofun
  | scanRan hc _ _ hb => rw [← runScan_of_ran hb]; exact h.runScan_inv hc
  | scanHold hc _ _ hb => rw [← runScan_of_held hb]; exact h.runScan_inv hc

theorem runCommand_inv {s t : State} {v : Word} (h : s.Sound) (hclosed : s.Closed)
    (hx : s.runCommand v = .next t) : t.Inv := by
  rw [State.runCommand] at hx
  split at hx
  next => cases hx; exact (h.raise _).inv_of_quiet hclosed nofun nofun
  next => exact (exec_next hx).inv h hclosed

/-- A held command that goes on keeps the invariant (10_state R52). -/
theorem resume_inv {s t : State} {e : Emission} {k : Continuation} (h : s.Inv)
    (hg : s.engine = .held e k) (hroom : s.fifoFull = false) (hx : s.resume e k = .next t) : t.Inv := by
  have hheld := h.held e k hg
  have hjump (hk : ∀ rd, k ≠ .matchResult rd) : (s.finishJump e).Sound :=
    h.sound.finishJump hheld.cfgOk (hheld.scanning hk).1 hheld.good hroom
  cases k with
  | matchResult rd =>
    cases hx
    refine h.sound.finishMatch_inv (h.closed fun e' k' hg' => ?_) hheld.cfgOk hheld.good hroom rd
    cases hg.symm.trans hg'
    exact ⟨rd, rfl⟩
  | stepJump => cases hx; exact (hjump nofun).complete_inv (finishJump_closed s e)
  | scanJump =>
    obtain ⟨-, hx⟩ := needBuffer_next hx
    obtain ⟨-, hx⟩ := needTable_next hx
    cases hx
    exact (hjump nofun).runScan_inv hheld.cfgOk

/-! ### Turns of the engine and their parts -/

theorem engineStep_inv {s t : State} (h : s.Inv) (hx : s.engineStep = .next t) : t.Inv := by
  rw [State.engineStep] at hx
  split at hx
  next => cases hx; exact h
  next v hg => exact runCommand_inv h.sound (h.closed_of_not_held (by simp [hg])) hx
  next hg =>
    obtain ⟨-, hx⟩ := needBuffer_next hx
    obtain ⟨-, hx⟩ := needTable_next hx
    cases hx
    exact h.sound.runScan_inv (h.scanning hg)
  next hg => cases hx; exact h.sound.complete_inv (h.closed_of_not_held (by simp [hg]))
  next e k hg =>
    split at hx
    next => cases hx; exact h
    next hroom => exact resume_inv h hg (by simpa using hroom) hx

/-- One STEP_BODY of a SCAN leaves the SCAN under way or held (44_scan_control R238). -/
theorem scanPart_inv {s t : State} (h : s.Sound) (hc : s.cfgOk = true) (hx : s.scanPart = .next t) :
    t.Inv := by
  obtain ⟨-, hx⟩ := needBuffer_next hx
  obtain ⟨-, hx⟩ := needTable_next hx
  split at hx
  next u hb =>
    cases hx
    obtain ⟨hu, hclosed⟩ := h.stepBody_ran hc hb
    exact (hu.setEngine .scanning u.done).inv (fun _ => hclosed) nofun fun _ =>
      (stepBody_ran_scanFrame hb).cfgOk.trans hc
  next e u hb =>
    cases hx
    exact (h.stepBody_held hc hb).1.hold_inv ((h.stepBody_held hc hb).2 _) nofun

theorem beforeCompletion_inv {s t : State} {r : Result} (hr : ∀ u, r = .next u → u.Inv)
    (hx : s.beforeCompletion r = .next t) : t.Inv := by
  cases r with
  | fault | refused => cases hx
  | next u =>
    have hu := hr u rfl
    rw [State.beforeCompletion] at hx
    split at hx
    next => cases hx; exact hu
    next hgo =>
      cases hx
      have hidle : u.engine = .idle := by
        rw [← busy_eq_false, ← Bool.not_eq_true]
        exact fun hb => hgo (by simp [hb])
      exact (hu.sound.setEngine .finishing s.done).inv_of_quiet
        (hu.closed_of_not_held (by simp [hidle])) nofun nofun

theorem enginePart_inv {s t : State} (h : s.Inv) (hx : s.enginePart = .next t) : t.Inv := by
  rw [State.enginePart] at hx
  split at hx
  next => cases hx; exact h
  next v hg =>
    have hclosed := h.closed_of_not_held (by simp [hg])
    split at hx
    next =>
      rcases needCfg_next hx with ⟨hc, hx⟩ | ⟨-, rfl⟩
      · exact scanPart_inv h.sound hc hx
      · exact (h.sound.raise _).inv_of_quiet hclosed nofun nofun
    next => exact beforeCompletion_inv (fun u => runCommand_inv h.sound hclosed) hx
  next hg => exact scanPart_inv h.sound (h.scanning hg) hx
  next hg => cases hx; exact h.sound.complete_inv (h.closed_of_not_held (by simp [hg]))
  next e k hg =>
    split at hx
    next => cases hx; exact h
    next hroom =>
      have hroom : s.fifoFull = false := by simpa using hroom
      split at hx
      next =>
        cases hx
        have hheld := h.held _ _ hg
        have hjump := h.sound.finishJump hheld.cfgOk (hheld.scanning nofun).1 hheld.good hroom
        exact (hjump.setEngine .scanning s.done).inv (fun _ => finishJump_closed s e) nofun fun _ =>
          hheld.cfgOk
      next => exact beforeCompletion_inv (fun u => resume_inv h hg hroom) hx

/-! ### Host accesses and resets -/

/-- What the host does to a busy engine and to an idle one alike: the sticky bits, IE, the draws, the bus answer,
the agenda and pops. -/
theorem State.Inv.hostSide {s : State} (h : s.Inv) {err : Bool} {errCode : BitVec 8} {q : List Desc}
    (hno : err = false → errCode = 0) (hsome : err = true → 1 ≤ errCode.toNat ∧ errCode.toNat ≤ 8)
    (hq : q <:+ s.fifo) (done drop busErr : Bool) (ie : BitVec 5) (draws : Nat) (agenda : List Event)
    (response : Response) (popped : List Desc) :
    State.Inv { s with
      done := done, err := err, drop := drop, busErr := busErr, errCode := errCode, ie := ie
      fifo := q, draws := draws, agenda := agenda, response := response, popped := popped } := by
  refine State.Sound.inv (((h.sound.popFifo hq).setError hno hsome).sideEffects
    _ _ _ _ _ _ _ _ _ _ _ _ _ _ _) h.closed (fun e k hg => ?_) h.scanning
  exact (h.held e k hg).congr (.of_eq rfl rfl rfl rfl rfl rfl) rfl rfl rfl rfl

/-- The same with ERR, ERRCODE and the FIFO left as they are. -/
theorem State.Inv.quietHost {s : State} (h : s.Inv) (done drop busErr : Bool) (ie : BitVec 5)
    (draws : Nat) (agenda : List Event) (response : Response) :
    State.Inv { s with
      done := done, drop := drop, busErr := busErr, ie := ie, draws := draws, agenda := agenda
      response := response } :=
  h.hostSide h.noError h.someError List.suffix_rfl _ _ _ _ _ _ _ _

theorem State.Inv.setAgenda {s : State} (h : s.Inv) (agenda : List Event) :
    State.Inv { s with agenda := agenda } := h.quietHost _ _ _ _ _ _ _

theorem State.Inv.respond {s : State} (h : s.Inv) (data : Word) (busError : Bool) :
    (s.respond data busError).Inv := h.quietHost _ _ _ _ _ _ _

theorem State.Inv.badAccess {s : State} (h : s.Inv) : s.badAccess.Inv := h.quietHost _ _ _ _ _ _ _

theorem State.Inv.readReg {s : State} (h : s.Inv) (r : HostReg) : (s.readReg r).Inv := by
  rw [State.readReg]
  split
  · exact h.quietHost _ _ _ _ _ _ _
  · exact h.respond _ _

/-- What only an idle engine takes (10_state R57). -/
theorem State.Inv.whenIdle {s t : State} (h : s.Inv) (hidle : s.engine = .idle → t.Inv) :
    (s.whenIdle t).Inv := by
  cases hb : s.busy with
  | true => rw [whenIdle_busy hb]; exact h.quietHost _ _ _ _ _ _ _
  | false => rw [whenIdle_idle hb]; exact hidle ((busy_eq_false s).1 hb)

/-- Without a valid configuration an idle engine has no job to keep sound (10_state R35, R36). -/
theorem State.Inv.endJob {s : State} (h : s.Inv) (hidle : s.engine = .idle) {cfg : Word}
    (hcfg : cfg &&& cfgMask = cfg) (bufLen : Word) :
    State.Inv { s with cfg := cfg, bufLen := bufLen, cfgOk := false } where
  params := h.params
  cfgReserved := hcfg
  noError := h.noError
  someError := h.someError
  fifo := h.fifo
  buffer := h.buffer
  table := h.table
  job := nofun
  held _ _ hg := absurd (hidle.symm.trans hg) nofun
  scanning hg := absurd (hidle.symm.trans hg) nofun

/-- The host may fill the buffer of an idle engine at any time, within its size (20_memory R83). -/
theorem State.Inv.setBuffer {s : State} (h : s.Inv) (hidle : s.engine = .idle) {m : Memory}
    (hm : Memory.wf s.params.bufCap m = true) : State.Inv { s with buffer := m } where
  params := h.params
  cfgReserved := h.cfgReserved
  noError := h.noError
  someError := h.someError
  fifo := h.fifo
  buffer := hm
  table := h.table
  job hc :=
    let j := h.job hc
    ⟨j.legal, j.cstart, j.pos, j.prevEnd, j.ended, j.closed, j.table,
      fun d hd => (j.shaped d hd).congr rfl, j.before, j.rising⟩
  held _ _ hg := absurd (hidle.symm.trans hg) nofun
  scanning hg := absurd (hidle.symm.trans hg) nofun

theorem State.Inv.popHead {s : State} (h : s.Inv) : s.popHead.Inv := by
  rw [popHead_eq]
  exact h.hostSide h.noError h.someError (List.tail_suffix _) _ _ _ _ _ _ _ _

/-- Clearing ERR clears ERRCODE with it (10_state R39). -/
theorem State.Inv.clearStatus {s : State} (h : s.Inv) (v : Word) : (s.clearStatus v).Inv := by
  refine h.hostSide ?_ ?_ List.suffix_rfl _ _ _ _ _ _ _ _
  · cases v.getLsbD 2 with
    | true => exact fun _ => rfl
    | false => simpa using h.noError
  · cases v.getLsbD 2 with
    | true => simp
    | false => simpa using h.someError

theorem State.Inv.writeReg {s : State} (h : s.Inv) (r : HostReg) (v : Word) : (s.writeReg r v).Inv := by
  cases r with
  | cfg =>
    exact h.whenIdle fun hidle => h.endJob hidle (by rw [BitVec.and_assoc, BitVec.and_self]) s.bufLen
  | bufLen => exact h.whenIdle fun hidle => h.endJob hidle h.cfgReserved v
  | gpr i =>
    refine h.whenIdle fun hidle => (h.sound.setReg i v).inv_of_quiet
      (h.closed_of_not_held (by simp [hidle])) ?_ ?_ <;> simp [hidle]
  | cmd =>
    rw [State.writeReg]
    split
    next => exact h.quietHost _ _ _ _ _ _ _
    next hfree =>
      have hidle : s.engine = .idle := by
        rw [← busy_eq_false, ← Bool.not_eq_true]
        exact fun hb => hfree (by simp [hb])
      exact State.Sound.inv_of_quiet (h.sound.sideEffects _ _ _ _ _ _ _ _ _ _ _ _ _ _ _)
        (h.closed_of_not_held (by simp [hidle])) nofun nofun
  | status => exact h.clearStatus v
  | descPop => exact h.popHead
  | _ => exact h.quietHost _ _ _ _ _ _ _

theorem State.Inv.hostAccess {s : State} (h : s.Inv) (a : Access) : (s.hostAccess a).Inv := by
  cases a with
  | read width addr =>
    rw [State.hostAccess]
    cases Params.target s.params width addr with
    | register r => exact h.readReg r
    | aperture off => exact h.respond _ _
    | bad => exact h.badAccess
  | write width addr v =>
    rw [State.hostAccess]
    cases htarget : Params.target s.params width addr with
    | register r => exact (h.writeReg r v).respond _ _
    | aperture off =>
      obtain ⟨-, -, -, hinside⟩ := target_aperture htarget
      exact (h.whenIdle fun hidle => h.setBuffer hidle (memWrite_wf v hinside h.buffer)).respond _ _
    | bad => exact h.badAccess

theorem State.Inv.poll {s : State} (h : s.Inv) : s.poll.Inv := by
  rw [State.poll]
  split
  · exact (h.readReg .status).setAgenda _
  · exact h.readReg .status

/-- Reset with legal parameters meets the invariant, whatever the host's side of the run is (70_reset_and_hazards
R300). -/
theorem resetOf_inv {p : Params} (hp : p.wf = true) (engineId epoch draws : Nat) (agenda : List Event)
    (response : Response) :
    State.Inv { State.resetOf p with
      engineId := engineId, epoch := epoch, draws := draws, agenda := agenda, response := response } where
  params := hp
  cfgReserved := BitVec.zero_and
  noError _ := rfl
  someError := nofun
  fifo := Nat.zero_le _
  buffer := rfl
  table := rfl
  job := nofun
  held := nofun
  scanning := nofun

/-- Settles O56: the reset state is one of `resetOf_inv`, for this hardware. -/
theorem resetMeetsInvariant : Obligations.ResetMeetsInvariant := by
  unfold Obligations.ResetMeetsInvariant
  exact resetOf_inv (by decide) 0 0 0 [] ⟨0, false⟩

/-- Settles O57: the engine keeps the invariant (`engineStep_inv`, `enginePart_inv`), and so does the host
(`State.Inv.hostAccess`, `State.Inv.poll`) and reset (`resetOf_inv`). -/
theorem stepKeepsInvariant : Obligations.StepKeepsInvariant := by
  unfold Obligations.StepKeepsInvariant
  intro s t h hx
  rw [step] at hx
  split at hx
  next => exact engineStep_inv h hx
  next rest _ => exact engineStep_inv (h.setAgenda rest) hx
  next rest _ => exact enginePart_inv (h.setAgenda rest) hx
  next a rest _ => cases hx; exact (h.setAgenda rest).hostAccess a
  next rest _ => cases hx; exact (h.setAgenda rest).poll
  next rest _ => cases hx; exact resetOf_inv h.params _ _ _ _ _

/-! ### Progress -/

/-- With CFG_OK = 1 only for configurations inside the memories, every command answers (43_match_emitter
R207). -/
theorem exec_answers {s : State}
    (hin : s.cfgOk = true → s.bufN ≤ s.params.bufCap ∧ s.hlog ≤ s.params.hlogMax) (i : Instr) :
    ∃ t, exec i s = .next t := by
  by_cases hgated : needsCfgOk i = true ∧ s.cfgOk = false
  · exact ⟨_, exec_of_not_cfgOk hgated.1 hgated.2⟩
  have hc : needsCfgOk i = true → s.cfgOk = true := by simpa using hgated
  cases i with
  | nop | tclr | gear | hadv => exact ⟨_, rfl⟩
  | init => rw [exec, execInit]; split <;> exact ⟨_, rfl⟩
  | btest => exact ⟨_, needCfg_of (hc rfl) _⟩
  | tins | tlkp =>
    exact ⟨_, (needCfg_of (hc rfl) _).trans (needTable_of (hin (hc rfl)).2 _)⟩
  | vfwd | xbwd =>
    exact ⟨_, (needCfg_of (hc rfl) _).trans (needBuffer_of (hin (hc rfl)).1 _)⟩
  | matchEmit =>
    rw [exec, execMatchEmit, needCfg_of (hc rfl), needBuffer_of (hin (hc rfl)).1]
    split
    · exact ⟨_, rfl⟩
    · split <;> exact ⟨_, rfl⟩
  | step =>
    obtain ⟨hbuf, htab⟩ := hin (hc rfl)
    rw [exec, execStep, needCfg_of (hc rfl), needBuffer_of hbuf, needTable_of htab]
    split <;> exact ⟨_, rfl⟩
  | scan =>
    obtain ⟨hbuf, htab⟩ := hin (hc rfl)
    exact ⟨_, by rw [exec, execScan, needCfg_of (hc rfl), needBuffer_of hbuf, needTable_of htab]⟩

theorem State.Inv.exec_answers {s : State} (h : s.Inv) (i : Instr) : ∃ t, exec i s = .next t :=
  Machine.exec_answers h.sound.inside i

theorem runCommand_answers {s : State} (h : s.Inv) (v : Word) : ∃ t, s.runCommand v = .next t := by
  rw [State.runCommand]
  split
  · exact ⟨_, rfl⟩
  · exact h.exec_answers _

theorem resume_answers {s : State} (h : s.Inv) {e : Emission} {k : Continuation}
    (hg : s.engine = .held e k) : ∃ t, s.resume e k = .next t := by
  obtain ⟨hbuf, htab⟩ := h.sound.inside (h.held e k hg).cfgOk
  cases k with
  | matchResult | stepJump => exact ⟨_, rfl⟩
  | scanJump => exact ⟨_, resume_scanJump e hbuf htab⟩

theorem engineStep_answers {s : State} (h : s.Inv) : ∃ t, s.engineStep = .next t := by
  rw [State.engineStep]
  split
  next => exact ⟨_, rfl⟩
  next v _ => exact runCommand_answers h v
  next hg =>
    obtain ⟨hbuf, htab⟩ := h.sound.inside (h.scanning hg)
    exact ⟨_, by rw [needBuffer_of hbuf, needTable_of htab]⟩
  next => exact ⟨_, rfl⟩
  next hg =>
    split
    · exact ⟨_, rfl⟩
    · exact resume_answers h hg

theorem scanPart_answers {s : State} (h : s.Inv) (hc : s.cfgOk = true) : ∃ t, s.scanPart = .next t := by
  obtain ⟨hbuf, htab⟩ := h.sound.inside hc
  rw [State.scanPart, needBuffer_of hbuf, needTable_of htab]
  split <;> exact ⟨_, rfl⟩

theorem beforeCompletion_answers (s : State) {r : Result} (hr : ∃ u, r = .next u) :
    ∃ t, s.beforeCompletion r = .next t := by
  obtain ⟨u, rfl⟩ := hr
  rw [State.beforeCompletion]
  split <;> exact ⟨_, rfl⟩

theorem enginePart_answers {s : State} (h : s.Inv) : ∃ t, s.enginePart = .next t := by
  rw [State.enginePart]
  split
  next => exact ⟨_, rfl⟩
  next v _ =>
    split
    next =>
      cases hc : s.cfgOk with
      | true => rw [needCfg_of hc]; exact scanPart_answers h hc
      | false => exact ⟨_, needCfg_raises hc _⟩
    next => exact beforeCompletion_answers s (runCommand_answers h v)
  next hg => exact scanPart_answers h (h.scanning hg)
  next => exact ⟨_, rfl⟩
  next hg =>
    split
    · exact ⟨_, rfl⟩
    · split
      · exact ⟨_, rfl⟩
      · exact beforeCompletion_answers s (resume_answers h hg)

/-- Settles O58: only the engine could stop, and under the invariant it answers (`engineStep_answers`,
`enginePart_answers`). -/
theorem stepNeverStops : Obligations.StepNeverStops := by
  unfold Obligations.StepNeverStops
  intro s h
  rw [step]
  split
  next => exact engineStep_answers h
  next rest _ => exact engineStep_answers (h.setAgenda rest)
  next rest _ => exact enginePart_answers (h.setAgenda rest)
  next => exact ⟨_, rfl⟩
  next => exact ⟨_, rfl⟩
  next => exact ⟨_, rfl⟩

/-- Settles O30: a STEP is one STEP_BODY, and `stepBody_pos` says how far that gets. -/
theorem stepRaisesPosWithinBuffer : Obligations.StepRaisesPosWithinBuffer := by
  unfold Obligations.StepRaisesPosWithinBuffer
  intro s t h hc heob hheld hx
  have hlt : s.pos.toNat < s.bufN := by
    refine lt_of_le_of_ne (h.job hc).pos fun hp => ?_
    rw [h.closed_of_not_held hheld hc hp] at heob
    cases heob
  cases exec_next hx with
  | gated _ hc' => cases hc.symm.trans hc'
  | reg hi => cases hi
  | stepRan _ _ _ hb =>
    obtain ⟨hrise, hle, -⟩ := (stepBody_pos heob hlt).1 _ hb
    exact ⟨hrise, hle⟩
  | @stepHold u e _ _ _ hb =>
    obtain ⟨hpos, -, -⟩ := (stepBody_pos heob hlt).2 _ _ hb
    rw [State.hold_pos]
    omega

end Sys2Proof.Machine
end

section
/-! PROOFS. A scan depends on its input and the scan state alone (44_scan_control R243, 20_memory R94): engines
that agree on these go through the same STEP_BODYs. So the result of a job is determined by its input, and a SCAN
that completes does what STEPs do, whose completions between the bytes it does not see (R238). -/

namespace Sys2Proof.Machine

open Sys2Proof

/-! ### One STEP_BODY, case by case -/

section
variable {s : State} (he : s.eob = false) (hp : s.pos.toNat < s.bufN)
include he hp

theorem stepBody_of_no_boundary (hb : s.hashByte.atBoundary s.pos.toNat = false) :
    s.stepBody = .ran s.hashByte.forceClose := by
  simp [State.stepBody, he, Nat.not_le.2 hp, hb]

theorem stepBody_of_miss (hb : s.hashByte.atBoundary s.pos.toNat = true)
    (ht : s.hashByte.tableRead (s.hashByte.key s.hashByte.hash) = none) :
    s.stepBody = .ran (s.afterBoundary false).forceClose := by
  simp only [State.stepBody, he, Nat.not_le.2 hp, hb, ht, Bool.false_eq_true, if_false, if_true]
  rfl

theorem stepBody_of_hit (hb : s.hashByte.atBoundary s.pos.toNat = true) {c : BitVec 32}
    (ht : s.hashByte.tableRead (s.hashByte.key s.hashByte.hash) = some c) :
    s.stepBody = (s.afterBoundary true).bodyAtHit c := by
  simp only [State.stepBody, he, Nat.not_le.2 hp, hb, ht, Bool.false_eq_true, if_false, if_true]
  rfl

end

/-! ### Engines that agree on a scan -/

/-- Two engines agree on the input of the scan and on all that the scan writes. -/
structure SameScan (s t : State) : Prop where
  input : SameInput s t
  hash : s.hash = t.hash
  pos : s.pos = t.pos
  cstart : s.cstart = t.cstart
  prevEnd : s.prevEnd = t.prevEnd
  bcount : s.bcount = t.bcount
  hcount : s.hcount = t.hcount
  mcount : s.mcount = t.mcount
  eob : s.eob = t.eob
  fifo : s.fifo = t.fifo
  table : s.table = t.table

/-- Two STEP_BODYs or SCANs end alike: both run, or both hold the same push. -/
inductive SameEnd : BodyEnd → BodyEnd → Prop where
  | ran {s t : State} (h : SameScan s t) : SameEnd (.ran s) (.ran t)
  | held (e : Emission) {s t : State} (h : SameScan s t) : SameEnd (.held e s) (.held e t)

namespace SameScan

variable {s t : State}

theorem fifoFull (h : SameScan s t) : s.fifoFull = t.fifoFull := by
  rw [State.fifoFull, State.fifoFull, h.input.params, h.fifo]

theorem emit (h : SameScan s t) (cand cur : Nat) : s.emit cand cur = t.emit cand cur :=
  h.input.emit h.prevEnd cand cur

theorem tableRead (h : SameScan s t) (k : Nat) : s.tableRead k = t.tableRead k := by
  rw [State.tableRead, State.tableRead, h.table]

theorem atBoundary (h : SameScan s t) (i : Nat) : s.atBoundary i = t.atBoundary i := by
  rw [State.atBoundary, State.atBoundary, h.input.minm, h.cstart, h.hash, h.input.isBoundary]

theorem setEob (h : SameScan s t) (eob : Bool) :
    SameScan { s with eob := eob } { t with eob := eob } :=
  { h with input := ⟨h.input.params, h.input.cfg, h.input.bufLen, h.input.bytes⟩, eob := rfl }

/-- The byte at POS is read below N, where the two buffers agree. -/
theorem hashByte (h : SameScan s t) (hp : s.pos.toNat < s.bufN) : SameScan s.hashByte t.hashByte :=
  { h with
    input := ⟨h.input.params, h.input.cfg, h.input.bufLen, h.input.bytes⟩
    hash := by
      rw [State.hashByte_hash, State.hashByte_hash, h.input.bytes _ hp, h.input.params, h.hash, h.pos]
    pos := by rw [State.hashByte_pos, State.hashByte_pos, h.pos] }

theorem markBoundary (h : SameScan s t) : SameScan s.markBoundary t.markBoundary :=
  { h with
    input := ⟨h.input.params, h.input.cfg, h.input.bufLen, h.input.bytes⟩
    cstart := h.pos
    bcount := congrArg (· + 1) h.bcount
    table := by
      rw [State.markBoundary_table, State.markBoundary_table, h.input.key, h.hash, h.pos, h.table] }

theorem countHit (h : SameScan s t) : SameScan s.countHit t.countHit :=
  { h with
    input := ⟨h.input.params, h.input.cfg, h.input.bufLen, h.input.bytes⟩
    hcount := congrArg (· + 1) h.hcount }

theorem afterBoundary (h : SameScan s t) (hp : s.pos.toNat < s.bufN) (hit : Bool) :
    SameScan (s.afterBoundary hit) (t.afterBoundary hit) := by
  cases hit with
  | false => exact (h.hashByte hp).markBoundary
  | true => exact (h.hashByte hp).markBoundary.countHit

theorem forceClose (h : SameScan s t) : SameScan s.forceClose t.forceClose := by
  have hclose : (s.eob || s.pos == s.bufLen) = (t.eob || t.pos == t.bufLen) := by
    rw [h.eob, h.pos, h.input.bufLen]
  simpa only [State.forceClose, hclose] using h.setEob (t.eob || t.pos == t.bufLen)

theorem finishJump (h : SameScan s t) (e : Emission) :
    SameScan (s.finishJump e) (t.finishJump e) := by
  have hjump : SameScan ((s.push e).jumpTo e.stop) ((t.push e).jumpTo e.stop) :=
    { h with
      input := ⟨h.input.params, h.input.cfg, h.input.bufLen, h.input.bytes⟩
      hash := rfl
      pos := rfl
      cstart := rfl
      prevEnd := rfl
      mcount := congrArg (· + 1) h.mcount
      fifo := congrArg (· ++ [e.desc]) h.fifo }
  exact hjump.forceClose

theorem bodyAtHit (h : SameScan s t) (c : BitVec 32) : SameEnd (s.bodyAtHit c) (t.bodyAtHit c) := by
  rw [State.bodyAtHit, State.bodyAtHit, h.emit, h.pos, h.fifoFull]
  cases t.emit c.toNat t.pos.toNat with
  | none => exact .ran h.forceClose
  | some e =>
    cases t.fifoFull with
    | true => exact .held e h
    | false => exact .ran (h.finishJump e)

theorem stepBody (h : SameScan s t) : SameEnd s.stepBody t.stepBody := by
  cases he : s.eob with
  | true =>
    rw [stepBody_of_eob he, stepBody_of_eob (h.eob ▸ he)]
    exact .ran h
  | false =>
    have he' : t.eob = false := h.eob ▸ he
    rcases Nat.lt_or_ge s.pos.toNat s.bufN with hp | hp
    · have hp' : t.pos.toNat < t.bufN := by rwa [← h.pos, ← h.input.bufN]
      have hhash := h.hashByte hp
      have hboundary := hhash.atBoundary s.pos.toNat
      have hread := hhash.tableRead (s.hashByte.key s.hashByte.hash)
      rw [h.pos] at hboundary
      rw [hhash.input.key, hhash.hash] at hread
      cases hb : t.hashByte.atBoundary t.pos.toNat with
      | false =>
        rw [stepBody_of_no_boundary he hp (by rw [h.pos, hboundary, hb]),
          stepBody_of_no_boundary he' hp' hb]
        exact .ran hhash.forceClose
      | true =>
        have hb' : s.hashByte.atBoundary s.pos.toNat = true := by rw [h.pos, hboundary, hb]
        cases ht : t.hashByte.tableRead (t.hashByte.key t.hashByte.hash) with
        | none =>
          rw [stepBody_of_miss he hp hb' (by rw [hhash.input.key, hhash.hash, hread, ht]),
            stepBody_of_miss he' hp' hb ht]
          exact .ran (h.afterBoundary hp false).forceClose
        | some c =>
          rw [stepBody_of_hit he hp hb' (by rw [hhash.input.key, hhash.hash, hread, ht]),
            stepBody_of_hit he' hp' hb ht]
          exact (h.afterBoundary hp true).bodyAtHit c
    · rw [stepBody_at_end he hp, stepBody_at_end he' (by rwa [← h.pos, ← h.input.bufN])]
      exact .ran (h.setEob true)

theorem scanLoop (h : SameScan s t) (fuel : Nat) :
    SameEnd (Machine.scanLoop fuel s) (Machine.scanLoop fuel t) := by
  induction fuel generalizing s t with
  | zero => exact .ran h
  | succ n ih =>
    rw [Machine.scanLoop, Machine.scanLoop, h.eob]
    split
    · exact .ran h
    · have hbody := h.stepBody
      generalize s.stepBody = b, t.stepBody = b' at hbody ⊢
      cases hbody with
      | ran h' => exact ih h'
      | held e h' => exact .held e h'

theorem scanToEnd (h : SameScan s t) : SameEnd s.scanToEnd t.scanToEnd := by
  rw [State.scanToEnd, State.scanToEnd, h.input.bufN, h.pos]
  exact h.scanLoop _

/-- The engine's own state and DONE are no part of a scan. -/
theorem of_setEngine (s : State) (g : Engine) (done : Bool) :
    SameScan s { s with engine := g, done := done } :=
  ⟨.of_eq rfl rfl rfl rfl rfl rfl, rfl, rfl, rfl, rfl, rfl, rfl, rfl, rfl, rfl, rfl⟩

theorem setEngine (h : SameScan s t) (g : Engine) (d d' : Bool) :
    SameScan { s with engine := g, done := d } { t with engine := g, done := d' } :=
  { h with input := ⟨h.input.params, h.input.cfg, h.input.bufLen, h.input.bytes⟩ }

theorem runScan (h : SameScan s t) :
    SameScan s.runScan t.runScan ∧ s.runScan.engine = t.runScan.engine := by
  have hend := h.scanToEnd
  rw [State.runScan, State.runScan]
  generalize s.scanToEnd = b, t.scanToEnd = b' at hend ⊢
  cases hend with
  | ran h' => exact ⟨h'.setEngine .idle true true, rfl⟩
  | held e h' => exact ⟨h'.setEngine (.held e .scanJump) _ _, rfl⟩

end SameScan

/-! ### INIT and SCAN -/

theorem SameInput.configError {s t : State} (h : SameInput s t) : s.configError = t.configError := by
  simp only [State.configError, h.hlog, h.wlog, h.minm, h.bufN, h.hrl, h.params]

theorem exec_scan_eq_runScan {s t : State} (hc : s.cfgOk = true) (h : exec .scan s = .next t) :
    t = s.runScan := by
  cases exec_next h with
  | gated _ hc' => cases hc.symm.trans hc'
  | reg hi => cases hi
  | scanRan _ _ _ hb => exact (runScan_of_ran hb).symm
  | scanHold _ _ _ hb => exact (runScan_of_held hb).symm

theorem exec_init_of_legal {s : State} (h : s.configError = none) :
    exec .init s = .next s.startJob.complete := by
  rw [exec, execInit, h]

theorem exec_init_of_error {s : State} {c : CmdError} (h : s.configError = some c) :
    exec .init s = .next (s.failInit c) := by
  rw [exec, execInit, h]

/-- INIT that leaves CFG_OK = 1 has passed its checks (44_scan_control R232). -/
theorem configError_of_init_cfgOk {s t : State} (h : exec .init s = .next t) (hc : t.cfgOk = true) :
    s.configError = none := by
  cases hconfig : s.configError with
  | none => rfl
  | some c =>
    rw [exec_init_of_error hconfig] at h
    cases h
    cases hc

/-- Jobs on the same input start alike, whatever came before (44_scan_control R232). -/
theorem SameInput.startJob {s t : State} (h : SameInput s t) : SameScan s.startJob t.startJob :=
  ⟨⟨h.params, h.cfg, h.bufLen, h.bytes⟩, rfl, rfl, rfl, rfl, rfl, rfl, rfl, rfl, rfl, rfl⟩

/-- Settles O34: the jobs start alike (`SameInput.startJob`), and so they scan alike (`SameScan.runScan`). -/
theorem scanIsDeterminedByInput : Obligations.ScanIsDeterminedByInput := by
  unfold Obligations.ScanIsDeterminedByInput
  intro s s' t t' u u' hparams hcfg hlen hbytes hinit hc hinit' hscan hscan'
  have hin : SameInput s s' := ⟨hparams, hcfg, hlen, hbytes⟩
  have hlegal := configError_of_init_cfgOk hinit hc
  rw [exec_init_of_legal hlegal] at hinit
  rw [exec_init_of_legal (hin.configError ▸ hlegal)] at hinit'
  cases hinit
  cases hinit'
  cases exec_scan_eq_runScan rfl hscan
  cases exec_scan_eq_runScan rfl hscan'
  obtain ⟨h, hengine⟩ := (hin.startJob.setEngine .idle true true).runScan
  exact ⟨h.fifo, h.hash, h.pos, h.cstart, h.prevEnd, h.bcount, h.hcount, h.mcount, h.eob, h.table,
    hengine⟩

/-! ### SCAN as STEPs -/

/-- A STEP whose STEP_BODY runs (44_scan_control R236). -/
theorem exec_step_of_ran {s t : State} (hc : s.cfgOk = true) (hbuf : s.bufN ≤ s.params.bufCap)
    (htab : s.hlog ≤ s.params.hlogMax) (hb : s.stepBody = .ran t) :
    exec .step s = .next t.complete := by
  rw [exec, execStep, needCfg_of hc, needBuffer_of hbuf, needTable_of htab, hb]

theorem stepCommands_succ {s t : State} (h : exec .step s = .next t) (n : Nat) :
    stepCommands (n + 1) s = stepCommands n t := by
  rw [stepCommands, h]

/-- A scan goes on alike after a completion, and ends alike but for the completion itself. -/
theorem scanToEnd_complete {s t : State} (h : s.scanToEnd = .ran t) :
    ∃ t', s.complete.scanToEnd = .ran t' ∧ t'.complete = t.complete := by
  have hsame : SameEnd s.scanToEnd s.complete.scanToEnd :=
    (SameScan.of_setEngine s .idle true).scanToEnd
  rw [h] at hsame
  cases hend : s.complete.scanToEnd with
  | held => rw [hend] at hsame; cases hsame
  | ran t' =>
    rw [hend] at hsame
    cases hsame with
    | ran hs =>
      refine ⟨t', rfl, ?_⟩
      rw [scanToEnd_ran_scanFrame hend, scanToEnd_ran_scanFrame h]
      simp only [← hs.hash, ← hs.pos, ← hs.cstart, ← hs.prevEnd, ← hs.bcount, ← hs.hcount, ← hs.mcount,
        ← hs.eob, ← hs.fifo, ← hs.table]
      rfl

/-- A scan that runs through is a STEP for each of its STEP_BODYs, with a completion after each. -/
theorem stepCommands_of_scan {s t : State} (hc : s.cfgOk = true) (hbuf : s.bufN ≤ s.params.bufCap)
    (htab : s.hlog ≤ s.params.hlogMax) (h : s.scanToEnd = .ran t) :
    ∃ n, 1 ≤ n ∧ n ≤ max 1 (s.bufN - s.pos.toNat) ∧ stepCommands n s = .next t.complete := by
  induction hleft : s.bufN - s.pos.toNat using Nat.strong_induction_on generalizing s t with
  | _ left ih =>
    -- one STEP ends the scan
    have last (hb : s.stepBody = .ran t) : ∃ n, 1 ≤ n ∧ n ≤ max 1 left ∧
        stepCommands n s = .next t.complete :=
      ⟨1, le_rfl, le_max_left .., stepCommands_succ (exec_step_of_ran hc hbuf htab hb) 0⟩
    cases he : s.eob with
    | true => exact last ((stepBody_of_eob he).trans (scanToEnd_of_eob he ▸ h))
    | false =>
      cases hb : s.stepBody with
      | held e u =>
        rw [scanToEnd_of_held he hb] at h
        cases h
      | ran u =>
        rw [scanToEnd_step he hb] at h
        cases hu : u.eob with
        | true =>
          rw [scanToEnd_of_eob hu] at h
          exact last (hb.trans h)
        | false =>
          have hframe := stepBody_ran_scanFrame hb
          have hN : u.bufN = s.bufN := hframe.sameInput.bufN.symm
          obtain ⟨-, hpos⟩ := (stepBody_advance he).1 u hb
          obtain ⟨hrise, hle⟩ := hpos.resolve_left (by simp [hu])
          have hlt : u.pos.toNat ≠ s.bufN := fun heq => by
            have hclosed := ((stepBody_pos he (by omega)).1 u hb).2.2.2 heq
            cases hu.symm.trans hclosed
          obtain ⟨t', hend, hsame⟩ := scanToEnd_complete h
          obtain ⟨n, hn, hmax, hsteps⟩ := ih (u.bufN - u.pos.toNat) (by omega) (s := u.complete)
            (hframe.cfgOk.trans hc)
            (show u.bufN ≤ u.params.bufCap by rwa [hN, hframe.params])
            (show u.hlog ≤ u.params.hlogMax by rwa [← hframe.sameInput.hlog, hframe.params])
            hend rfl
          refine ⟨n + 1, by omega, by omega, ?_⟩
          rw [stepCommands_succ (exec_step_of_ran hc hbuf htab hb), hsteps, hsame]

/-- Settles O32: a SCAN that is not busy afterwards has run through, as STEPs do
(`stepCommands_of_scan`). -/
theorem scanEqualsSteps : Obligations.ScanEqualsSteps := by
  unfold Obligations.ScanEqualsSteps
  intro s t hinv hc hscan hbusy
  obtain ⟨hbuf, htab⟩ := hinv.sound.inside hc
  cases exec_next hscan with
  | gated _ hc' => cases hc.symm.trans hc'
  | reg hi => cases hi
  | scanRan _ _ _ hb => exact stepCommands_of_scan hc hbuf htab hb
  | scanHold => cases hbusy

end Sys2Proof.Machine
end

section
/-! PROOFS. SCAN runs to the end of the buffer or holds, and it does not hold if the FIFO has room for one
descriptor and one more for each MINM + 1 bytes that are left (44_scan_control R238, R241): each boundary lies
MINM + 1 bytes or more past the chunk start, and a match starts a new chunk at its end. -/

namespace Sys2Proof.Machine

open Sys2Proof

/-- The FIFO has room for `k` descriptors more, and what is left of the buffer has no place for more: behind POS,
or behind the chunk start, of which the first MINM + 1 bytes must pass before the next push. -/
def State.RoomForScan (s : State) : Prop :=
  ∃ k, s.fifo.length + k ≤ s.params.fifoDepth ∧
    (s.bufN - s.pos.toNat < k * (s.minm + 1) ∨ s.bufN - s.cstart.toNat < (k + 1) * (s.minm + 1))

theorem roomForScan_of_division {s : State}
    (h : s.fifo.length + 1 + (s.bufN - s.pos.toNat) / (s.minm + 1) ≤ s.params.fifoDepth) :
    s.RoomForScan :=
  ⟨1 + (s.bufN - s.pos.toNat) / (s.minm + 1), by omega,
    .inl (Nat.lt_mul_of_div_lt (by omega) (Nat.succ_pos _))⟩

/-- What is left gets less, and the chunk start does not fall back. -/
theorem State.RoomForScan.of_le {s t : State} (h : s.RoomForScan) (hin : SameInput s t)
    (hfifo : t.fifo = s.fifo) (hpos : s.pos.toNat ≤ t.pos.toNat)
    (hcstart : s.cstart.toNat ≤ t.cstart.toNat) : t.RoomForScan := by
  obtain ⟨k, hroom, hleft⟩ := h
  refine ⟨k, by rwa [hfifo, ← hin.params], ?_⟩
  rw [← hin.bufN, ← hin.minm]
  omega

/-- At a boundary that matches there is room for the push, and then for the rest, which begins with a new
chunk. -/
theorem State.RoomForScan.at_match {s : State} (h : s.RoomForScan) (hp : s.pos.toNat < s.bufN)
    (hfar : s.minm ≤ s.pos.toNat - s.cstart.toNat) (hcstart : s.cstart.toNat ≤ s.pos.toNat) :
    s.fifo.length < s.params.fifoDepth ∧
      ∀ t d, SameInput s t → t.fifo = s.fifo ++ [d] → s.pos.toNat < t.cstart.toNat →
        t.cstart.toNat ≤ s.bufN → t.RoomForScan := by
  obtain ⟨k, hroom, hleft⟩ := h
  cases k with
  | zero => omega
  | succ k =>
    refine ⟨by omega, fun t d hin hfifo hlo hhi => ⟨k, ?_, .inr ?_⟩⟩
    · rw [hfifo, ← hin.params, List.length_append, List.length_singleton]
      omega
    · rw [← hin.bufN, ← hin.minm]
      rw [Nat.succ_mul (k + 1)] at hleft
      omega

/-- Past the MINM + 1st byte of a chunk (41_boundary_detector R163). -/
theorem minm_le_of_atBoundary {s : State} (hb : s.hashByte.atBoundary s.pos.toNat = true) :
    s.minm ≤ s.pos.toNat - s.cstart.toNat := by
  rw [State.atBoundary, Bool.and_eq_true, decide_eq_true_iff] at hb
  exact hb.1

theorem afterBoundary_cstart (s : State) (hit : Bool) :
    (s.afterBoundary hit).cstart = s.hashByte.pos := by cases hit <;> rfl

theorem afterBoundary_fifo (s : State) (hit : Bool) : (s.afterBoundary hit).fifo = s.fifo :=
  (afterBoundary_pushesNothing s hit).fifo

/-- A STEP_BODY in a FIFO with room for the scan does not hold, and leaves room for the rest. -/
theorem State.RoomForScan.stepBody {s : State} (h : s.RoomForScan)
    (hcstart : s.cstart.toNat ≤ s.pos.toNat) :
    (∀ t, s.stepBody = .ran t → t.RoomForScan) ∧ ∀ e t, s.stepBody ≠ .held e t := by
  rcases stepBody_cases s with ⟨-, hb⟩ | ⟨-, -, hb⟩ | ⟨-, hp, -, hb⟩ | ⟨-, hp, -, hit, hb⟩ |
    ⟨-, hp, hbound, c, e, hm, ⟨-, hb⟩ | ⟨hfull, hb⟩⟩ <;> rw [hb]
  · exact ⟨fun t ht => by cases ht; exact h, fun _ _ h' => nomatch h'⟩
  · refine ⟨fun t ht => ?_, fun _ _ h' => nomatch h'⟩
    cases ht
    exact h.of_le (.of_eq rfl rfl rfl rfl rfl rfl) rfl le_rfl le_rfl
  · have hpos := hashByte_pos_toNat hp
    refine ⟨fun t ht => ?_, fun _ _ h' => nomatch h'⟩
    cases ht
    refine h.of_le ((hashByte_scanFrame s).trans (forceClose_scanFrame _)).sameInput rfl ?_ le_rfl
    rw [State.forceClose_pos]
    omega
  · have hpos := hashByte_pos_toNat hp
    refine ⟨fun t ht => ?_, fun _ _ h' => nomatch h'⟩
    cases ht
    refine h.of_le ((afterBoundary_scanFrame s hit).trans (forceClose_scanFrame _)).sameInput
      ((State.forceClose_fifo _).trans (afterBoundary_fifo s hit)) ?_ ?_
    · rw [State.forceClose_pos, afterBoundary_pos]
      omega
    · rw [State.forceClose_cstart, afterBoundary_cstart]
      omega
  · have hpos := hashByte_pos_toNat hp
    obtain ⟨-, hnext⟩ := h.at_match hp (minm_le_of_atBoundary hbound) hcstart
    obtain ⟨-, -, -, -, hinside, hcur⟩ := emit_good hm
    rw [afterBoundary_pos] at hcur
    refine ⟨fun t ht => ?_, fun _ _ h' => nomatch h'⟩
    cases ht
    refine hnext _ e.desc ((afterBoundary_scanFrame s true).trans (finishJump_scanFrame _ e)).sameInput
      (by rw [finishJump_fifo, afterBoundary_fifo]) ?_ ?_ <;> rw [finishJump_cstart]
    · omega
    · exact hinside
  · obtain ⟨hroom, -⟩ := h.at_match hp (minm_le_of_atBoundary hbound) hcstart
    exact absurd (of_decide_eq_true hfull) (Nat.not_le.2 hroom)

theorem scanToEnd_of_room {s : State} (h : s.Sound) (hc : s.cfgOk = true) (hroom : s.RoomForScan) :
    ∃ t, s.scanToEnd = .ran t := by
  obtain ⟨-, hheld⟩ := scanLoop_induction
    (P := fun t => t.Sound ∧ t.cfgOk = true ∧ t.RoomForScan) (Q := fun _ _ => False)
    (fun u t hu _ hb => by
      obtain ⟨hsound, hok, hroom⟩ := hu
      exact ⟨(hsound.stepBody_ran hok hb).1, (stepBody_ran_scanFrame hb).cfgOk.trans hok,
        (hroom.stepBody (hsound.job hok).cstart).1 t hb⟩)
    (fun u e t hu _ hb => by
      obtain ⟨hsound, hok, hroom⟩ := hu
      exact (hroom.stepBody (hsound.job hok).cstart).2 e t hb)
    (s.bufN - s.pos.toNat + 1) s ⟨h, hc, hroom⟩
  cases hend : s.scanToEnd with
  | ran t => exact ⟨t, rfl⟩
  | held e t => exact (hheld e t hend).elim

theorem exec_scan_of {s : State} (hc : s.cfgOk = true) (hbuf : s.bufN ≤ s.params.bufCap)
    (htab : s.hlog ≤ s.params.hlogMax) : exec .scan s = .next s.runScan := by
  rw [exec, execScan, needCfg_of hc, needBuffer_of hbuf, needTable_of htab]

/-- What a SCAN leaves alone, and how it ends (44_scan_control R238). -/
theorem runScan_ends (s : State) :
    ScanFrame { s with engine := s.runScan.engine, done := s.runScan.done } s.runScan ∧
      (s.runScan.busy = true → s.runScan.stall = true) ∧
      (s.runScan.busy = false → s.runScan.eob = true ∧ s.runScan.done = true) := by
  cases hend : s.scanToEnd with
  | ran t =>
    rw [runScan_of_ran hend]
    refine ⟨?_, nofun, fun _ => ⟨(scanToEnd_ran_eob hend :), rfl⟩⟩
    unfold ScanFrame
    rw [scanToEnd_ran_scanFrame hend]
    rfl
  | held e t =>
    rw [runScan_of_held hend]
    refine ⟨?_, fun _ => (stall_hold t e _).trans (scanToEnd_held_full hend), nofun⟩
    unfold ScanFrame
    rw [scanToEnd_held_scanFrame hend]
    rfl

/-- Settles O31: SCAN ends as `runScan_ends` says, POS is N at EOB by the invariant, and with room for the scan
it cannot hold (`scanToEnd_of_room`). -/
theorem scanRunsToEndOrHolds : Obligations.ScanRunsToEndOrHolds := by
  unfold Obligations.ScanRunsToEndOrHolds
  intro s hinv hc
  obtain ⟨hbuf, htab⟩ := hinv.sound.inside hc
  obtain ⟨hframe, hstall, hdone⟩ := runScan_ends s
  refine ⟨s.runScan, exec_scan_of hc hbuf htab, hstall, fun hidle => ?_, fun hroom => ?_, hframe⟩
  · obtain ⟨heob, hd⟩ := hdone hidle
    have hend := ((hinv.sound.runScan_inv hc).job (hframe.cfgOk.trans hc)).ended heob
    exact ⟨heob, hend.trans hframe.sameInput.bufN.symm, hd⟩
  · obtain ⟨t, hend⟩ := scanToEnd_of_room hinv.sound hc (roomForScan_of_division hroom)
    rw [runScan_of_ran hend]
    rfl

end Sys2Proof.Machine
end

section
/-! PROOFS. The hash and table commands, BTEST, and VFWD, XBWD and MATCH, each with all that it changes
(40_rolling_hash R142, R144, R147, 41_boundary_detector R160, 42_match_table R181 to R187, 43_match_emitter R200
to R204). -/

namespace Sys2Proof.Machine

open Sys2Proof

/-! ### Low bits -/

theorem extractLsb'_zero_eq_ofNat (w : Word) (n : Nat) :
    w.extractLsb' 0 n = BitVec.ofNat n (w.toNat % 2 ^ n) := by
  apply BitVec.eq_of_toNat_eq
  simp

/-- The low bits of a number by mask, bit by bit. -/
theorem testBit_and_mask (x n k : Nat) :
    (x &&& (2 ^ n - 1)).testBit k = (decide (k < n) && x.testBit k) := by
  rw [Nat.and_two_pow_sub_one_eq_mod, Nat.testBit_mod_two_pow]

theorem and_mask_eq_zero_iff (w : Word) (n : Nat) :
    w.toNat &&& (2 ^ n - 1) = 0 ↔ ∀ k < n, w.getLsbD k = false := by
  constructor
  · intro h k hk
    simpa [hk, h, BitVec.testBit_toNat] using (testBit_and_mask w.toNat n k).symm
  · intro h
    refine Nat.eq_of_testBit_eq fun k => ?_
    rw [testBit_and_mask, Nat.zero_testBit, BitVec.testBit_toNat, Bool.and_eq_false_imp,
      decide_eq_true_iff]
    exact h k

theorem and_mask_eq_mask_iff (w : Word) (n : Nat) :
    w.toNat &&& (2 ^ n - 1) = 2 ^ n - 1 ↔ ∀ k < n, w.getLsbD k = true := by
  constructor
  · intro h k hk
    simpa [hk, h, BitVec.testBit_toNat] using (testBit_and_mask w.toNat n k).symm
  · intro h
    refine Nat.eq_of_testBit_eq fun k => ?_
    rw [testBit_and_mask, Nat.testBit_two_pow_sub_one, BitVec.testBit_toNat]
    by_cases hk : k < n
    · simp [hk, h k hk]
    · simp [hk]

/-! ### Hash commands -/

/-- Settles O7: the byte operand is the low byte of the register. -/
theorem gearWritesTableEntry : Obligations.GearWritesTableEntry := by
  unfold Obligations.GearWritesTableEntry
  intro rd rs1 s
  rw [← extractLsb'_zero_eq_ofNat]
  rfl

/-- The advance function as one sum (40_rolling_hash R144). -/
theorem advance_eq_ofNat (p : Params) (h : Word) (b : Byte) :
    advance p h b = BitVec.ofNat 64 (2 * h.toNat + (Params.gearAt p b).toNat) := by
  apply BitVec.eq_of_toNat_eq
  rw [advanceShiftsAndAdds p h b, BitVec.toNat_ofNat]
  omega

/-- Settles O8. -/
theorem hadvAdvancesOperand : Obligations.HadvAdvancesOperand := by
  unfold Obligations.HadvAdvancesOperand
  intro rd rs1 rs2 s
  rw [← extractLsb'_zero_eq_ofNat, ← advance_eq_ofNat]
  rfl

/-- Words that agree modulo 2^n agree in their low n bits. -/
theorem getLsbD_eq_of_modEq {v w : Word} {n j : Nat} (h : v.toNat ≡ w.toNat [MOD 2 ^ n]) (hj : j < n) :
    v.getLsbD j = w.getLsbD j := by
  have hbit := congrArg (Nat.testBit · j) h
  simpa [Nat.testBit_mod_two_pow, hj, BitVec.testBit_toNat] using hbit

/-- Modulo 2^k a hash is the sum over the last bytes, if there are k of them or more, for k up to 64. -/
theorem toNat_hashBytes_modEq_of_le (p : Params) (h : Word) {bytes : List Byte} {k : Nat}
    (hk : k ≤ bytes.length) (h64 : k ≤ 64) :
    (hashBytes p h bytes).toNat ≡ gearSum p bytes [MOD 2 ^ k] := by
  have shiftedOut : h.toNat * 2 ^ bytes.length ≡ 0 [MOD 2 ^ k] :=
    Nat.modEq_zero_iff_dvd.2 ((pow_dvd_pow 2 hk).mul_left _)
  have closed := (toNat_hashBytes_modEq p h bytes).of_dvd (pow_dvd_pow 2 h64)
  simpa using closed.trans (shiftedOut.add_right _)

/-- Settles O11: modulo 2^(j+1), where bit j lives, the hash is the sum over the recent bytes. -/
theorem lowHashBitsAreLocal : Obligations.LowHashBitsAreLocal := by
  unfold Obligations.LowHashBitsAreLocal
  intro p h h' before before' recent j hj
  rw [hashBytes_append, hashBytes_append]
  by_cases h64 : j < 64
  · exact getLsbD_eq_of_modEq ((toNat_hashBytes_modEq_of_le p _ hj h64).trans
      (toNat_hashBytes_modEq_of_le p _ hj h64).symm) (Nat.lt_succ_self j)
  · rw [BitVec.getLsbD_of_ge _ _ (by omega), BitVec.getLsbD_of_ge _ _ (by omega)]

/-! ### BTEST -/

theorem isBoundary_iff_zeros {s : State} (hm : s.bmode = false) (h : Word) :
    s.isBoundary h = true ↔ ∀ k < s.hrl, h.getLsbD k = false := by
  simp only [State.isBoundary, hm, Bool.false_eq_true, if_false, beq_iff_eq, and_mask_eq_zero_iff]

theorem isBoundary_iff_ones {s : State} (hm : s.bmode = true) (h : Word) :
    s.isBoundary h = true ↔ ∀ k < s.hrl, h.getLsbD k = true := by
  simp only [State.isBoundary, hm, if_true, beq_iff_eq, and_mask_eq_mask_iff]

/-- Settles O12: the boundary test reads the masked bits one by one. -/
theorem btestReadsLowBits : Obligations.BtestReadsLowBits := by
  unfold Obligations.BtestReadsLowBits
  exact fun rd rs1 s hc => ⟨s.isBoundary (s.reg rs1), needCfg_of hc _,
    fun hm => isBoundary_iff_zeros hm _, fun hm => isBoundary_iff_ones hm _⟩

/-! ### Table commands -/

theorem key_eq_mod (s : State) (h : Word) : s.key h = h.toNat % 2 ^ s.hlog :=
  Nat.and_two_pow_sub_one_eq_mod _ _

/-- Settles O13: a key is its low HLOG bits. -/
theorem keyIsLowHlogBits : Obligations.KeyIsLowHlogBits := by
  unfold Obligations.KeyIsLowHlogBits
  refine fun s h => ⟨rfl, key_eq_mod s h, fun h' hbits => Nat.eq_of_testBit_eq fun k => ?_⟩
  rw [State.key, State.key, testBit_and_mask, testBit_and_mask, BitVec.testBit_toNat,
    BitVec.testBit_toNat]
  by_cases hk : k < s.hlog
  · rw [hbits k hk]
  · simp [hk]

/-- Settles O14: the bucket is the key of the register (`key_eq_mod`), and `tableRead_tableWrite` reads every
bucket after the write. -/
theorem tinsOverwritesOneBucket : Obligations.TinsOverwritesOneBucket := by
  unfold Obligations.TinsOverwritesOneBucket
  intro rs1 rs2 s hc ht
  refine ⟨_, (needCfg_of hc _).trans (needTable_of ht _), rfl, fun k => ?_⟩
  rw [← key_eq_mod, ← extractLsb'_zero_eq_ofNat]
  exact tableRead_tableWrite s _ k _

/-- An offset of 32 bits is never EMPTY (42_match_table R183). -/
theorem setWidth_ne_empty (off : BitVec 32) : off.setWidth 64 ≠ empty := by
  intro h
  have hval : off.toNat = empty.toNat := by
    rw [← h, BitVec.toNat_setWidth_of_le (by decide)]
  have hlt : off.toNat < 2 ^ 32 := off.isLt
  rw [hval] at hlt
  exact absurd hlt (by decide)

/-- Settles O15: a filled bucket answers its 32 bits, which are not EMPTY (`setWidth_ne_empty`). -/
theorem tlkpReturnsBucketOrEmpty : Obligations.TlkpReturnsBucketOrEmpty := by
  unfold Obligations.TlkpReturnsBucketOrEmpty
  intro rd rs1 s hc ht
  refine ⟨_, (needCfg_of hc _).trans (needTable_of ht _), ?_⟩
  rw [← key_eq_mod]
  cases s.tableRead (s.key (s.reg rs1)) with
  | none => exact ⟨⟨fun _ => rfl, fun _ => rfl⟩, nofun⟩
  | some off =>
    refine ⟨⟨nofun, fun h => absurd h (setWidth_ne_empty off)⟩, fun off' h => ?_⟩
    cases h
    exact BitVec.toNat_setWidth_of_le (by decide)

/-- Settles O16: TCLR runs without any check, and a cleared table reads `none`. -/
theorem tclrEmptiesTable : Obligations.TclrEmptiesTable := by
  unfold Obligations.TclrEmptiesTable
  exact fun s => ⟨s.tableClear.complete, rfl, rfl, tableRead_tableClear s⟩

/-! ### Lengths -/

/-- Settles O18: the length is where the test of `fwdEq` first fails, and at its last success both ranges lie
inside the buffer. -/
theorem vfwdCountsEqualBytesForward : Obligations.VfwdCountsEqualBytesForward := by
  unfold Obligations.VfwdCountsEqualBytesForward
  intro rd rs1 rs2 s hc hb a b
  have hequal : ∀ k < s.fwdLen a b, _ := fun k hk => (fwdEq_iff s a b k).1 (fwdEq_of_lt_fwdLen hk)
  refine ⟨s.fwdLen a b, (needCfg_of hc _).trans (needBuffer_of hb _), ?_, hequal, ?_⟩
  · rcases Nat.eq_zero_or_pos (s.fwdLen a b) with h0 | hpos
    · omega
    · obtain ⟨ha, hb, -⟩ := hequal _ (Nat.sub_lt hpos one_pos)
      omega
  · rw [← fwdEq_iff, fwdEq_fwdLen]
    exact Bool.false_ne_true

/-- Settles O19: the length is where the test of `bwdEq` first fails. -/
theorem xbwdCountsEqualBytesBackward : Obligations.XbwdCountsEqualBytesBackward := by
  unfold Obligations.XbwdCountsEqualBytesBackward
  intro rd rs1 rs2 rs3 s hc hb a b lo
  have hequal : ∀ k < s.bwdLen a b lo, _ := fun k hk =>
    (bwdEq_iff s a b lo k).1 (bwdEq_of_lt_bwdLen hk)
  refine ⟨s.bwdLen a b lo, (needCfg_of hc _).trans (needBuffer_of hb _), ?_,
    fun k hk => (hequal k hk).2.2, ?_⟩
  · rcases Nat.eq_zero_or_pos (s.bwdLen a b lo) with h0 | hpos
    · omega
    · obtain ⟨ha, hb, -⟩ := hequal _ (Nat.sub_lt hpos one_pos)
      omega
  · rw [← bwdEq_iff, bwdEq_bwdLen]
    exact Bool.false_ne_true

/-! ### MATCH -/

/-- What the emitter answers on a candidate that passes the pre-checks and the length test (43_match_emitter
R203). -/
theorem emit_of_accepted {s : State} {cand cur : Nat} (hr : s.emitRejects cand cur = false)
    (hm : s.minm ≤ s.fwdLen cand cur + s.bwdLen cand cur s.prevEnd.toNat) :
    s.emit cand cur = some
      { desc := ⟨BitVec.ofNat 64 (cand - s.bwdLen cand cur s.prevEnd.toNat),
          BitVec.ofNat 64 (cur - s.bwdLen cand cur s.prevEnd.toNat),
          BitVec.ofNat 64 (s.fwdLen cand cur + s.bwdLen cand cur s.prevEnd.toNat)⟩
        stop := BitVec.ofNat 64 (cur + s.fwdLen cand cur) } := by
  simp only [State.emit, hr, Bool.false_eq_true, if_false, if_neg (Nat.not_lt.2 hm)]

theorem exec_match_of_reject {s : State} {rd rs1 rs2 : Reg} (hc : s.cfgOk = true)
    (hb : s.bufN ≤ s.params.bufCap) (he : s.emit (s.offsetOperand rs1) (s.offsetOperand rs2) = none) :
    exec (.matchEmit rd rs1 rs2) s = .next (s.setReg rd 0).complete := by
  rw [exec, execMatchEmit, needCfg_of hc, needBuffer_of hb, he]

theorem exec_match_of_accept {s : State} {rd rs1 rs2 : Reg} {e : Emission} (hc : s.cfgOk = true)
    (hb : s.bufN ≤ s.params.bufCap)
    (he : s.emit (s.offsetOperand rs1) (s.offsetOperand rs2) = some e) :
    exec (.matchEmit rd rs1 rs2) s =
      if s.fifoFull then .next (s.hold e (.matchResult rd)) else .next (s.finishMatch rd e) := by
  rw [exec, execMatchEmit, needCfg_of hc, needBuffer_of hb, he]

/-- Settles O20: an accepted candidate has passed every check (`emit_eq_some`). -/
theorem matchRejectsBadCandidate : Obligations.MatchRejectsBadCandidate := by
  unfold Obligations.MatchRejectsBadCandidate
  intro rd rs1 rs2 s hc hb cand cur hbad
  refine exec_match_of_reject hc hb ?_
  cases he : s.emit cand cur with
  | none => exact he
  | some e =>
    obtain ⟨hr, hm, -⟩ := emit_eq_some he
    obtain ⟨hne, hlt, hN, hprev, hwin⟩ := (emitRejects_iff s cand cur).1 hr
    rcases hbad with hempty | hbad
    · exact absurd (congrArg BitVec.toNat hempty) hne
    · omega

theorem fifoFull_of_room {s : State} (h : s.fifo.length < s.params.fifoDepth) : s.fifoFull = false :=
  decide_eq_false (Nat.not_le.2 h)

theorem fifoFull_of_full {s : State} (h : s.params.fifoDepth ≤ s.fifo.length) : s.fifoFull = true :=
  decide_eq_true h

/-- Settles O21: the emitter accepts (`emit_of_accepted`), and the FIFO decides between push and hold. -/
theorem matchEmitsOrHolds : Obligations.MatchEmitsOrHolds := by
  unfold Obligations.MatchEmitsOrHolds
  intro rd rs1 rs2 s hc hb cand cur f bk d hne hlt hN hprev hwin hm
  have hcand : cand ≠ empty.toNat := fun h => hne (BitVec.eq_of_toNat_eq h)
  have hr : s.emitRejects cand cur = false :=
    (emitRejects_iff s cand cur).2 ⟨hcand, hlt, hN, hprev, hwin⟩
  have hexec := exec_match_of_accept (rd := rd) (rs1 := rs1) (rs2 := rs2) hc hb (emit_of_accepted hr hm)
  refine ⟨fun hroom => ?_, fun hfull => ?_⟩
  · rw [fifoFull_of_room hroom] at hexec
    exact hexec
  · have hf := fifoFull_of_full hfull
    rw [hf] at hexec
    exact ⟨_, hexec, rfl, rfl, hf⟩

end Sys2Proof.Machine
end

section
/-! PROOFS. NOP, INIT, STEP and SCAN, each with all that it changes (44_scan_control R230 to R238), and the
model's two faults (log entry 7). -/

namespace Sys2Proof.Machine

open Sys2Proof

/-- Settles O23: NOP is its completion alone. -/
theorem nopOnlyCompletes : Obligations.NopOnlyCompletes := by
  unfold Obligations.NopOnlyCompletes
  exact fun s => rfl

/-! ### INIT -/

/-- Settles O24: in each case the chain of INIT's checks stops at the one that fails. -/
theorem initReportsFirstFailure : Obligations.InitReportsFirstFailure := by
  unfold Obligations.InitReportsFirstFailure
  intro s hlogBad wlogBad minmBad windowBad bufferBad rateBad failed
  refine ⟨fun h1 => ?_, fun h1 h2 => ?_, fun h1 h2 h3 => ?_, fun h1 h2 h3 h4 => ?_,
    fun h1 h2 h3 h4 h5 => ?_, fun h1 h2 h3 h4 h5 h6 => ?_⟩
  · exact exec_init_of_error (c := .hlogRange) (if_pos h1)
  · exact exec_init_of_error (c := .wlogRange) ((if_neg h1).trans (if_pos h2))
  · exact exec_init_of_error (c := .minmZero)
      ((if_neg h1).trans ((if_neg h2).trans (if_pos h3)))
  · exact exec_init_of_error (c := .windowGtBuffer)
      ((if_neg h1).trans ((if_neg h2).trans ((if_neg h3).trans (if_pos h4))))
  · exact exec_init_of_error (c := .buflenRange)
      ((if_neg h1).trans ((if_neg h2).trans ((if_neg h3).trans ((if_neg h4).trans (if_pos h5)))))
  · exact exec_init_of_error (c := .hrlRange)
      ((if_neg h1).trans ((if_neg h2).trans ((if_neg h3).trans ((if_neg h4).trans
        ((if_neg h5).trans (if_pos h6))))))

/-- Settles O25: the six checks together are `State.ConfigLegal`. -/
theorem initStartsJob : Obligations.InitStartsJob := by
  unfold Obligations.InitStartsJob
  intro s h1 h2 h3 h4 h5 h6 h7 h8
  exact ⟨_, exec_init_of_legal ((configError_eq_none_iff s).2 ⟨h1, h2, h3, h4, h5, h6, h7, h8⟩), rfl,
    fun _ => rfl⟩

/-! ### STEP -/

/-- Settles O26: with EOB = 1 neither a STEP_BODY nor SCAN's loop does anything. -/
theorem scanEndsAtEndOfBuffer : Obligations.ScanEndsAtEndOfBuffer := by
  unfold Obligations.ScanEndsAtEndOfBuffer
  refine fun s hc hb ht he => ⟨exec_step_of_ran hc hb ht (stepBody_of_eob he), ?_⟩
  rw [exec_scan_of hc hb ht, runScan_of_ran (scanToEnd_of_eob he)]
  rfl

/-- A STEP whose STEP_BODY holds (10_state R52). -/
theorem exec_step_of_held {s t : State} {e : Emission} (hc : s.cfgOk = true)
    (hbuf : s.bufN ≤ s.params.bufCap) (htab : s.hlog ≤ s.params.hlogMax)
    (hb : s.stepBody = .held e t) : exec .step s = .next (t.hold e .stepJump) := by
  rw [exec, execStep, needCfg_of hc, needBuffer_of hbuf, needTable_of htab, hb]

/-- The hash with the byte at POS (40_rolling_hash R143). -/
def State.nextHash (s : State) : Word := advance s.params s.hash (s.bufByte s.pos.toNat)

/-- The position past the byte at POS, as a number: nothing wraps below N. -/
theorem hashByte_eq (s : State) :
    s.hashByte = { s with hash := s.nextHash, pos := BitVec.ofNat 64 (s.pos.toNat + 1) } := by
  have hpos : s.pos + 1 = BitVec.ofNat 64 (s.pos.toNat + 1) := by
    rw [BitVec.ofNat_add, BitVec.ofNat_toNat, BitVec.setWidth_eq]
    rfl
  rw [← hpos]
  rfl

/-- The writes of a boundary, with the hit counted if there was one (44_scan_control R236). -/
theorem afterBoundary_eq {s : State} (hp : s.pos.toNat < s.bufN) (hit : Bool) :
    s.afterBoundary hit = { s with
      hash := s.nextHash
      pos := BitVec.ofNat 64 (s.pos.toNat + 1)
      cstart := BitVec.ofNat 64 (s.pos.toNat + 1)
      bcount := s.bcount + 1
      hcount := s.hcount + (if hit then 1 else 0)
      table := sparseSet (s.key s.nextHash) (BitVec.ofNat 32 (s.pos.toNat + 1)) s.table } := by
  have hmark : s.hashByte.markBoundary = { s.hashByte with
      bcount := s.bcount + 1
      table := sparseSet (s.key s.nextHash) (BitVec.ofNat 32 (s.pos.toNat + 1)) s.table
      cstart := s.hashByte.pos } := by
    rw [← hashByte_pos_toNat hp]
    rfl
  have hcount : s.hcount + 0 = s.hcount := BitVec.add_zero _
  cases hit with
  | false =>
    simp only [State.afterBoundary, Bool.false_eq_true, if_false, hmark, hcount]
    rw [hashByte_eq]
  | true =>
    simp only [State.afterBoundary, if_true, hmark]
    rw [hashByte_eq]
    rfl

/-- With EOB = 0 before, EOB rises exactly if POS is N (41_boundary_detector R164). -/
theorem forceClose_eq {s : State} (he : s.eob = false) :
    s.forceClose = { s with eob := decide (s.pos.toNat = s.bufN) } := by
  rw [State.forceClose, he, Bool.false_or, pos_eq_bufLen_iff]

/-- The jump past a match, with EOB = 0 before (44_scan_control R236). -/
theorem finishJump_eq {s : State} (he : s.eob = false) (e : Emission) :
    s.finishJump e = { s with
      fifo := s.fifo ++ [e.desc], mcount := s.mcount + 1, prevEnd := e.stop, pos := e.stop, hash := 0
      cstart := e.stop, eob := decide (e.stop.toNat = s.bufN) } := by
  rw [State.finishJump, forceClose_eq (by simpa using he)]
  rfl

theorem atBoundary_hashByte (s : State) : s.hashByte.atBoundary s.pos.toNat =
    (decide (s.minm ≤ s.pos.toNat - s.cstart.toNat) && s.isBoundary s.nextHash) := rfl

/-- Settles O27: the body takes the branch without a boundary. -/
theorem stepWithoutBoundary : Obligations.StepWithoutBoundary := by
  unfold Obligations.StepWithoutBoundary
  intro s hc hb ht he hp i h hquiet
  have hbound : s.hashByte.atBoundary s.pos.toNat = false := by
    rw [atBoundary_hashByte, Bool.and_eq_false_iff, decide_eq_false_iff_not, Nat.not_le]
    exact hquiet
  rw [exec_step_of_ran hc hb ht (stepBody_of_no_boundary he hp hbound),
    forceClose_eq (s := s.hashByte) he, hashByte_pos_toNat hp, hashByte_eq]
  rfl

theorem atBoundary_of {s : State} (hfar : s.minm ≤ s.pos.toNat - s.cstart.toNat)
    (hh : s.isBoundary s.nextHash = true) : s.hashByte.atBoundary s.pos.toNat = true := by
  rw [atBoundary_hashByte, hh, Bool.and_true]
  exact decide_eq_true hfar

/-- The writes at the boundary do not matter to the emitter (44_scan_control R236). -/
theorem emit_afterBoundary {s : State} (hp : s.pos.toNat < s.bufN) (hit : Bool) (cand : Nat) :
    (s.afterBoundary hit).emit cand (s.afterBoundary hit).pos.toNat =
      s.emit cand (s.pos.toNat + 1) := by
  rw [afterBoundary_pos, hashByte_pos_toNat hp]
  exact (afterBoundary_scanFrame s hit).sameInput.symm.emit
    (afterBoundary_pushesNothing s hit).prevEnd _ _

theorem bodyAtHit_of_reject {s : State} {c : BitVec 32} (h : s.emit c.toNat s.pos.toNat = none) :
    s.bodyAtHit c = .ran s.forceClose := by
  rw [State.bodyAtHit, h]

theorem bodyAtHit_of_accept {s : State} {c : BitVec 32} {e : Emission}
    (h : s.emit c.toNat s.pos.toNat = some e) :
    s.bodyAtHit c = if s.fifoFull then .held e s else .ran (s.finishJump e) := by
  rw [State.bodyAtHit, h]

theorem afterBoundary_fifoFull (s : State) (hit : Bool) :
    (s.afterBoundary hit).fifoFull = s.fifoFull := by
  rw [State.fifoFull, State.fifoFull, afterBoundary_fifo, (afterBoundary_scanFrame s hit).params]

/-- Settles O28: a miss, and a hit that the emitter rejects, both end the body at the boundary. -/
theorem stepAtBoundaryWithoutMatch : Obligations.StepAtBoundaryWithoutMatch := by
  unfold Obligations.StepAtBoundaryWithoutMatch
  intro s hc hb ht he hp i h entry hfar hh hreject
  have hbound := atBoundary_of hfar hh
  have hbody : s.stepBody = .ran (s.afterBoundary entry.isSome).forceClose := by
    cases hentry : entry with
    | none => exact stepBody_of_miss he hp hbound hentry
    | some c =>
      rw [stepBody_of_hit he hp hbound hentry]
      exact bodyAtHit_of_reject ((emit_afterBoundary hp true _).trans (hreject c hentry))
  rw [exec_step_of_ran hc hb ht hbody, forceClose_eq ((afterBoundary_eob s _).trans he), afterBoundary_pos,
    hashByte_pos_toNat hp, afterBoundary_eq hp]
  rfl

/-- Settles O29: the FIFO decides whether the body jumps past the match or holds before the push. -/
theorem stepAtMatchJumpsOrHolds : Obligations.StepAtMatchJumpsOrHolds := by
  unfold Obligations.StepAtMatchJumpsOrHolds
  intro s c e hc hb ht he hp i h hfar hh hentry hm
  have hbody := (stepBody_of_hit he hp (atBoundary_of hfar hh) hentry).trans
    (bodyAtHit_of_accept ((emit_afterBoundary hp true _).trans hm))
  have hfifo := afterBoundary_fifoFull s true
  refine ⟨fun hroom => ?_, fun hfull => ?_⟩
  · rw [hfifo, fifoFull_of_room hroom] at hbody
    rw [exec_step_of_ran hc hb ht hbody,
      finishJump_eq ((afterBoundary_eob s true).trans he), afterBoundary_eq hp]
    rfl
  · have hfull' := hfifo.trans (fifoFull_of_full hfull)
    rw [hfull'] at hbody
    refine ⟨_, exec_step_of_held hc hb ht hbody, busy_hold _ _ _, (stall_hold _ _ _).trans hfull', ?_⟩
    rw [afterBoundary_eq hp]
    rfl

/-! ### The two faults -/

theorem needBuffer_faults {s : State} (hb : s.params.bufCap < s.bufN) (r : Result) :
    s.needBuffer r = .fault .bufferBeyondCapacity := if_neg (Nat.not_le.2 hb)

theorem needTable_faults {s : State} (ht : s.params.hlogMax < s.hlog) (r : Result) :
    s.needTable r = .fault .tableBeyondStorage := if_neg (Nat.not_le.2 ht)

/-- Settles O59: behind CFG_OK the check of the buffer comes before that of the table. -/
theorem uncheckedConfigurationFaults : Obligations.UncheckedConfigurationFaults := by
  unfold Obligations.UncheckedConfigurationFaults
  refine fun s rd rs1 rs2 rs3 hc => ⟨fun hb => ?_, fun ht => ?_⟩
  · have faults (r : Result) : s.needCfg (s.needBuffer r) = .fault .bufferBeyondCapacity :=
      (needCfg_of hc _).trans (needBuffer_faults hb r)
    exact ⟨faults _, faults _, faults _, faults _, faults _⟩
  · have faults (r : Result) : s.needCfg (s.needTable r) = .fault .tableBeyondStorage :=
      (needCfg_of hc _).trans (needTable_faults ht r)
    refine ⟨faults _, faults _, fun hb => ?_⟩
    have faults' (r : Result) :
        s.needCfg (s.needBuffer (s.needTable r)) = .fault .tableBeyondStorage := by
      rw [needBuffer_of hb]
      exact faults r
    exact ⟨faults' _, faults' _⟩

end Sys2Proof.Machine
end

section
/-! PROOFS. Single host accesses and reset: what each register takes and shows, bad accesses, pops (10_state R30
to R51, 20_memory R81 and R83, 30_encoding R116, 70_reset_and_hazards R300). -/

namespace Sys2Proof.Machine

open Sys2Proof

theorem registerAt_cfg : RegisterAt 0x010 .cfg := registerAt_of_mem (row := (0x010, .cfg)) (by decide)

theorem registerAt_bufLen : RegisterAt 0x018 .bufLen :=
  registerAt_of_mem (row := (0x018, .bufLen)) (by decide)

theorem registerAt_cmd : RegisterAt 0x020 .cmd := registerAt_of_mem (row := (0x020, .cmd)) (by decide)

theorem registerAt_status : RegisterAt 0x028 .status :=
  registerAt_of_mem (row := (0x028, .status)) (by decide)

theorem registerAt_ie : RegisterAt 0x038 .ie := registerAt_of_mem (row := (0x038, .ie)) (by decide)

theorem registerAt_descSrc : RegisterAt 0x0C0 .descSrc :=
  registerAt_of_mem (row := (0x0C0, .descSrc)) (by decide)

theorem registerAt_descDst : RegisterAt 0x0C8 .descDst :=
  registerAt_of_mem (row := (0x0C8, .descDst)) (by decide)

theorem registerAt_descLen : RegisterAt 0x0D0 .descLen :=
  registerAt_of_mem (row := (0x0D0, .descLen)) (by decide)

theorem registerAt_descPop : RegisterAt 0x0D8 .descPop :=
  registerAt_of_mem (row := (0x0D8, .descPop)) (by decide)

theorem registerAt_fifoCount : RegisterAt 0x0E0 .fifoCount :=
  registerAt_of_mem (row := (0x0E0, .fifoCount)) (by decide)

/-! ### Writes -/

/-- A sticky bit under a write of `clear` to it (10_state R39). -/
theorem and_not_eq_ite (bit clear : Bool) : (bit && !clear) = if clear then false else bit := by
  cases clear <;> simp

/-- Settles O41: `State.clearStatus` masks each sticky bit (`and_not_eq_ite`). -/
theorem statusWriteClearsStickyBits : Obligations.StatusWriteClearsStickyBits := by
  unfold Obligations.StatusWriteClearsStickyBits
  intro s v
  rw [registerAt_status.write, State.writeReg, State.clearStatus]
  simp only [and_not_eq_ite]
  rfl

/-- Settles O45: `State.writeReg` asks for exactly BUSY = 0 and ERR = 0. -/
theorem cmdWriteIsAcceptedOrDropped : Obligations.CmdWriteIsAcceptedOrDropped := by
  unfold Obligations.CmdWriteIsAcceptedOrDropped
  refine fun s v => ⟨fun hbusy herr => ⟨_, rfl, ?_⟩, fun hbad => ?_⟩
  · have hwrite : s.writeReg .cmd v = s.accept v := by simp [State.writeReg, hbusy, herr]
    rw [registerAt_cmd.write, hwrite]
    exact ⟨rfl, rfl⟩
  · have hwrite : s.writeReg .cmd v = s.setDrop := by
      rw [State.writeReg, if_pos (by simpa using hbad)]
    rw [registerAt_cmd.write, hwrite]
    rfl

/-- Settles O47: an idle engine takes every write that a busy one drops. -/
theorem registerWritesStore : Obligations.RegisterWritesStore := by
  unfold Obligations.RegisterWritesStore
  intro s v
  refine ⟨fun hidle => ⟨?_, ?_, fun r => ?_⟩, ?_⟩
  · rw [registerAt_cfg.write, State.writeReg, whenIdle_idle hidle]
    rfl
  · rw [registerAt_bufLen.write, State.writeReg, whenIdle_idle hidle]
    rfl
  · rw [(registerAt_gpr r).write, State.writeReg, whenIdle_idle hidle]
    rfl
  · have hlow : v.extractLsb' 0 5 = BitVec.ofNat 5 v.toNat := by
      apply BitVec.eq_of_toNat_eq
      simp
    rw [registerAt_ie.write, State.writeReg, hlow]
    rfl

/-! ### Bad accesses -/

/-- An access that meets the rules of neither space is not performed (20_memory R81, R83). -/
theorem target_eq_bad {p : Params} {width : Nat} {addr : BitVec 25}
    (hreg : ¬(addr.toNat < 0x1000 ∧ width = 8 ∧ 8 ∣ addr.toNat))
    (hap : ¬(0x1000000 ≤ addr.toNat ∧ width ∈ [1, 2, 4, 8] ∧ width ∣ (addr.toNat - 0x1000000) ∧
      addr.toNat - 0x1000000 + width ≤ p.bufCap)) :
    Params.target p width addr = .bad := by
  cases htarget : Params.target p width addr with
  | bad => rfl
  | register r =>
    obtain ⟨hlt, hwidth, haligned, -⟩ := target_register htarget
    exact absurd ⟨hlt, hwidth, Nat.dvd_of_mod_eq_zero haligned⟩ hreg
  | aperture off =>
    obtain ⟨hwidth, haddr, haligned, hinside⟩ := target_aperture htarget
    have hoff : addr.toNat - 0x1000000 = off := by omega
    refine absurd ⟨by omega, by simpa using hwidth, ?_, ?_⟩ hap
    · rw [hoff]
      exact Nat.dvd_of_mod_eq_zero haligned
    · rwa [hoff]

/-- Settles O48: the three ranges leave no rule that the access could meet. -/
theorem badAccessesSetBuserr : Obligations.BadAccessesSetBuserr := by
  unfold Obligations.BadAccessesSetBuserr
  intro s width addr v hbad
  have htarget : Params.target s.params width addr = .bad := by
    rcases hbad with ⟨hlt, hrule⟩ | ⟨hlo, hhi⟩ | ⟨hlo, hrule⟩
    · exact target_eq_bad (fun h => hrule h.2) fun h => by omega
    · exact target_eq_bad (fun h => by omega) fun h => by omega
    · exact target_eq_bad (fun h => by omega) fun h => hrule h.2
  rw [State.hostAccess, State.hostAccess, htarget]
  exact ⟨rfl, rfl⟩

/-! ### STATUS -/

/-- The bits of a number made from flags are the flags (10_state R38). -/
theorem testBit_bitsToNat (flags : List Bool) (k : Nat) :
    (bitsToNat flags).testBit k = flags.getD k false := by
  induction flags generalizing k with
  | nil => simp [bitsToNat]
  | cons b rest ih =>
    cases k with
    | zero => cases b <;> simp [bitsToNat]
    | succ k =>
      have hhalf : (b.toNat + 2 * bitsToNat rest) / 2 = bitsToNat rest := by
        cases b <;> simp [Nat.add_mul_div_left]
      rw [bitsToNat, Nat.testBit_succ, hhalf, ih, List.getD_cons_succ]

/-- The flags of STATUS, bit 0 first (10_state R38). -/
def State.flags (s : State) : List Bool :=
  [s.busy, s.done, s.err, s.cfgOk, s.eob, s.drop, s.busErr, s.fifoFull, s.stall, s.irq]

theorem getLsbD_status (s : State) (k : Nat) : s.status.getLsbD k = s.flags.getD k false := by
  rw [State.status, BitVec.getLsbD_ofNat]
  change (decide (k < 64) && (bitsToNat s.flags).testBit k) = _
  rw [testBit_bitsToNat]
  by_cases hk : k < 64
  · rw [decide_eq_true hk, Bool.true_and]
  · rw [List.getD_eq_default _ _ (show s.flags.length ≤ k by rw [State.flags]; simp; omega),
      Bool.and_false]

theorem fifoFull_iff (s : State) : s.fifoFull = true ↔ s.params.fifoDepth ≤ s.fifo.length :=
  decide_eq_true_iff

/-- The interrupt output is the OR of the five enabled conditions (10_state R42). -/
theorem irq_iff (s : State) : s.irq = true ↔
    (s.done = true ∧ s.ie.getLsbD 0 = true) ∨ (s.err = true ∧ s.ie.getLsbD 1 = true) ∨
    (0 < s.fifo.length ∧ s.ie.getLsbD 2 = true) ∨
    (s.params.fifoDepth ≤ s.fifo.length ∧ s.ie.getLsbD 3 = true) ∨
    (s.busErr = true ∧ s.ie.getLsbD 4 = true) := by
  simp only [State.irq, Bool.or_eq_true, Bool.and_eq_true, decide_eq_true_iff, fifoFull_iff, or_assoc]

/-- Settles O52: the bits of STATUS are its flags (`getLsbD_status`). -/
theorem statusReadsItsFlags : Obligations.StatusReadsItsFlags := by
  unfold Obligations.StatusReadsItsFlags
  intro s w count
  have hw : w = s.status := by
    change (s.hostAccess (.read 8 0x028)).response.data = _
    rw [registerAt_status.read_of_stable (.inl rfl)]
    rfl
  have hbit (k : Nat) : w.getLsbD k = s.flags.getD k false := hw ▸ getLsbD_status s k
  refine ⟨hbit 0, hbit 1, hbit 2, hbit 3, hbit 4, hbit 5, hbit 6, ?_, hbit 8, ?_, fun k hk => ?_⟩
  · rw [hbit 7]
    exact fifoFull_iff s
  · rw [hbit 9]
    exact irq_iff s
  · rw [hbit k]
    exact List.getD_eq_default _ _ hk

/-! ### Descriptors -/

/-- FIFO_COUNT holds the count, which is at most FIFO_DEPTH (00_scope R8, 10_state R51). -/
theorem fifoCount_toNat {s : State} (h : s.Inv) :
    (BitVec.ofNat 64 s.fifo.length).toNat = s.fifo.length := by
  obtain ⟨-, -, -, -, -, hdepth⟩ := params_fields_lt h.params
  have hfits := h.fifo
  rw [BitVec.toNat_ofNat, Nat.mod_eq_of_lt (by omega)]

/-- Settles O53: a pop is `popHead_eq`, and a read of a head field `head_eq`. -/
theorem descriptorsReadAndPop : Obligations.DescriptorsReadAndPop := by
  unfold Obligations.DescriptorsReadAndPop
  intro s v hinv
  have hpop : s.hostAccess (.write 8 0x0D8 v) = { s with
      fifo := s.fifo.tail, popped := s.popped ++ s.fifo.take 1, response := ⟨0, false⟩ } := by
    rw [registerAt_descPop.write, State.writeReg, popHead_eq]
    rfl
  refine ⟨by rw [hpop], hpop, ?_, ?_, ?_, ?_⟩
  · rw [registerAt_descSrc.read_of_stable (.inl rfl)]
    exact head_eq s Desc.src
  · rw [registerAt_descDst.read_of_stable (.inl rfl)]
    exact head_eq s Desc.dst
  · rw [registerAt_descLen.read_of_stable (.inl rfl)]
    exact head_eq s Desc.len
  · rw [registerAt_fifoCount.read_of_stable (.inl rfl)]
    exact fifoCount_toNat hinv

/-! ### Reset -/

/-- Every register that reset zeroes (70_reset_and_hazards R300). -/
structure State.Zeroed (s : State) : Prop where
  reg : ∀ r, s.reg r = 0
  status : s.status = 0
  irq : s.irq = false

theorem resetOf_zeroed {p : Params} (hp : p.wf = true) (engineId epoch draws : Nat)
    (agenda : List Event) (response : Response) :
    State.Zeroed { State.resetOf p with
      engineId := engineId, epoch := epoch, draws := draws, agenda := agenda, response := response } := by
  have hroom : ¬p.fifoDepth ≤ 0 := by
    simp only [Params.wf, Bool.and_eq_true, decide_eq_true_eq] at hp
    omega
  constructor
  · intro r
    simp [State.reg, State.resetOf]
  · simp [State.status, State.busy, State.stall, State.irq, State.fifoFull, State.resetOf, bitsToNat,
      hroom]
  · simp [State.irq, State.fifoFull, State.resetOf, hroom]

/-- Settles O54: the registers that are fields are 0 in `State.resetOf`; the others are read off them
(`resetOf_zeroed`). -/
theorem resetZeroesEveryRegister : Obligations.ResetZeroesEveryRegister := by
  unfold Obligations.ResetZeroesEveryRegister
  have hreset : State.reset.Zeroed := resetOf_zeroed (by decide) 0 0 0 [] ⟨0, false⟩
  refine ⟨fun s hwf => ?_, hreset.reg, hreset.status, rfl, rfl, rfl, rfl, rfl, rfl, rfl, rfl, rfl, rfl,
    rfl, rfl, rfl⟩
  have hzero := resetOf_zeroed hwf s.engineId (s.epoch + 1) s.draws [] s.response
  exact ⟨_, rfl, rfl, hzero.reg, rfl, rfl, rfl, hzero.status, rfl, rfl, hzero.irq, rfl, rfl, rfl, rfl, rfl,
    rfl, rfl, rfl, rfl⟩

end Sys2Proof.Machine
end
